-- ==== Sys2Proof/Word.lean ====
section
/-! DEFINITION. The words of the hardware (rules R8 and R9) and the closed sets of names its spec uses:
addressing modes (R108), mnemonics (R107), status flags (R36) and the decode table's timing record (R106). -/

namespace Sys2Proof

/-- A data byte: every data value and every bus transfer is 8 bits (R8). -/
abbrev Byte := BitVec 8

/-- An address: 16 bits (R9). -/
abbrev Word := BitVec 16

/-- The 13 addressing modes, a closed set (R108). -/
inductive Mode where
  | implicit
  | accumulator
  | immediate
  | zeroPage
  | zeroPageX
  | zeroPageY
  | relative
  | absolute
  | absoluteX
  | absoluteY
  | indirect
  | indexedIndirect
  | indirectIndexed
  deriving DecidableEq, Repr

/-- The 56 mnemonics, a closed set (R107). -/
inductive Mnemonic where
  | adc | and | asl | bcc | bcs | beq | bit | bmi | bne | bpl | brk | bvc | bvs | clc
  | cld | cli | clv | cmp | cpx | cpy | dec | dex | dey | eor | inc | inx | iny | jmp
  | jsr | lda | ldx | ldy | lsr | nop | ora | pha | php | pla | plp | rol | ror | rti
  | rts | sbc | sec | sed | sei | sta | stx | sty | tax | tay | tsx | txa | txs | tya
  deriving DecidableEq, Repr

/-- The eight named bits of the status register SR, by the spec's names SR.C to SR.N (R36). -/
inductive Flag where
  /-- Carry. -/
  | c
  /-- Zero. -/
  | z
  /-- InterruptDisable. -/
  | i
  /-- Decimal. -/
  | d
  /-- Break. -/
  | b
  /-- The bit the source names both "always-on" and "unused": one bit, two names (R42). -/
  | u
  /-- Overflow. -/
  | v
  /-- Negative. -/
  | n
  deriving DecidableEq, Repr

/-- InstructionInfo, the decode table's numeric record of an opcode (R106). Only `byteSize` is read by a
rule of the machine; the other three are timing (R387). -/
structure InstrInfo where
  byteSize : Nat
  baseCycles : Nat
  extraCycleOnPageCross : Nat
  extraCycleOnBranchTaken : Nat
  deriving DecidableEq, Repr

end Sys2Proof
end

