-- ==== Sys2Proof/Syntax.lean ====
section
/-! DEFINITION. The instructions: one constructor per row of spec/opcode_table.json, that is one per legal opcode
byte (R105, R109). A row's mnemonic and addressing mode are its whole content: the spec reads an instruction's
operand bytes from the bus while it executes (R130, R160), so the byte string of an instruction in memory
(R100 to R103) is the separate `Code`. -/

namespace Sys2Proof

/-- The 151 entries of the decode table (R105, R110), named by mnemonic and, where a mnemonic has several
entries, addressing mode. -/
inductive Instr where
  | adcImmediate | adcZeroPage | adcZeroPageX | adcAbsolute | adcAbsoluteX | adcAbsoluteY | adcIndexedIndirect | adcIndirectIndexed
  | andImmediate | andZeroPage | andZeroPageX | andAbsolute | andAbsoluteX | andAbsoluteY | andIndexedIndirect | andIndirectIndexed
  | aslAccumulator | aslZeroPage | aslZeroPageX | aslAbsolute | aslAbsoluteX
  | bcc
  | bcs
  | beq
  | bitZeroPage | bitAbsolute
  | bmi
  | bne
  | bpl
  | brk
  | bvc
  | bvs
  | clc
  | cld
  | cli
  | clv
  | cmpImmediate | cmpZeroPage | cmpZeroPageX | cmpAbsolute | cmpAbsoluteX | cmpAbsoluteY | cmpIndexedIndirect | cmpIndirectIndexed
  | cpxImmediate | cpxZeroPage | cpxAbsolute
  | cpyImmediate | cpyZeroPage | cpyAbsolute
  | decZeroPage | decZeroPageX | decAbsolute | decAbsoluteX
  | dex
  | dey
  | eorImmediate | eorZeroPage | eorZeroPageX | eorAbsolute | eorAbsoluteX | eorAbsoluteY | eorIndexedIndirect | eorIndirectIndexed
  | incZeroPage | incZeroPageX | incAbsolute | incAbsoluteX
  | inx
  | iny
  | jmpAbsolute | jmpIndirect
  | jsr
  | ldaImmediate | ldaZeroPage | ldaZeroPageX | ldaAbsolute | ldaAbsoluteX | ldaAbsoluteY | ldaIndexedIndirect | ldaIndirectIndexed
  | ldxImmediate | ldxZeroPage | ldxZeroPageY | ldxAbsolute | ldxAbsoluteY
  | ldyImmediate | ldyZeroPage | ldyZeroPageX | ldyAbsolute | ldyAbsoluteX
  | lsrAccumulator | lsrZeroPage | lsrZeroPageX | lsrAbsolute | lsrAbsoluteX
  | nop
  | oraImmediate | oraZeroPage | oraZeroPageX | oraAbsolute | oraAbsoluteX | oraAbsoluteY | oraIndexedIndirect | oraIndirectIndexed
  | pha
  | php
  | pla
  | plp
  | rolAccumulator | rolZeroPage | rolZeroPageX | rolAbsolute | rolAbsoluteX
  | rorAccumulator | rorZeroPage | rorZeroPageX | rorAbsolute | rorAbsoluteX
  | rti
  | rts
  | sbcImmediate | sbcZeroPage | sbcZeroPageX | sbcAbsolute | sbcAbsoluteX | sbcAbsoluteY | sbcIndexedIndirect | sbcIndirectIndexed
  | sec
  | sed
  | sei
  | staZeroPage | staZeroPageX | staAbsolute | staAbsoluteX | staAbsoluteY | staIndexedIndirect | staIndirectIndexed
  | stxZeroPage | stxZeroPageY | stxAbsolute
  | styZeroPage | styZeroPageX | styAbsolute
  | tax
  | tay
  | tsx
  | txa
  | txs
  | tya
  deriving DecidableEq, Repr

/-- An instruction as it stands in memory: its decode-table entry, given by the opcode byte, and the operand
bytes that follow it, lowest address first (R100 to R103). -/
structure Code where
  instr : Instr
  operand : List Byte
  deriving DecidableEq, Repr

end Sys2Proof
end

