-- ==== Sys2Proof/Decode.lean ====
section
/-! DEFINITION. The opcode decoder (R105), the contents of its table (R104, R106, R110), and the encoder. The
decoder is written from the opcode map of R109 (row = high nibble, column = low nibble), the encoder from the
per-mnemonic table of R110, and the timing fields from opcode_table.json (R116). -/

namespace Sys2Proof

/-- Why bytes do not decode. All three are rejections by name; `illegalOpcode` is the one the machine meets
(R112) and turns into the fault IllegalOpcode. -/
inductive DecodeError where
  /-- No byte to decode. -/
  | noBytes
  /-- One of the 105 bytes with no row in the table (R112). -/
  | illegalOpcode (b : Byte)
  /-- Fewer operand bytes than the opcode byte asks for (R104). -/
  | truncated (i : Instr)
  deriving DecidableEq, Repr

/-- Row 0x of the opcode map (R109). -/
def opcodeRow0 : List (Option Instr) :=
  [some .brk, some .oraIndexedIndirect, none, none, none, some .oraZeroPage, some .aslZeroPage, none,
   some .php, some .oraImmediate, some .aslAccumulator, none, none, some .oraAbsolute,
   some .aslAbsolute, none]

/-- Row 1x of the opcode map (R109). -/
def opcodeRow1 : List (Option Instr) :=
  [some .bpl, some .oraIndirectIndexed, none, none, none, some .oraZeroPageX, some .aslZeroPageX,
   none, some .clc, some .oraAbsoluteY, none, none, none, some .oraAbsoluteX, some .aslAbsoluteX, none]

/-- Row 2x of the opcode map (R109). -/
def opcodeRow2 : List (Option Instr) :=
  [some .jsr, some .andIndexedIndirect, none, none, some .bitZeroPage, some .andZeroPage,
   some .rolZeroPage, none, some .plp, some .andImmediate, some .rolAccumulator, none,
   some .bitAbsolute, some .andAbsolute, some .rolAbsolute, none]

/-- Row 3x of the opcode map (R109). -/
def opcodeRow3 : List (Option Instr) :=
  [some .bmi, some .andIndirectIndexed, none, none, none, some .andZeroPageX, some .rolZeroPageX,
   none, some .sec, some .andAbsoluteY, none, none, none, some .andAbsoluteX, some .rolAbsoluteX, none]

/-- Row 4x of the opcode map (R109). -/
def opcodeRow4 : List (Option Instr) :=
  [some .rti, some .eorIndexedIndirect, none, none, none, some .eorZeroPage, some .lsrZeroPage, none,
   some .pha, some .eorImmediate, some .lsrAccumulator, none, some .jmpAbsolute, some .eorAbsolute,
   some .lsrAbsolute, none]

/-- Row 5x of the opcode map (R109). -/
def opcodeRow5 : List (Option Instr) :=
  [some .bvc, some .eorIndirectIndexed, none, none, none, some .eorZeroPageX, some .lsrZeroPageX,
   none, some .cli, some .eorAbsoluteY, none, none, none, some .eorAbsoluteX, some .lsrAbsoluteX, none]

/-- Row 6x of the opcode map (R109). -/
def opcodeRow6 : List (Option Instr) :=
  [some .rts, some .adcIndexedIndirect, none, none, none, some .adcZeroPage, some .rorZeroPage, none,
   some .pla, some .adcImmediate, some .rorAccumulator, none, some .jmpIndirect, some .adcAbsolute,
   some .rorAbsolute, none]

/-- Row 7x of the opcode map (R109). -/
def opcodeRow7 : List (Option Instr) :=
  [some .bvs, some .adcIndirectIndexed, none, none, none, some .adcZeroPageX, some .rorZeroPageX,
   none, some .sei, some .adcAbsoluteY, none, none, none, some .adcAbsoluteX, some .rorAbsoluteX, none]

/-- Row 8x of the opcode map (R109). -/
def opcodeRow8 : List (Option Instr) :=
  [none, some .staIndexedIndirect, none, none, some .styZeroPage, some .staZeroPage,
   some .stxZeroPage, none, some .dey, none, some .txa, none, some .styAbsolute, some .staAbsolute,
   some .stxAbsolute, none]

/-- Row 9x of the opcode map (R109). -/
def opcodeRow9 : List (Option Instr) :=
  [some .bcc, some .staIndirectIndexed, none, none, some .styZeroPageX, some .staZeroPageX,
   some .stxZeroPageY, none, some .tya, some .staAbsoluteY, some .txs, none, none, some .staAbsoluteX,
   none, none]

/-- Row Ax of the opcode map (R109). -/
def opcodeRowA : List (Option Instr) :=
  [some .ldyImmediate, some .ldaIndexedIndirect, some .ldxImmediate, none, some .ldyZeroPage,
   some .ldaZeroPage, some .ldxZeroPage, none, some .tay, some .ldaImmediate, some .tax, none,
   some .ldyAbsolute, some .ldaAbsolute, some .ldxAbsolute, none]

/-- Row Bx of the opcode map (R109). -/
def opcodeRowB : List (Option Instr) :=
  [some .bcs, some .ldaIndirectIndexed, none, none, some .ldyZeroPageX, some .ldaZeroPageX,
   some .ldxZeroPageY, none, some .clv, some .ldaAbsoluteY, some .tsx, none, some .ldyAbsoluteX,
   some .ldaAbsoluteX, some .ldxAbsoluteY, none]

/-- Row Cx of the opcode map (R109). -/
def opcodeRowC : List (Option Instr) :=
  [some .cpyImmediate, some .cmpIndexedIndirect, none, none, some .cpyZeroPage, some .cmpZeroPage,
   some .decZeroPage, none, some .iny, some .cmpImmediate, some .dex, none, some .cpyAbsolute,
   some .cmpAbsolute, some .decAbsolute, none]

/-- Row Dx of the opcode map (R109). -/
def opcodeRowD : List (Option Instr) :=
  [some .bne, some .cmpIndirectIndexed, none, none, none, some .cmpZeroPageX, some .decZeroPageX,
   none, some .cld, some .cmpAbsoluteY, none, none, none, some .cmpAbsoluteX, some .decAbsoluteX, none]

/-- Row Ex of the opcode map (R109). -/
def opcodeRowE : List (Option Instr) :=
  [some .cpxImmediate, some .sbcIndexedIndirect, none, none, some .cpxZeroPage, some .sbcZeroPage,
   some .incZeroPage, none, some .inx, some .sbcImmediate, some .nop, none, some .cpxAbsolute,
   some .sbcAbsolute, some .incAbsolute, none]

/-- Row Fx of the opcode map (R109). -/
def opcodeRowF : List (Option Instr) :=
  [some .beq, some .sbcIndirectIndexed, none, none, none, some .sbcZeroPageX, some .incZeroPageX,
   none, some .sed, some .sbcAbsoluteY, none, none, none, some .sbcAbsoluteX, some .incAbsoluteX, none]

/-- The opcode map, indexed by the high nibble and then by the low one (R109). -/
def opcodeMap : List (List (Option Instr)) :=
  [opcodeRow0, opcodeRow1, opcodeRow2, opcodeRow3, opcodeRow4, opcodeRow5, opcodeRow6, opcodeRow7] ++
  [opcodeRow8, opcodeRow9, opcodeRowA, opcodeRowB, opcodeRowC, opcodeRowD, opcodeRowE, opcodeRowF]

/-- The opcode decoder `decode(byte)`: total, and every byte outside the table is rejected by name (R105, R112). -/
def decode (b : Byte) : Except DecodeError Instr :=
  match ((opcodeMap.getD (b.toNat / 16) []).getD (b.toNat % 16) none) with
  | some i => .ok i
  | none => .error (.illegalOpcode b)

/-- The byte size of an addressing mode (R104). -/
def Mode.byteSize : Mode → Nat
  | .implicit | .accumulator => 1
  | .immediate | .zeroPage | .zeroPageX | .zeroPageY | .relative | .indexedIndirect | .indirectIndexed => 2
  | .absolute | .absoluteX | .absoluteY | .indirect => 3

/-- The mnemonic of a decode-table entry (R105, R110). -/
def Instr.mnemonic : Instr → Mnemonic
  | .adcImmediate | .adcZeroPage | .adcZeroPageX | .adcAbsolute | .adcAbsoluteX | .adcAbsoluteY | .adcIndexedIndirect | .adcIndirectIndexed => .adc
  | .andImmediate | .andZeroPage | .andZeroPageX | .andAbsolute | .andAbsoluteX | .andAbsoluteY | .andIndexedIndirect | .andIndirectIndexed => .and
  | .aslAccumulator | .aslZeroPage | .aslZeroPageX | .aslAbsolute | .aslAbsoluteX => .asl
  | .bcc => .bcc
  | .bcs => .bcs
  | .beq => .beq
  | .bitZeroPage | .bitAbsolute => .bit
  | .bmi => .bmi
  | .bne => .bne
  | .bpl => .bpl
  | .brk => .brk
  | .bvc => .bvc
  | .bvs => .bvs
  | .clc => .clc
  | .cld => .cld
  | .cli => .cli
  | .clv => .clv
  | .cmpImmediate | .cmpZeroPage | .cmpZeroPageX | .cmpAbsolute | .cmpAbsoluteX | .cmpAbsoluteY | .cmpIndexedIndirect | .cmpIndirectIndexed => .cmp
  | .cpxImmediate | .cpxZeroPage | .cpxAbsolute => .cpx
  | .cpyImmediate | .cpyZeroPage | .cpyAbsolute => .cpy
  | .decZeroPage | .decZeroPageX | .decAbsolute | .decAbsoluteX => .dec
  | .dex => .dex
  | .dey => .dey
  | .eorImmediate | .eorZeroPage | .eorZeroPageX | .eorAbsolute | .eorAbsoluteX | .eorAbsoluteY | .eorIndexedIndirect | .eorIndirectIndexed => .eor
  | .incZeroPage | .incZeroPageX | .incAbsolute | .incAbsoluteX => .inc
  | .inx => .inx
  | .iny => .iny
  | .jmpAbsolute | .jmpIndirect => .jmp
  | .jsr => .jsr
  | .ldaImmediate | .ldaZeroPage | .ldaZeroPageX | .ldaAbsolute | .ldaAbsoluteX | .ldaAbsoluteY | .ldaIndexedIndirect | .ldaIndirectIndexed => .lda
  | .ldxImmediate | .ldxZeroPage | .ldxZeroPageY | .ldxAbsolute | .ldxAbsoluteY => .ldx
  | .ldyImmediate | .ldyZeroPage | .ldyZeroPageX | .ldyAbsolute | .ldyAbsoluteX => .ldy
  | .lsrAccumulator | .lsrZeroPage | .lsrZeroPageX | .lsrAbsolute | .lsrAbsoluteX => .lsr
  | .nop => .nop
  | .oraImmediate | .oraZeroPage | .oraZeroPageX | .oraAbsolute | .oraAbsoluteX | .oraAbsoluteY | .oraIndexedIndirect | .oraIndirectIndexed => .ora
  | .pha => .pha
  | .php => .php
  | .pla => .pla
  | .plp => .plp
  | .rolAccumulator | .rolZeroPage | .rolZeroPageX | .rolAbsolute | .rolAbsoluteX => .rol
  | .rorAccumulator | .rorZeroPage | .rorZeroPageX | .rorAbsolute | .rorAbsoluteX => .ror
  | .rti => .rti
  | .rts => .rts
  | .sbcImmediate | .sbcZeroPage | .sbcZeroPageX | .sbcAbsolute | .sbcAbsoluteX | .sbcAbsoluteY | .sbcIndexedIndirect | .sbcIndirectIndexed => .sbc
  | .sec => .sec
  | .sed => .sed
  | .sei => .sei
  | .staZeroPage | .staZeroPageX | .staAbsolute | .staAbsoluteX | .staAbsoluteY | .staIndexedIndirect | .staIndirectIndexed => .sta
  | .stxZeroPage | .stxZeroPageY | .stxAbsolute => .stx
  | .styZeroPage | .styZeroPageX | .styAbsolute => .sty
  | .tax => .tax
  | .tay => .tay
  | .tsx => .tsx
  | .txa => .txa
  | .txs => .txs
  | .tya => .tya

/-- The addressing mode of a decode-table entry (R105, R110). -/
def Instr.mode : Instr → Mode
  | .brk | .clc | .cld | .cli | .clv | .dex
  | .dey | .inx | .iny | .nop | .pha | .php
  | .pla | .plp | .rti | .rts | .sec | .sed
  | .sei | .tax | .tay | .tsx | .txa | .txs
  | .tya => .implicit
  | .aslAccumulator | .lsrAccumulator | .rolAccumulator | .rorAccumulator => .accumulator
  | .adcImmediate | .andImmediate | .cmpImmediate | .cpxImmediate | .cpyImmediate | .eorImmediate
  | .ldaImmediate | .ldxImmediate | .ldyImmediate | .oraImmediate | .sbcImmediate => .immediate
  | .adcZeroPage | .andZeroPage | .aslZeroPage | .bitZeroPage | .cmpZeroPage | .cpxZeroPage
  | .cpyZeroPage | .decZeroPage | .eorZeroPage | .incZeroPage | .ldaZeroPage | .ldxZeroPage
  | .ldyZeroPage | .lsrZeroPage | .oraZeroPage | .rolZeroPage | .rorZeroPage | .sbcZeroPage
  | .staZeroPage | .stxZeroPage | .styZeroPage => .zeroPage
  | .adcZeroPageX | .andZeroPageX | .aslZeroPageX | .cmpZeroPageX | .decZeroPageX | .eorZeroPageX
  | .incZeroPageX | .ldaZeroPageX | .ldyZeroPageX | .lsrZeroPageX | .oraZeroPageX | .rolZeroPageX
  | .rorZeroPageX | .sbcZeroPageX | .staZeroPageX | .styZeroPageX => .zeroPageX
  | .ldxZeroPageY | .stxZeroPageY => .zeroPageY
  | .bcc | .bcs | .beq | .bmi | .bne | .bpl
  | .bvc | .bvs => .relative
  | .adcAbsolute | .andAbsolute | .aslAbsolute | .bitAbsolute | .cmpAbsolute | .cpxAbsolute
  | .cpyAbsolute | .decAbsolute | .eorAbsolute | .incAbsolute | .jmpAbsolute | .jsr
  | .ldaAbsolute | .ldxAbsolute | .ldyAbsolute | .lsrAbsolute | .oraAbsolute | .rolAbsolute
  | .rorAbsolute | .sbcAbsolute | .staAbsolute | .stxAbsolute | .styAbsolute => .absolute
  | .adcAbsoluteX | .andAbsoluteX | .aslAbsoluteX | .cmpAbsoluteX | .decAbsoluteX | .eorAbsoluteX
  | .incAbsoluteX | .ldaAbsoluteX | .ldyAbsoluteX | .lsrAbsoluteX | .oraAbsoluteX | .rolAbsoluteX
  | .rorAbsoluteX | .sbcAbsoluteX | .staAbsoluteX => .absoluteX
  | .adcAbsoluteY | .andAbsoluteY | .cmpAbsoluteY | .eorAbsoluteY | .ldaAbsoluteY | .ldxAbsoluteY
  | .oraAbsoluteY | .sbcAbsoluteY | .staAbsoluteY => .absoluteY
  | .jmpIndirect => .indirect
  | .adcIndexedIndirect | .andIndexedIndirect | .cmpIndexedIndirect | .eorIndexedIndirect | .ldaIndexedIndirect | .oraIndexedIndirect
  | .sbcIndexedIndirect | .staIndexedIndirect => .indexedIndirect
  | .adcIndirectIndexed | .andIndirectIndexed | .cmpIndirectIndexed | .eorIndirectIndexed | .ldaIndirectIndexed | .oraIndirectIndexed
  | .sbcIndirectIndexed | .staIndirectIndexed => .indirectIndexed

/-- The opcode byte of each (mnemonic, mode) pair, the table of R110. -/
def opcode : Instr → Byte
  | .adcImmediate => 0x69
  | .adcZeroPage => 0x65
  | .adcZeroPageX => 0x75
  | .adcAbsolute => 0x6D
  | .adcAbsoluteX => 0x7D
  | .adcAbsoluteY => 0x79
  | .adcIndexedIndirect => 0x61
  | .adcIndirectIndexed => 0x71
  | .andImmediate => 0x29
  | .andZeroPage => 0x25
  | .andZeroPageX => 0x35
  | .andAbsolute => 0x2D
  | .andAbsoluteX => 0x3D
  | .andAbsoluteY => 0x39
  | .andIndexedIndirect => 0x21
  | .andIndirectIndexed => 0x31
  | .aslAccumulator => 0x0A
  | .aslZeroPage => 0x06
  | .aslZeroPageX => 0x16
  | .aslAbsolute => 0x0E
  | .aslAbsoluteX => 0x1E
  | .bcc => 0x90
  | .bcs => 0xB0
  | .beq => 0xF0
  | .bitZeroPage => 0x24
  | .bitAbsolute => 0x2C
  | .bmi => 0x30
  | .bne => 0xD0
  | .bpl => 0x10
  | .brk => 0x00
  | .bvc => 0x50
  | .bvs => 0x70
  | .clc => 0x18
  | .cld => 0xD8
  | .cli => 0x58
  | .clv => 0xB8
  | .cmpImmediate => 0xC9
  | .cmpZeroPage => 0xC5
  | .cmpZeroPageX => 0xD5
  | .cmpAbsolute => 0xCD
  | .cmpAbsoluteX => 0xDD
  | .cmpAbsoluteY => 0xD9
  | .cmpIndexedIndirect => 0xC1
  | .cmpIndirectIndexed => 0xD1
  | .cpxImmediate => 0xE0
  | .cpxZeroPage => 0xE4
  | .cpxAbsolute => 0xEC
  | .cpyImmediate => 0xC0
  | .cpyZeroPage => 0xC4
  | .cpyAbsolute => 0xCC
  | .decZeroPage => 0xC6
  | .decZeroPageX => 0xD6
  | .decAbsolute => 0xCE
  | .decAbsoluteX => 0xDE
  | .dex => 0xCA
  | .dey => 0x88
  | .eorImmediate => 0x49
  | .eorZeroPage => 0x45
  | .eorZeroPageX => 0x55
  | .eorAbsolute => 0x4D
  | .eorAbsoluteX => 0x5D
  | .eorAbsoluteY => 0x59
  | .eorIndexedIndirect => 0x41
  | .eorIndirectIndexed => 0x51
  | .incZeroPage => 0xE6
  | .incZeroPageX => 0xF6
  | .incAbsolute => 0xEE
  | .incAbsoluteX => 0xFE
  | .inx => 0xE8
  | .iny => 0xC8
  | .jmpAbsolute => 0x4C
  | .jmpIndirect => 0x6C
  | .jsr => 0x20
  | .ldaImmediate => 0xA9
  | .ldaZeroPage => 0xA5
  | .ldaZeroPageX => 0xB5
  | .ldaAbsolute => 0xAD
  | .ldaAbsoluteX => 0xBD
  | .ldaAbsoluteY => 0xB9
  | .ldaIndexedIndirect => 0xA1
  | .ldaIndirectIndexed => 0xB1
  | .ldxImmediate => 0xA2
  | .ldxZeroPage => 0xA6
  | .ldxZeroPageY => 0xB6
  | .ldxAbsolute => 0xAE
  | .ldxAbsoluteY => 0xBE
  | .ldyImmediate => 0xA0
  | .ldyZeroPage => 0xA4
  | .ldyZeroPageX => 0xB4
  | .ldyAbsolute => 0xAC
  | .ldyAbsoluteX => 0xBC
  | .lsrAccumulator => 0x4A
  | .lsrZeroPage => 0x46
  | .lsrZeroPageX => 0x56
  | .lsrAbsolute => 0x4E
  | .lsrAbsoluteX => 0x5E
  | .nop => 0xEA
  | .oraImmediate => 0x09
  | .oraZeroPage => 0x05
  | .oraZeroPageX => 0x15
  | .oraAbsolute => 0x0D
  | .oraAbsoluteX => 0x1D
  | .oraAbsoluteY => 0x19
  | .oraIndexedIndirect => 0x01
  | .oraIndirectIndexed => 0x11
  | .pha => 0x48
  | .php => 0x08
  | .pla => 0x68
  | .plp => 0x28
  | .rolAccumulator => 0x2A
  | .rolZeroPage => 0x26
  | .rolZeroPageX => 0x36
  | .rolAbsolute => 0x2E
  | .rolAbsoluteX => 0x3E
  | .rorAccumulator => 0x6A
  | .rorZeroPage => 0x66
  | .rorZeroPageX => 0x76
  | .rorAbsolute => 0x6E
  | .rorAbsoluteX => 0x7E
  | .rti => 0x40
  | .rts => 0x60
  | .sbcImmediate => 0xE9
  | .sbcZeroPage => 0xE5
  | .sbcZeroPageX => 0xF5
  | .sbcAbsolute => 0xED
  | .sbcAbsoluteX => 0xFD
  | .sbcAbsoluteY => 0xF9
  | .sbcIndexedIndirect => 0xE1
  | .sbcIndirectIndexed => 0xF1
  | .sec => 0x38
  | .sed => 0xF8
  | .sei => 0x78
  | .staZeroPage => 0x85
  | .staZeroPageX => 0x95
  | .staAbsolute => 0x8D
  | .staAbsoluteX => 0x9D
  | .staAbsoluteY => 0x99
  | .staIndexedIndirect => 0x81
  | .staIndirectIndexed => 0x91
  | .stxZeroPage => 0x86
  | .stxZeroPageY => 0x96
  | .stxAbsolute => 0x8E
  | .styZeroPage => 0x84
  | .styZeroPageX => 0x94
  | .styAbsolute => 0x8C
  | .tax => 0xAA
  | .tay => 0xA8
  | .tsx => 0xBA
  | .txa => 0x8A
  | .txs => 0x9A
  | .tya => 0x98

/-- InstructionInfo of each entry (R106): byteSize, baseCycles, extraCycleOnPageCross, extraCycleOnBranchTaken, as
opcode_table.json gives them. The timing values are non-normative (R387, D22; log 8): no meaning reads them. -/
def Instr.info : Instr → InstrInfo
  | .aslAccumulator | .clc | .cld | .cli | .clv | .dex
  | .dey | .inx | .iny | .lsrAccumulator | .nop | .rolAccumulator
  | .rorAccumulator | .sec | .sed | .sei | .tax | .tay
  | .tsx | .txa | .txs | .tya => ⟨1, 2, 0, 0⟩
  | .pha | .php => ⟨1, 3, 0, 0⟩
  | .pla | .plp => ⟨1, 4, 0, 0⟩
  | .rti | .rts => ⟨1, 6, 0, 0⟩
  | .brk => ⟨1, 7, 0, 0⟩
  | .adcImmediate | .andImmediate | .cmpImmediate | .cpxImmediate | .cpyImmediate | .eorImmediate
  | .ldaImmediate | .ldxImmediate | .ldyImmediate | .oraImmediate | .sbcImmediate => ⟨2, 2, 0, 0⟩
  | .bcc | .bcs | .beq | .bmi | .bne | .bpl
  | .bvc | .bvs => ⟨2, 2, 1, 1⟩
  | .adcZeroPage | .andZeroPage | .bitZeroPage | .cmpZeroPage | .cpxZeroPage | .cpyZeroPage
  | .eorZeroPage | .ldaZeroPage | .ldxZeroPage | .ldyZeroPage | .oraZeroPage | .sbcZeroPage
  | .staZeroPage | .stxZeroPage | .styZeroPage => ⟨2, 3, 0, 0⟩
  | .adcZeroPageX | .andZeroPageX | .cmpZeroPageX | .eorZeroPageX | .ldaZeroPageX | .ldxZeroPageY
  | .ldyZeroPageX | .oraZeroPageX | .sbcZeroPageX | .staZeroPageX | .stxZeroPageY | .styZeroPageX => ⟨2, 4, 0, 0⟩
  | .aslZeroPage | .decZeroPage | .incZeroPage | .lsrZeroPage | .rolZeroPage | .rorZeroPage => ⟨2, 5, 0, 0⟩
  | .adcIndirectIndexed | .andIndirectIndexed | .cmpIndirectIndexed | .eorIndirectIndexed | .ldaIndirectIndexed | .oraIndirectIndexed
  | .sbcIndirectIndexed => ⟨2, 5, 1, 0⟩
  | .adcIndexedIndirect | .andIndexedIndirect | .aslZeroPageX | .cmpIndexedIndirect | .decZeroPageX | .eorIndexedIndirect
  | .incZeroPageX | .ldaIndexedIndirect | .lsrZeroPageX | .oraIndexedIndirect | .rolZeroPageX | .rorZeroPageX
  | .sbcIndexedIndirect | .staIndexedIndirect | .staIndirectIndexed => ⟨2, 6, 0, 0⟩
  | .jmpAbsolute => ⟨3, 3, 0, 0⟩
  | .adcAbsolute | .andAbsolute | .bitAbsolute | .cmpAbsolute | .cpxAbsolute | .cpyAbsolute
  | .eorAbsolute | .ldaAbsolute | .ldxAbsolute | .ldyAbsolute | .oraAbsolute | .sbcAbsolute
  | .staAbsolute | .stxAbsolute | .styAbsolute => ⟨3, 4, 0, 0⟩
  | .adcAbsoluteX | .adcAbsoluteY | .andAbsoluteX | .andAbsoluteY | .cmpAbsoluteX | .cmpAbsoluteY
  | .eorAbsoluteX | .eorAbsoluteY | .ldaAbsoluteX | .ldaAbsoluteY | .ldxAbsoluteY | .ldyAbsoluteX
  | .oraAbsoluteX | .oraAbsoluteY | .sbcAbsoluteX | .sbcAbsoluteY => ⟨3, 4, 1, 0⟩
  | .jmpIndirect | .staAbsoluteX | .staAbsoluteY => ⟨3, 5, 0, 0⟩
  | .aslAbsolute | .decAbsolute | .incAbsolute | .jsr | .lsrAbsolute | .rolAbsolute
  | .rorAbsolute => ⟨3, 6, 0, 0⟩
  | .aslAbsoluteX | .decAbsoluteX | .incAbsoluteX | .lsrAbsoluteX | .rolAbsoluteX | .rorAbsoluteX => ⟨3, 7, 0, 0⟩

/-- How many operand bytes follow the opcode byte (R104). -/
def Instr.operandSize (i : Instr) : Nat := i.mode.byteSize - 1

/-- Read one whole instruction from the front of a byte string: the opcode byte, then as many operand bytes as
the table gives it (R100, R104). Answers the instruction and the bytes after it. -/
def decodeBytes : List Byte → Except DecodeError (Code × List Byte)
  | [] => .error .noBytes
  | b :: rest =>
    match decode b with
    | .error e => .error e
    | .ok i =>
      if rest.length < i.operandSize then .error (.truncated i)
      else .ok (⟨i, rest.take i.operandSize⟩, rest.drop i.operandSize)

/-- The bytes of an instruction, lowest address first (R101 to R103). -/
def encode (c : Code) : List Byte := opcode c.instr :: c.operand

/-- The first three bytes of an instruction whose bits are `w`, numbered as spec/opcode_table.json numbers them
(byte 0 is bits 7..0), every bit from `nbits` on being 0. No instruction is longer than three bytes (R100). -/
def tableBytes (nbits w : Nat) : List Byte :=
  let v := w % 2 ^ nbits
  [BitVec.ofNat 8 v, BitVec.ofNat 8 (v / 0x100), BitVec.ofNat 8 (v / 0x10000)]

/-- The instruction this decoder reads from an instruction word of the opcode table. -/
def decodeTableWord (nbits w : Nat) : Option Instr :=
  match decodeBytes (tableBytes nbits w) with
  | .ok (c, _) => some c.instr
  | .error _ => none

end Sys2Proof
end

