-- ==== Sys2Proof/Machine/Bits.lean ====
section
/-! DEFINITION. The bit-field, extension and byte-order helpers of the spec's notation (R16, R17). -/

namespace Sys2Proof.Machine

/-- `zext_16(b)` (R17). -/
def zext (b : Byte) : Word := b.setWidth 16

/-- `sext_16(b)` (R17). -/
def sext (b : Byte) : Word := b.signExtend 16

/-- `(hi << 8) | lo`, the little-endian pairing of two bytes (R16, R69). -/
def wordOf (hi lo : Byte) : Word := (zext hi <<< 8) ||| zext lo

/-- Bits 7..0 of a word. -/
def lowByte (w : Word) : Byte := w.extractLsb' 0 8

/-- Bits 15..8 of a word. -/
def highByte (w : Word) : Byte := w.extractLsb' 8 8

/-- The bit of SR each flag is (R36, D3). -/
def flagBit : Flag → Nat
  | .c => 0
  | .z => 1
  | .i => 2
  | .d => 3
  | .b => 4
  | .u => 5
  | .v => 6
  | .n => 7

/-- The byte with only that flag's bit set. -/
def flagMask (f : Flag) : Byte := 1#8 <<< flagBit f

/-- A flag of a status byte (R18). -/
def readFlag (sr : Byte) (f : Flag) : Bool := sr.getLsbD (flagBit f)

/-- The status byte with one flag written and the other seven bits unchanged (R18). -/
def writeFlag (sr : Byte) (f : Flag) (v : Bool) : Byte :=
  if v then sr ||| flagMask f else sr &&& ~~~(flagMask f)

/-- The byte PHP pushes: SR with B and U set (R281). -/
def pushedStatus (sr : Byte) : Byte := sr ||| 0x30

/-- The status PLP and RTI load from a pulled byte: B cleared, U set (R263, R283). -/
def pulledStatus (p : Byte) : Byte := (p &&& 0xEF) ||| 0x20

end Sys2Proof.Machine
end

