-- ==== Sys2Proof/Config.lean ====
section
/-! DEFINITION. What an implementation or a launch fixes: the addresses the core uses (R13, R14, R61, R76),
the host's window (R77) and the spec's default of the launch parameter SP_RESET (R12). The spec leaves no
value open after an instruction, so there is no free value here. -/

namespace Sys2Proof.Config

/-- The spec's default of the parameter SP_RESET (R12, D2). DESIGN CHOICE (log 2), unsafe: `State.reset`
takes this value, while `Machine.launch` takes any. -/
def spReset : Byte := 0xFD

/-- What a cell of RAM or of the PRG image that `mem` does not list reads as. DESIGN CHOICE (logs 3 and 4),
unsafe: the spec leaves RAM_INIT (D30) and the image to the launch. -/
def unlisted : Byte := 0x00

/-- The stack page: the stack byte SP designates is at `0x0100 + SP` (R13, R34). -/
def stackBase : Word := 0x0100

/-- The address of the reset vector's low byte (R14). -/
def resetVector : Word := 0xFFFC

/-- Where the host writes its random byte (R77). -/
def randomCell : Nat := 0x00FE

/-- Where the host writes the last-pressed direction code (R77). -/
def directionCell : Nat := 0x00FF

/-- The first cell of the frame buffer the host polls (R77). -/
def frameBase : Nat := 0x0200

/-- The frame buffer's size, 32 × 32 bytes (R77). -/
def frameSize : Nat := 0x0400

/-- RAM's size in bytes (R10). -/
def ramSize : Nat := 0x0800

/-- Where the PRG image begins, both as an address (R61) and as a cell of `mem`. -/
def romBase : Nat := 0x8000

end Sys2Proof.Config
end

