-- ==== Sys2Proof/Machine/State.lean ====
section
/-! DEFINITION. The machine's state as plain data, the reasons a step stops, and the state after reset. -/

namespace Sys2Proof.Machine

/-- The two lengths a PRG image may have (R11). -/
inductive PrgSize where
  /-- `PRG_SIZE = 0x4000`: the image is seen twice in the ROM window (R65). -/
  | k16
  /-- `PRG_SIZE = 0x8000`. -/
  | k32
  deriving DecidableEq, Repr

/-- Memory: (cell, byte) pairs, cells strictly rising, no byte equal to what an unlisted cell reads as. A cell
below 0x0800 is a byte of RAM; cell 0x8000 + k is byte k of the PRG image (R48, R61). -/
abbrev Memory := List Host.Cell

/-- What a bus access to the reserved window would have done (R342). -/
inductive AccessKind where
  | read
  | write (v : Byte)
  deriving DecidableEq, Repr

/-- The fault reasons, the closed set of R348. Every fault ends the run: nothing is saved and no handler runs (R340, R349). -/
inductive Fault where
  /-- Raised by the instruction fetch when the opcode byte is one of the 105 illegal bytes; it records the byte and
  its PC (R341). Safe: the source makes it fatal, and a real part that runs the byte is only refused a meaning (I2). -/
  | illegalOpcode (opcode : Byte) (pc : Word)
  /-- Raised by any bus access to 0x2000–0x3FFF (R342). Safe: the source wants a loud failure there (I1). -/
  | reservedWindow (addr : Word) (kind : AccessKind)
  /-- Raised by a bus write to 0x8000–0xFFFF (R343). Safe: the source makes it fatal (I4). -/
  | romWrite (addr : Word) (v : Byte)
  /-- Raised by the resolver asked for mode Implicit or Accumulator (R344). No step reaches it (R135). Safe. -/
  | resolverMisuse (mode : Mode)
  deriving DecidableEq, Repr

/-- Why the model gives no meaning. -/
inductive Refusal where
  /-- Answered by exec's arm of an instruction that has no meaning yet; no arm is in that case. Safe. -/
  | notModelled (mnemonic : String)
  /-- Answered by `step` on a Halted state (SR.B = 1): such a state is final and has no step (R47). Safe. -/
  | halted
  deriving DecidableEq, Repr

/-- The non-fatal events of the diagnostic log (R346). -/
inductive Diagnostic where
  | unmappedRead (addr : Word)
  | unmappedWrite (addr : Word) (v : Byte)
  deriving DecidableEq, Repr

/-- What the host does at one callback: for each of RAM[0x00FE] and RAM[0x00FF], write a byte or leave it (R361). -/
structure HostMove where
  random : Option Byte
  direction : Option Byte
  deriving DecidableEq, Repr

/-- The state. The run state Running or Halted is read off SR.B; Faulted is the step's outcome `fault` (R47, log 5). -/
structure State where
  /-- The accumulator (R31). -/
  a : Byte
  /-- Index register X (R32). -/
  x : Byte
  /-- Index register Y (R33). -/
  y : Byte
  /-- The stack pointer, an index into 0x0100–0x01FF (R34). -/
  sp : Byte
  /-- The program counter: the opcode byte's address while an instruction executes (R35). -/
  pc : Word
  /-- The status register, held whole; its bits are named by `Flag` (R36). -/
  sr : Byte
  /-- The length of the loaded PRG image (R11). -/
  prgSize : PrgSize
  /-- RAM and the PRG image (R48). -/
  mem : Memory
  /-- The diagnostic log, newest event first. Not architectural: no instruction reads it (R49, log 6). -/
  diag : List Diagnostic
  /-- THE MODEL'S OWN FIELD, not the spec's: the moves the host will make at the next callbacks, first move first; when
  it is empty the host leaves both bytes (R361, log 1). -/
  hostMoves : List HostMove
  deriving DecidableEq, Repr

/-- The state after reset (R50, R380): A, X, Y cleared, SR = 0x24 (I and U set). SP is SP_RESET's default (log 2). RAM
and the 32 KiB PRG image list nothing (logs 3 and 4), so the vector read at 0xFFFC gives PC = 0x0000. -/
def State.reset : State where
  a := 0x00
  x := 0x00
  y := 0x00
  sp := Config.spReset
  pc := 0x0000
  sr := 0x24
  prgSize := .k32
  mem := []
  diag := []
  hostMoves := []

end Sys2Proof.Machine
end

