-- ==== Sys2Proof/Machine/Ops.lean ====
section
/-! DEFINITION. The named operations over registers and memory: the memory list, the bus arbiter (R61 to R67), the
stack primitives (R144 to R146), ending an instruction (R131), raising a fault (R20, R349), the return from
interrupt (R263), instruction fetch (R72, R130) and the host's callback (R361). -/

namespace Sys2Proof.Machine

/-! ### Registers -/

/-- `A <- v`. -/
def State.setA (s : State) (v : Byte) : State := { s with a := v }

/-- `X <- v`. -/
def State.setX (s : State) (v : Byte) : State := { s with x := v }

/-- `Y <- v`. -/
def State.setY (s : State) (v : Byte) : State := { s with y := v }

/-- `SP <- v`. -/
def State.setSp (s : State) (v : Byte) : State := { s with sp := v }

/-- `PC <- v`. -/
def State.setPc (s : State) (v : Word) : State := { s with pc := v }

/-- `SR <- v`. -/
def State.setSr (s : State) (v : Byte) : State := { s with sr := v }

/-- The state with another memory. -/
def State.setMem (s : State) (m : Memory) : State := { s with mem := m }

/-- `diag(event)` (R20): record a non-fatal event. -/
def State.note (s : State) (d : Diagnostic) : State := { s with diag := d :: s.diag }

/-- The state with another list of host moves to come. -/
def State.setHostMoves (s : State) (l : List HostMove) : State := { s with hostMoves := l }

/-- One flag of SR (R18). -/
def State.flag (s : State) (f : Flag) : Bool := readFlag s.sr f

/-- Write one flag of SR and no other bit (R18). -/
def State.setFlag (s : State) (f : Flag) (v : Bool) : State := s.setSr (writeFlag s.sr f v)

/-- The `halted` output: SR.B (R7, R41, R47). -/
def State.halted (s : State) : Bool := s.flag .b

/-! ### The memory list -/

/-- The byte in a cell; a cell that is not listed holds `Config.unlisted`. -/
def Memory.read : Memory → Nat → Byte
  | [], _ => Config.unlisted
  | (k, v) :: m, c => if k = c then v else Memory.read m c

/-- Remove a cell from the list. -/
def Memory.erase (m : Memory) (c : Nat) : Memory := m.filter fun e => e.1 != c

/-- Put a pair before the first cell above it. -/
def Memory.insert : Memory → Nat → Byte → Memory
  | [], c, v => [(c, v)]
  | (k, w) :: m, c, v => if c < k then (c, v) :: (k, w) :: m else (k, w) :: Memory.insert m c v

/-- Write one cell: its old entry goes, and a new one is listed in order unless the byte is what an unlisted cell
reads as. -/
def Memory.write (m : Memory) (c : Nat) (v : Byte) : Memory :=
  if v = Config.unlisted then Memory.erase m c else Memory.insert (Memory.erase m c) c v

/-- The cells strictly rise. -/
abbrev Memory.Rising (m : Memory) : Prop := m.Pairwise fun c d => c.1 < d.1

/-- The canonical form: cells strictly rising, and no listed byte equal to what an unlisted cell reads as. -/
abbrev Memory.wf (m : Memory) : Prop := Memory.Rising m ∧ ∀ c ∈ m, c.2 ≠ Config.unlisted

/-- The memory holding a byte string from a cell on, and nothing else. -/
def Memory.ofBytes : Nat → List Byte → Memory
  | _, [] => []
  | c, v :: l => if v = Config.unlisted then Memory.ofBytes (c + 1) l else (c, v) :: Memory.ofBytes (c + 1) l

/-- Write a byte string from a cell on, in order. -/
def Memory.writeBytes : Memory → Nat → List Byte → Memory
  | m, _, [] => m
  | m, c, v :: l => Memory.writeBytes (Memory.write m c v) (c + 1) l

/-! ### The bus arbiter -/

/-- The four regions of the address space (R61); `ram` and `rom` carry the cell of `mem` an address names. -/
inductive Region where
  | ram (cell : Nat)
  | reserved
  | unmapped
  | rom (cell : Nat)
  deriving DecidableEq, Repr

/-- `romOffset(addr)` (R65). -/
def romOffset (size : PrgSize) (addr : Word) : Nat :=
  match size with
  | .k32 => addr.toNat - 0x8000
  | .k16 => (addr.toNat - 0x8000) % 0x4000

/-- The arbiter's decoding of an address (R61): RAM is mirrored four times by the mask 0x07FF (R64). -/
def region (size : PrgSize) (addr : Word) : Region :=
  if addr.toNat ≤ 0x1FFF then .ram (addr &&& 0x07FF).toNat
  else if addr.toNat ≤ 0x3FFF then .reserved
  else if addr.toNat ≤ 0x7FFF then .unmapped
  else .rom (Config.romBase + romOffset size addr)

/-- The byte a read of an address would give, with no side effect; none in the reserved window (R62). For claims
and for the host's polls: the machine itself reads through `busRead`. -/
def State.peek (s : State) (addr : Word) : Option Byte :=
  match region s.prgSize addr with
  | .ram c => some (Memory.read s.mem c)
  | .reserved => none
  | .unmapped => some 0x00
  | .rom c => some (Memory.read s.mem c)

/-- `BusRead(addr)` (R62). -/
def busRead (addr : Word) (s : State) : Except Fault (Byte × State) :=
  match region s.prgSize addr with
  | .ram c => .ok (Memory.read s.mem c, s)
  | .reserved => .error (.reservedWindow addr .read)
  | .unmapped => .ok (0x00, s.note (.unmappedRead addr))
  | .rom c => .ok (Memory.read s.mem c, s)

/-- `BusWrite(addr, v)` (R63). -/
def busWrite (addr : Word) (v : Byte) (s : State) : Except Fault State :=
  match region s.prgSize addr with
  | .ram c => .ok (s.setMem (Memory.write s.mem c v))
  | .reserved => .error (.reservedWindow addr (.write v))
  | .unmapped => .ok (s.note (.unmappedWrite addr v))
  | .rom _ => .error (.romWrite addr v)

/-- `MemRead(addr, 2)`: two byte reads, low byte first, the high byte's address wrapping mod 2^16 (R66). -/
def busRead16 (addr : Word) (s : State) : Except Fault (Word × State) := do
  let (lo, s) ← busRead addr s
  let (hi, s) ← busRead (addr + 1) s
  .ok (wordOf hi lo, s)

/-- `MemWrite16(addr, v)`, the host's 16-bit write at launch; no instruction uses it (R67). When in a launch the host
may make it, and what a fault of it means there, the spec leaves open. DESIGN CHOICE (log 14), unsafe: `launch` makes no
such write. -/
def busWrite16 (addr : Word) (v : Word) (s : State) : Except Fault State := do
  let s ← busWrite addr (lowByte v) s
  busWrite (addr + 1) (highByte v) s

/-! ### The stack -/

/-- The address of the stack byte a stack-pointer value designates (R34). -/
def stackAddr (sp : Byte) : Word := Config.stackBase + zext sp

/-- `Push(v)`: write, then decrement SP (R144). -/
def push (v : Byte) (s : State) : Except Fault State := do
  let s ← busWrite (stackAddr s.sp) v s
  .ok (s.setSp (s.sp - 1))

/-- `Pull()`: increment SP, then read (R145). -/
def pull (s : State) : Except Fault (Byte × State) :=
  let s := s.setSp (s.sp + 1)
  busRead (stackAddr s.sp) s

/-- `Pull16()`: two pulls, low byte first (R146). -/
def pull16 (s : State) : Except Fault (Word × State) := do
  let (lo, s) ← pull s
  let (hi, s) ← pull s
  .ok (wordOf hi lo, s)

/-! ### Ending an instruction, raising a fault, returning from an interrupt -/

/-- What a step or an instruction answers. -/
abbrev Result := Host.Outcome State Fault Refusal

/-- `raise Fault(reason)` (R20, R340, R349): the machine stops; nothing is saved, pushed or masked, no vector is read. -/
def raiseFault (f : Fault) : Result := .fault f

/-- End an instruction that writes PC itself (`pcWritten = true`, R131): no auto-advance. -/
def complete (r : Except Fault State) : Result :=
  match r with
  | .error f => raiseFault f
  | .ok s => .next s

/-- The auto-advance: PC plus the mode's byte size, mod 2^16 (R131). -/
def State.advance (s : State) (mode : Mode) : State := s.setPc (s.pc + BitVec.ofNat 16 mode.byteSize)

/-- End an instruction with `pcWritten = false`: the auto-advance applies (R131). -/
def retire (mode : Mode) (r : Except Fault State) : Result :=
  match r with
  | .error f => raiseFault f
  | .ok s => .next (s.advance mode)

/-- The return from interrupt: pull SR (B cleared, U set), then PC, with no + 1 (R263, R353). -/
def returnFromInterrupt (s : State) : Except Fault State := do
  let (p, s) ← pull s
  let s := s.setSr (pulledStatus p)
  let (target, s) ← pull16 s
  .ok (s.setPc target)

/-! ### Fetch and the host's callback -/

/-- The opcode fetch and decode that open a step (R72, R105, R130); an illegal byte raises IllegalOpcode with
PC still the opcode's address (R341). -/
def fetch (s : State) : Except Fault (Instr × State) := do
  let (op, s) ← busRead s.pc s
  match decode op with
  | .ok i => .ok (i, s)
  | .error _ => .error (.illegalOpcode op s.pc)

/-- Write a RAM cell if the host chose a byte for it. -/
def hostWrite (cell : Nat) (v : Option Byte) (s : State) : State :=
  match v with
  | none => s
  | some b => s.setMem (Memory.write s.mem cell b)

/-- The host's callback, once before each step: its next move writes or leaves RAM[0x00FE] and RAM[0x00FF] (R361, log 1). -/
def callback (s : State) : State :=
  match s.hostMoves with
  | [] => s
  | mv :: rest =>
    hostWrite Config.directionCell mv.direction (hostWrite Config.randomCell mv.random (s.setHostMoves rest))

/-! ### Placing an instruction for the next step -/

/-- An address whose byte the next step is sure to find as placed: stored memory, and no cell the callback may write. -/
def State.holdsCode (s : State) (addr : Word) : Bool :=
  match region s.prgSize addr with
  | .ram c => c != Config.randomCell && c != Config.directionCell
  | .rom _ => true
  | .reserved => false
  | .unmapped => false

/-- Store a byte where a fetch of that address reads it, in RAM or in the PRG image; elsewhere nothing. This is the
loading of a program from outside (log 9), not a bus write. -/
def State.place (s : State) (addr : Word) (v : Byte) : State :=
  match region s.prgSize addr with
  | .ram c => s.setMem (Memory.write s.mem c v)
  | .rom c => s.setMem (Memory.write s.mem c v)
  | .reserved => s
  | .unmapped => s

/-- Store bytes at successive addresses, mod 2^16. -/
def State.placeBytes : State → Word → List Byte → State
  | s, _, [] => s
  | s, addr, v :: l => State.placeBytes (s.place addr v) (addr + 1) l

/-- Where the next instruction can be placed: at PC if its three bytes are stored memory, else at 0x0000. -/
def State.codeAddr (s : State) : Word :=
  if s.holdsCode s.pc && s.holdsCode (s.pc + 1) && s.holdsCode (s.pc + 2) then s.pc else 0x0000

/-- The state with an instruction's bytes placed for the next step: SR.B cleared (a Halted state takes no step, R47)
and PC at the place the bytes are stored. -/
def State.placeCode (s : State) (code : List Byte) : State :=
  let s := (s.setFlag .b false).setPc s.codeAddr
  s.placeBytes s.pc code

end Sys2Proof.Machine
end

