-- ==== Sys2Proof/Machine/Flags.lean ====
section
/-! DEFINITION. The ALU and every flag computation of the spec (R140 to R143, R147, R148). Arithmetic is computed
exactly on naturals and then narrowed, so carry is a comparison with the exact sum (R141). -/

namespace Sys2Proof.Machine

/-- `ZN(v)`: Z is `v = 0`, N is bit 7 of v (R140). -/
def setZN (v : Byte) (s : State) : State := (s.setFlag .z (v == 0)).setFlag .n (v.getLsbD 7)

/-- The adder's three outputs (R141). -/
structure AddResult where
  sum : Byte
  carry : Bool
  overflow : Bool
  deriving DecidableEq, Repr

/-- `add8(a, m, cin)`: 9-bit addition, carry when the exact sum exceeds 255, overflow by the source's formula (R141). -/
def add8 (a m : Byte) (cin : Bool) : AddResult :=
  let exact := a.toNat + m.toNat + cin.toNat
  let r := BitVec.ofNat 8 exact
  ⟨r, decide (exact > 255), ((m ^^^ r) &&& (r ^^^ a) &&& 0x80) != 0⟩

/-- `sub8(a, m, cin)`: the same adder with the operand complemented (R141). -/
def sub8 (a m : Byte) (cin : Bool) : AddResult := add8 a (~~~m) cin

/-- `asl8(v)` (R143). -/
def asl8 (v : Byte) : Byte := v <<< 1

/-- `lsr8(v)` (R143). -/
def lsr8 (v : Byte) : Byte := v >>> 1

/-- A carry as the bit a rotate feeds in (R143). -/
def carryBit (c : Bool) : Byte := BitVec.ofNat 8 c.toNat

/-- `rol8(v, c)` (R143). -/
def rol8 (v : Byte) (c : Bool) : Byte := (v <<< 1) ||| carryBit c

/-- `ror8(v, c)` (R143). -/
def ror8 (v : Byte) (c : Bool) : Byte := (v >>> 1) ||| (carryBit c <<< 7)

/-- `inc8(v)` (R148). -/
def inc8 (v : Byte) : Byte := v + 1

/-- `dec8(v)` (R148). -/
def dec8 (v : Byte) : Byte := v - 1

/-- `cmp8(r, m)`: C is `r ≥ m` unsigned, Z and N from the wrapped difference (R147). -/
def compare8 (r m : Byte) (s : State) : State := setZN (r - m) (s.setFlag .c (decide (m.toNat ≤ r.toNat)))

/-- Write an adder result to A, C, V, Z and N (R190, R191). -/
def writeSum (r : AddResult) (s : State) : State :=
  setZN r.sum (((s.setA r.sum).setFlag .c r.carry).setFlag .v r.overflow)

/-- Write a result to A and apply ZN. -/
def loadA (v : Byte) (s : State) : State := setZN v (s.setA v)

/-- Write a result to X and apply ZN. -/
def loadX (v : Byte) (s : State) : State := setZN v (s.setX v)

/-- Write a result to Y and apply ZN. -/
def loadY (v : Byte) (s : State) : State := setZN v (s.setY v)

/-- The flags of BIT: Z from `A & m`, N and V from bits 7 and 6 of m (R195). -/
def bitFlags (m : Byte) (s : State) : State :=
  ((s.setFlag .z ((s.a &&& m) == 0)).setFlag .n (m.getLsbD 7)).setFlag .v (m.getLsbD 6)

/-- The flags of a shift or rotate: C is the bit shifted out, Z and N from the result (R143, R210 to R213). -/
def shiftFlags (out : Bool) (r : Byte) (s : State) : State := setZN r (s.setFlag .c out)

end Sys2Proof.Machine
end

