-- ==== Sys2Proof/Machine/Operands.lean ====
section
/-! DEFINITION. The addressing-mode resolver (R160 to R174), operand access (R134), and the shapes of operand-using
instructions. Every resolver read uses the PC of the opcode byte, before any advance (R161). -/

namespace Sys2Proof.Machine

/-- Read a 16-bit pointer whose two bytes both lie in the zero page: the high byte's address wraps mod 256
(R173, R174). -/
def readZeroPagePointer (z : Byte) (s : State) : Except Fault (Word × State) := do
  let (lo, s) ← busRead (zext z) s
  let (hi, s) ← busRead (zext (z + 1)) s
  .ok (wordOf hi lo, s)

/-- `resolve(mode)`, the 13-way resolver (R160): the effective address. X and Y are read, never written. -/
def resolve (mode : Mode) (s : State) : Except Fault (Word × State) :=
  match mode with
  | .implicit => .error (.resolverMisuse .implicit)
  | .accumulator => .error (.resolverMisuse .accumulator)
  | .immediate => .ok (s.pc + 1, s)
  | .zeroPage => do
    let (b, s) ← busRead (s.pc + 1) s
    .ok (zext b, s)
  | .zeroPageX => do
    let (b, s) ← busRead (s.pc + 1) s
    .ok (zext (b + s.x), s)
  | .zeroPageY => do
    let (b, s) ← busRead (s.pc + 1) s
    .ok (zext (b + s.y), s)
  | .relative => .ok (s.pc + 1, s)
  | .absolute => busRead16 (s.pc + 1) s
  | .absoluteX => do
    let (base, s) ← busRead16 (s.pc + 1) s
    .ok (base + zext s.x, s)
  | .absoluteY => do
    let (base, s) ← busRead16 (s.pc + 1) s
    .ok (base + zext s.y, s)
  | .indirect => do
    let (ptr, s) ← busRead16 (s.pc + 1) s
    let (lo, s) ← busRead ptr s
    let (hi, s) ← busRead (if lowByte ptr = 0xFF then ptr &&& 0xFF00 else ptr + 1) s
    .ok (wordOf hi lo, s)
  | .indexedIndirect => do
    let (b, s) ← busRead (s.pc + 1) s
    readZeroPagePointer (b + s.x) s
  | .indirectIndexed => do
    let (z, s) ← busRead (s.pc + 1) s
    let (base, s) ← readZeroPagePointer z s
    .ok (base + zext s.y, s)

/-- Where an instruction's operand is: register A, or memory at an effective address (R134). -/
inductive Operand where
  | accumulator
  | memory (ea : Word)
  deriving DecidableEq, Repr

/-- Find the operand: the resolver is invoked exactly when the mode is not Accumulator (R130, R135); no instruction
that has an operand is Implicit. -/
def locate (mode : Mode) (s : State) : Except Fault (Operand × State) :=
  match mode with
  | .accumulator => .ok (.accumulator, s)
  | m => do
    let (ea, s) ← resolve m s
    .ok (.memory ea, s)

/-- `load(mode, ea)` (R134). -/
def load (op : Operand) (s : State) : Except Fault (Byte × State) :=
  match op with
  | .accumulator => .ok (s.a, s)
  | .memory ea => busRead ea s

/-- `store(mode, ea, v)` (R134). -/
def store (op : Operand) (v : Byte) (s : State) : Except Fault State :=
  match op with
  | .accumulator => .ok (s.setA v)
  | .memory ea => busWrite ea v s

/-- An instruction that reads the operand byte m and then writes registers and flags only. -/
def readOperand (mode : Mode) (f : Byte → State → State) (s : State) : Result :=
  retire mode do
    let (op, s) ← locate mode s
    let (m, s) ← load op s
    .ok (f m s)

/-- A read-modify-write: one read, one write of `result v s`, then the flags (R210 to R213, R233, R234). `flags` is given
the old byte and the result. -/
def modifyOperand (mode : Mode) (result : Byte → State → Byte) (flags : Byte → Byte → State → State) (s : State) : Result :=
  retire mode do
    let (op, s) ← locate mode s
    let (v, s) ← load op s
    let r := result v s
    let s ← store op r s
    .ok (flags v r s)

/-- A store: one write at the effective address, no read there and no flag (R313 to R315). -/
def writeOperand (mode : Mode) (value : State → Byte) (s : State) : Result :=
  retire mode do
    let (op, s) ← locate mode s
    store op (value s) s

/-- An Implicit instruction that makes no data access. -/
def implied (f : State → State) (s : State) : Result := retire .implicit (.ok (f s))

end Sys2Proof.Machine
end

