-- ==== Sys2Proof/Machine/Arith.lean ====
section
/-! DEFINITION. Arithmetic and logic: ADC, SBC, AND, ORA, EOR, BIT (42_arith_logic.md, R190 to R195). -/

namespace Sys2Proof.Machine

/-- ADC: A, C, V, Z and N from `add8(A, m, C)`; SR.D is ignored (R190, R151). -/
def adc (mode : Mode) (s : State) : Result := readOperand mode (fun m s => writeSum (add8 s.a m (s.flag .c)) s) s

/-- `ADC #$nn`, opcode 0x69 (R190). -/
def execAdcImmediate (s : State) : Result := adc .immediate s

/-- `ADC $nn`, opcode 0x65 (R190). -/
def execAdcZeroPage (s : State) : Result := adc .zeroPage s

/-- `ADC $nn,X`, opcode 0x75 (R190). -/
def execAdcZeroPageX (s : State) : Result := adc .zeroPageX s

/-- `ADC $nnnn`, opcode 0x6D (R190). -/
def execAdcAbsolute (s : State) : Result := adc .absolute s

/-- `ADC $nnnn,X`, opcode 0x7D (R190). -/
def execAdcAbsoluteX (s : State) : Result := adc .absoluteX s

/-- `ADC $nnnn,Y`, opcode 0x79 (R190). -/
def execAdcAbsoluteY (s : State) : Result := adc .absoluteY s

/-- `ADC ($nn,X)`, opcode 0x61 (R190). -/
def execAdcIndexedIndirect (s : State) : Result := adc .indexedIndirect s

/-- `ADC ($nn),Y`, opcode 0x71 (R190). -/
def execAdcIndirectIndexed (s : State) : Result := adc .indirectIndexed s

/-- SBC: ADC with the operand complemented (R191). -/
def sbc (mode : Mode) (s : State) : Result := readOperand mode (fun m s => writeSum (sub8 s.a m (s.flag .c)) s) s

/-- `SBC #$nn`, opcode 0xE9 (R191). -/
def execSbcImmediate (s : State) : Result := sbc .immediate s

/-- `SBC $nn`, opcode 0xE5 (R191). -/
def execSbcZeroPage (s : State) : Result := sbc .zeroPage s

/-- `SBC $nn,X`, opcode 0xF5 (R191). -/
def execSbcZeroPageX (s : State) : Result := sbc .zeroPageX s

/-- `SBC $nnnn`, opcode 0xED (R191). -/
def execSbcAbsolute (s : State) : Result := sbc .absolute s

/-- `SBC $nnnn,X`, opcode 0xFD (R191). -/
def execSbcAbsoluteX (s : State) : Result := sbc .absoluteX s

/-- `SBC $nnnn,Y`, opcode 0xF9 (R191). -/
def execSbcAbsoluteY (s : State) : Result := sbc .absoluteY s

/-- `SBC ($nn,X)`, opcode 0xE1 (R191). -/
def execSbcIndexedIndirect (s : State) : Result := sbc .indexedIndirect s

/-- `SBC ($nn),Y`, opcode 0xF1 (R191). -/
def execSbcIndirectIndexed (s : State) : Result := sbc .indirectIndexed s

/-- AND: `A <- A & m`, ZN (R192). -/
def logicAnd (mode : Mode) (s : State) : Result := readOperand mode (fun m s => loadA (s.a &&& m) s) s

/-- `AND #$nn`, opcode 0x29 (R192). -/
def execAndImmediate (s : State) : Result := logicAnd .immediate s

/-- `AND $nn`, opcode 0x25 (R192). -/
def execAndZeroPage (s : State) : Result := logicAnd .zeroPage s

/-- `AND $nn,X`, opcode 0x35 (R192). -/
def execAndZeroPageX (s : State) : Result := logicAnd .zeroPageX s

/-- `AND $nnnn`, opcode 0x2D (R192). -/
def execAndAbsolute (s : State) : Result := logicAnd .absolute s

/-- `AND $nnnn,X`, opcode 0x3D (R192). -/
def execAndAbsoluteX (s : State) : Result := logicAnd .absoluteX s

/-- `AND $nnnn,Y`, opcode 0x39 (R192). -/
def execAndAbsoluteY (s : State) : Result := logicAnd .absoluteY s

/-- `AND ($nn,X)`, opcode 0x21 (R192). -/
def execAndIndexedIndirect (s : State) : Result := logicAnd .indexedIndirect s

/-- `AND ($nn),Y`, opcode 0x31 (R192). -/
def execAndIndirectIndexed (s : State) : Result := logicAnd .indirectIndexed s

/-- ORA: `A <- A | m`, ZN (R193). -/
def logicOr (mode : Mode) (s : State) : Result := readOperand mode (fun m s => loadA (s.a ||| m) s) s

/-- `ORA #$nn`, opcode 0x09 (R193). -/
def execOraImmediate (s : State) : Result := logicOr .immediate s

/-- `ORA $nn`, opcode 0x05 (R193). -/
def execOraZeroPage (s : State) : Result := logicOr .zeroPage s

/-- `ORA $nn,X`, opcode 0x15 (R193). -/
def execOraZeroPageX (s : State) : Result := logicOr .zeroPageX s

/-- `ORA $nnnn`, opcode 0x0D (R193). -/
def execOraAbsolute (s : State) : Result := logicOr .absolute s

/-- `ORA $nnnn,X`, opcode 0x1D (R193). -/
def execOraAbsoluteX (s : State) : Result := logicOr .absoluteX s

/-- `ORA $nnnn,Y`, opcode 0x19 (R193). -/
def execOraAbsoluteY (s : State) : Result := logicOr .absoluteY s

/-- `ORA ($nn,X)`, opcode 0x01 (R193). -/
def execOraIndexedIndirect (s : State) : Result := logicOr .indexedIndirect s

/-- `ORA ($nn),Y`, opcode 0x11 (R193). -/
def execOraIndirectIndexed (s : State) : Result := logicOr .indirectIndexed s

/-- EOR: `A <- A XOR m`, ZN (R194). -/
def logicXor (mode : Mode) (s : State) : Result := readOperand mode (fun m s => loadA (s.a ^^^ m) s) s

/-- `EOR #$nn`, opcode 0x49 (R194). -/
def execEorImmediate (s : State) : Result := logicXor .immediate s

/-- `EOR $nn`, opcode 0x45 (R194). -/
def execEorZeroPage (s : State) : Result := logicXor .zeroPage s

/-- `EOR $nn,X`, opcode 0x55 (R194). -/
def execEorZeroPageX (s : State) : Result := logicXor .zeroPageX s

/-- `EOR $nnnn`, opcode 0x4D (R194). -/
def execEorAbsolute (s : State) : Result := logicXor .absolute s

/-- `EOR $nnnn,X`, opcode 0x5D (R194). -/
def execEorAbsoluteX (s : State) : Result := logicXor .absoluteX s

/-- `EOR $nnnn,Y`, opcode 0x59 (R194). -/
def execEorAbsoluteY (s : State) : Result := logicXor .absoluteY s

/-- `EOR ($nn,X)`, opcode 0x41 (R194). -/
def execEorIndexedIndirect (s : State) : Result := logicXor .indexedIndirect s

/-- `EOR ($nn),Y`, opcode 0x51 (R194). -/
def execEorIndirectIndexed (s : State) : Result := logicXor .indirectIndexed s

/-- BIT: Z from `A & m`, N and V from m; A is not written (R195). -/
def testBits (mode : Mode) (s : State) : Result := readOperand mode bitFlags s

/-- `BIT $nn`, opcode 0x24 (R195). -/
def execBitZeroPage (s : State) : Result := testBits .zeroPage s

/-- `BIT $nnnn`, opcode 0x2C (R195). -/
def execBitAbsolute (s : State) : Result := testBits .absolute s

end Sys2Proof.Machine
end

