-- ==== Sys2Proof/Machine/CompareIncDec.lean ====
section
/-! DEFINITION. Compare, increment and decrement (44_compare_incdec.md, R230 to R238). -/

namespace Sys2Proof.Machine

/-- CMP: `cmp8(A, m)`; no register is written (R230). -/
def compareA (mode : Mode) (s : State) : Result := readOperand mode (fun m s => compare8 s.a m s) s

/-- `CMP #$nn`, opcode 0xC9 (R230). -/
def execCmpImmediate (s : State) : Result := compareA .immediate s

/-- `CMP $nn`, opcode 0xC5 (R230). -/
def execCmpZeroPage (s : State) : Result := compareA .zeroPage s

/-- `CMP $nn,X`, opcode 0xD5 (R230). -/
def execCmpZeroPageX (s : State) : Result := compareA .zeroPageX s

/-- `CMP $nnnn`, opcode 0xCD (R230). -/
def execCmpAbsolute (s : State) : Result := compareA .absolute s

/-- `CMP $nnnn,X`, opcode 0xDD (R230). -/
def execCmpAbsoluteX (s : State) : Result := compareA .absoluteX s

/-- `CMP $nnnn,Y`, opcode 0xD9 (R230). -/
def execCmpAbsoluteY (s : State) : Result := compareA .absoluteY s

/-- `CMP ($nn,X)`, opcode 0xC1 (R230). -/
def execCmpIndexedIndirect (s : State) : Result := compareA .indexedIndirect s

/-- `CMP ($nn),Y`, opcode 0xD1 (R230). -/
def execCmpIndirectIndexed (s : State) : Result := compareA .indirectIndexed s

/-- CPX: `cmp8(X, m)` (R231). -/
def compareX (mode : Mode) (s : State) : Result := readOperand mode (fun m s => compare8 s.x m s) s

/-- `CPX #$nn`, opcode 0xE0 (R231). -/
def execCpxImmediate (s : State) : Result := compareX .immediate s

/-- `CPX $nn`, opcode 0xE4 (R231). -/
def execCpxZeroPage (s : State) : Result := compareX .zeroPage s

/-- `CPX $nnnn`, opcode 0xEC (R231). -/
def execCpxAbsolute (s : State) : Result := compareX .absolute s

/-- CPY: `cmp8(Y, m)` (R232). -/
def compareY (mode : Mode) (s : State) : Result := readOperand mode (fun m s => compare8 s.y m s) s

/-- `CPY #$nn`, opcode 0xC0 (R232). -/
def execCpyImmediate (s : State) : Result := compareY .immediate s

/-- `CPY $nn`, opcode 0xC4 (R232). -/
def execCpyZeroPage (s : State) : Result := compareY .zeroPage s

/-- `CPY $nnnn`, opcode 0xCC (R232). -/
def execCpyAbsolute (s : State) : Result := compareY .absolute s

/-- INC: memory plus one, ZN (R233). -/
def increment (mode : Mode) (s : State) : Result := modifyOperand mode (fun v _ => inc8 v) (fun _ r => setZN r) s

/-- `INC $nn`, opcode 0xE6 (R233). -/
def execIncZeroPage (s : State) : Result := increment .zeroPage s

/-- `INC $nn,X`, opcode 0xF6 (R233). -/
def execIncZeroPageX (s : State) : Result := increment .zeroPageX s

/-- `INC $nnnn`, opcode 0xEE (R233). -/
def execIncAbsolute (s : State) : Result := increment .absolute s

/-- `INC $nnnn,X`, opcode 0xFE (R233). -/
def execIncAbsoluteX (s : State) : Result := increment .absoluteX s

/-- DEC: memory minus one, ZN (R234). -/
def decrement (mode : Mode) (s : State) : Result := modifyOperand mode (fun v _ => dec8 v) (fun _ r => setZN r) s

/-- `DEC $nn`, opcode 0xC6 (R234). -/
def execDecZeroPage (s : State) : Result := decrement .zeroPage s

/-- `DEC $nn,X`, opcode 0xD6 (R234). -/
def execDecZeroPageX (s : State) : Result := decrement .zeroPageX s

/-- `DEC $nnnn`, opcode 0xCE (R234). -/
def execDecAbsolute (s : State) : Result := decrement .absolute s

/-- `DEC $nnnn,X`, opcode 0xDE (R234). -/
def execDecAbsoluteX (s : State) : Result := decrement .absoluteX s

/-- `INX`, opcode 0xE8 (R235). -/
def execInx (s : State) : Result := implied (fun s => loadX (inc8 s.x) s) s

/-- `INY`, opcode 0xC8 (R236). -/
def execIny (s : State) : Result := implied (fun s => loadY (inc8 s.y) s) s

/-- `DEX`, opcode 0xCA (R237). -/
def execDex (s : State) : Result := implied (fun s => loadX (dec8 s.x) s) s

/-- `DEY`, opcode 0x88 (R238). -/
def execDey (s : State) : Result := implied (fun s => loadY (dec8 s.y) s) s

end Sys2Proof.Machine
end

