-- ==== Sys2Proof/Machine/Control.lean ====
section
/-! DEFINITION. Control transfer: the eight branches, JMP, JSR, RTS, RTI, BRK, NOP (45_control.md, R250 to R265). -/

namespace Sys2Proof.Machine

/-- `branch(cond)` for the condition "flag f is v" (R250): the displacement byte is read only when it holds (D31); it is
added to the pre-advance PC, and then the auto-advance still applies (C1). -/
def branch (f : Flag) (v : Bool) (s : State) : Result :=
  retire .relative do
    let (ea, s) ← resolve .relative s
    if s.flag f = v then
      let (d, s) ← busRead ea s
      .ok (s.setPc (s.pc + sext d))
    else .ok s

/-- `BCC label`, opcode 0x90 (R251). -/
def execBcc (s : State) : Result := branch .c false s

/-- `BCS label`, opcode 0xB0 (R252). -/
def execBcs (s : State) : Result := branch .c true s

/-- `BEQ label`, opcode 0xF0 (R253). -/
def execBeq (s : State) : Result := branch .z true s

/-- `BNE label`, opcode 0xD0 (R254). -/
def execBne (s : State) : Result := branch .z false s

/-- `BMI label`, opcode 0x30 (R255). -/
def execBmi (s : State) : Result := branch .n true s

/-- `BPL label`, opcode 0x10 (R256). -/
def execBpl (s : State) : Result := branch .n false s

/-- `BVC label`, opcode 0x50 (R257). -/
def execBvc (s : State) : Result := branch .v false s

/-- `BVS label`, opcode 0x70 (R258). -/
def execBvs (s : State) : Result := branch .v true s

/-- JMP: PC becomes the resolved address; the Indirect arm of the resolver has the page-wrap bug (R259, R260, C6). -/
def jump (mode : Mode) (s : State) : Result :=
  complete do
    let (ea, s) ← resolve mode s
    .ok (s.setPc ea)

/-- `JMP $nnnn`, opcode 0x4C (R259). -/
def execJmpAbsolute (s : State) : Result := jump .absolute s

/-- `JMP ($nnnn)`, opcode 0x6C (R260). -/
def execJmpIndirect (s : State) : Result := jump .indirect s

/-- JSR: the target is resolved first; then P + 2 is pushed, high byte first; then PC is the target (R261). -/
def jumpSubroutine (s : State) : Result :=
  complete do
    let (ea, s) ← resolve .absolute s
    let ret := s.pc + 2
    let s ← push (highByte ret) s
    let s ← push (lowByte ret) s
    .ok (s.setPc ea)

/-- `JSR $nnnn`, opcode 0x20 (R261). -/
def execJsr (s : State) : Result := jumpSubroutine s

/-- RTS: PC is the pulled word plus one (R262, C2). -/
def returnSubroutine (s : State) : Result :=
  complete do
    let (r, s) ← pull16 s
    .ok (s.setPc (r + 1))

/-- `RTS`, opcode 0x60 (R262). -/
def execRts (s : State) : Result := returnSubroutine s

/-- `RTI`, opcode 0x40 (R263). -/
def execRti (s : State) : Result := complete (returnFromInterrupt s)

/-- `BRK`, opcode 0x00: set SR.B and keep PC; nothing is pushed and no vector is read (R264, R350, C3). -/
def execBrk (s : State) : Result := complete (.ok (s.setFlag .b true))

/-- `NOP`, opcode 0xEA: no effect beyond the PC advance (R265). -/
def execNop (s : State) : Result := implied id s

end Sys2Proof.Machine
end

