-- ==== Sys2Proof/Machine/LoadStore.lean ====
section
/-! DEFINITION. Loads and stores (47_load_store.md, R310 to R315). -/

namespace Sys2Proof.Machine

/-- LDA: `A <- m`, ZN (R310). -/
def loadAcc (mode : Mode) (s : State) : Result := readOperand mode loadA s

/-- `LDA #$nn`, opcode 0xA9 (R310). -/
def execLdaImmediate (s : State) : Result := loadAcc .immediate s

/-- `LDA $nn`, opcode 0xA5 (R310). -/
def execLdaZeroPage (s : State) : Result := loadAcc .zeroPage s

/-- `LDA $nn,X`, opcode 0xB5 (R310). -/
def execLdaZeroPageX (s : State) : Result := loadAcc .zeroPageX s

/-- `LDA $nnnn`, opcode 0xAD (R310). -/
def execLdaAbsolute (s : State) : Result := loadAcc .absolute s

/-- `LDA $nnnn,X`, opcode 0xBD (R310). -/
def execLdaAbsoluteX (s : State) : Result := loadAcc .absoluteX s

/-- `LDA $nnnn,Y`, opcode 0xB9 (R310). -/
def execLdaAbsoluteY (s : State) : Result := loadAcc .absoluteY s

/-- `LDA ($nn,X)`, opcode 0xA1 (R310). -/
def execLdaIndexedIndirect (s : State) : Result := loadAcc .indexedIndirect s

/-- `LDA ($nn),Y`, opcode 0xB1 (R310). -/
def execLdaIndirectIndexed (s : State) : Result := loadAcc .indirectIndexed s

/-- LDX: `X <- m`, ZN (R311). -/
def loadXReg (mode : Mode) (s : State) : Result := readOperand mode loadX s

/-- `LDX #$nn`, opcode 0xA2 (R311). -/
def execLdxImmediate (s : State) : Result := loadXReg .immediate s

/-- `LDX $nn`, opcode 0xA6 (R311). -/
def execLdxZeroPage (s : State) : Result := loadXReg .zeroPage s

/-- `LDX $nn,Y`, opcode 0xB6 (R311). -/
def execLdxZeroPageY (s : State) : Result := loadXReg .zeroPageY s

/-- `LDX $nnnn`, opcode 0xAE (R311). -/
def execLdxAbsolute (s : State) : Result := loadXReg .absolute s

/-- `LDX $nnnn,Y`, opcode 0xBE (R311). -/
def execLdxAbsoluteY (s : State) : Result := loadXReg .absoluteY s

/-- LDY: `Y <- m`, ZN (R312). -/
def loadYReg (mode : Mode) (s : State) : Result := readOperand mode loadY s

/-- `LDY #$nn`, opcode 0xA0 (R312). -/
def execLdyImmediate (s : State) : Result := loadYReg .immediate s

/-- `LDY $nn`, opcode 0xA4 (R312). -/
def execLdyZeroPage (s : State) : Result := loadYReg .zeroPage s

/-- `LDY $nn,X`, opcode 0xB4 (R312). -/
def execLdyZeroPageX (s : State) : Result := loadYReg .zeroPageX s

/-- `LDY $nnnn`, opcode 0xAC (R312). -/
def execLdyAbsolute (s : State) : Result := loadYReg .absolute s

/-- `LDY $nnnn,X`, opcode 0xBC (R312). -/
def execLdyAbsoluteX (s : State) : Result := loadYReg .absoluteX s

/-- STA: `MemWrite(ea, 1, A)` (R313). -/
def storeA (mode : Mode) (s : State) : Result := writeOperand mode (fun s => s.a) s

/-- `STA $nn`, opcode 0x85 (R313). -/
def execStaZeroPage (s : State) : Result := storeA .zeroPage s

/-- `STA $nn,X`, opcode 0x95 (R313). -/
def execStaZeroPageX (s : State) : Result := storeA .zeroPageX s

/-- `STA $nnnn`, opcode 0x8D (R313). -/
def execStaAbsolute (s : State) : Result := storeA .absolute s

/-- `STA $nnnn,X`, opcode 0x9D (R313). -/
def execStaAbsoluteX (s : State) : Result := storeA .absoluteX s

/-- `STA $nnnn,Y`, opcode 0x99 (R313). -/
def execStaAbsoluteY (s : State) : Result := storeA .absoluteY s

/-- `STA ($nn,X)`, opcode 0x81 (R313). -/
def execStaIndexedIndirect (s : State) : Result := storeA .indexedIndirect s

/-- `STA ($nn),Y`, opcode 0x91 (R313). -/
def execStaIndirectIndexed (s : State) : Result := storeA .indirectIndexed s

/-- STX: `MemWrite(ea, 1, X)` (R314). -/
def storeX (mode : Mode) (s : State) : Result := writeOperand mode (fun s => s.x) s

/-- `STX $nn`, opcode 0x86 (R314). -/
def execStxZeroPage (s : State) : Result := storeX .zeroPage s

/-- `STX $nn,Y`, opcode 0x96 (R314). -/
def execStxZeroPageY (s : State) : Result := storeX .zeroPageY s

/-- `STX $nnnn`, opcode 0x8E (R314). -/
def execStxAbsolute (s : State) : Result := storeX .absolute s

/-- STY: `MemWrite(ea, 1, Y)` (R315). -/
def storeY (mode : Mode) (s : State) : Result := writeOperand mode (fun s => s.y) s

/-- `STY $nn`, opcode 0x84 (R315). -/
def execStyZeroPage (s : State) : Result := storeY .zeroPage s

/-- `STY $nn,X`, opcode 0x94 (R315). -/
def execStyZeroPageX (s : State) : Result := storeY .zeroPageX s

/-- `STY $nnnn`, opcode 0x8C (R315). -/
def execStyAbsolute (s : State) : Result := storeY .absolute s

end Sys2Proof.Machine
end

