-- ==== Sys2Proof/Machine/Shift.lean ====
section
/-! DEFINITION. Shifts and rotates: ASL, LSR, ROL, ROR, on A or on memory (43_shift.md, R210 to R213). -/

namespace Sys2Proof.Machine

/-- ASL: C is the old bit 7 (R210). -/
def shiftLeft (mode : Mode) (s : State) : Result := modifyOperand mode (fun v _ => asl8 v) (fun v r => shiftFlags (v.getLsbD 7) r) s

/-- `ASL A`, opcode 0x0A (R210). -/
def execAslAccumulator (s : State) : Result := shiftLeft .accumulator s

/-- `ASL $nn`, opcode 0x06 (R210). -/
def execAslZeroPage (s : State) : Result := shiftLeft .zeroPage s

/-- `ASL $nn,X`, opcode 0x16 (R210). -/
def execAslZeroPageX (s : State) : Result := shiftLeft .zeroPageX s

/-- `ASL $nnnn`, opcode 0x0E (R210). -/
def execAslAbsolute (s : State) : Result := shiftLeft .absolute s

/-- `ASL $nnnn,X`, opcode 0x1E (R210). -/
def execAslAbsoluteX (s : State) : Result := shiftLeft .absoluteX s

/-- LSR: C is the old bit 0 (R211). -/
def shiftRight (mode : Mode) (s : State) : Result := modifyOperand mode (fun v _ => lsr8 v) (fun v r => shiftFlags (v.getLsbD 0) r) s

/-- `LSR A`, opcode 0x4A (R211). -/
def execLsrAccumulator (s : State) : Result := shiftRight .accumulator s

/-- `LSR $nn`, opcode 0x46 (R211). -/
def execLsrZeroPage (s : State) : Result := shiftRight .zeroPage s

/-- `LSR $nn,X`, opcode 0x56 (R211). -/
def execLsrZeroPageX (s : State) : Result := shiftRight .zeroPageX s

/-- `LSR $nnnn`, opcode 0x4E (R211). -/
def execLsrAbsolute (s : State) : Result := shiftRight .absolute s

/-- `LSR $nnnn,X`, opcode 0x5E (R211). -/
def execLsrAbsoluteX (s : State) : Result := shiftRight .absoluteX s

/-- ROL: the prior C enters bit 0, C is the old bit 7 (R212). -/
def rotateLeft (mode : Mode) (s : State) : Result := 
  modifyOperand mode (fun v s => rol8 v (s.flag .c)) (fun v r => shiftFlags (v.getLsbD 7) r) s

/-- `ROL A`, opcode 0x2A (R212). -/
def execRolAccumulator (s : State) : Result := rotateLeft .accumulator s

/-- `ROL $nn`, opcode 0x26 (R212). -/
def execRolZeroPage (s : State) : Result := rotateLeft .zeroPage s

/-- `ROL $nn,X`, opcode 0x36 (R212). -/
def execRolZeroPageX (s : State) : Result := rotateLeft .zeroPageX s

/-- `ROL $nnnn`, opcode 0x2E (R212). -/
def execRolAbsolute (s : State) : Result := rotateLeft .absolute s

/-- `ROL $nnnn,X`, opcode 0x3E (R212). -/
def execRolAbsoluteX (s : State) : Result := rotateLeft .absoluteX s

/-- ROR: the prior C enters bit 7, C is the old bit 0 (R213). -/
def rotateRight (mode : Mode) (s : State) : Result := 
  modifyOperand mode (fun v s => ror8 v (s.flag .c)) (fun v r => shiftFlags (v.getLsbD 0) r) s

/-- `ROR A`, opcode 0x6A (R213). -/
def execRorAccumulator (s : State) : Result := rotateRight .accumulator s

/-- `ROR $nn`, opcode 0x66 (R213). -/
def execRorZeroPage (s : State) : Result := rotateRight .zeroPage s

/-- `ROR $nn,X`, opcode 0x76 (R213). -/
def execRorZeroPageX (s : State) : Result := rotateRight .zeroPageX s

/-- `ROR $nnnn`, opcode 0x6E (R213). -/
def execRorAbsolute (s : State) : Result := rotateRight .absolute s

/-- `ROR $nnnn,X`, opcode 0x7E (R213). -/
def execRorAbsoluteX (s : State) : Result := rotateRight .absoluteX s

end Sys2Proof.Machine
end

