-- ==== Sys2Proof/Machine/StackFlagsTransfer.lean ====
section
/-! DEFINITION. Stack, flag and register-transfer instructions (46_stack_flags_transfer.md, R280 to R296). -/

namespace Sys2Proof.Machine

/-- `PHA`, opcode 0x48: push A (R280). -/
def execPha (s : State) : Result := retire .implicit (push s.a s)

/-- `PHP`, opcode 0x08: push SR with B and U set; SR is unchanged (R281). -/
def execPhp (s : State) : Result := retire .implicit (push (pushedStatus s.sr) s)

/-- `PLA`, opcode 0x68: pull A, ZN (R282). -/
def execPla (s : State) : Result :=
  retire .implicit do
    let (v, s) ← pull s
    .ok (loadA v s)

/-- `PLP`, opcode 0x28: pull SR, B cleared and U set (R283). -/
def execPlp (s : State) : Result :=
  retire .implicit do
    let (p, s) ← pull s
    .ok (s.setSr (pulledStatus p))

/-- `CLC`, opcode 0x18 (R284). -/
def execClc (s : State) : Result := implied (fun s => s.setFlag .c false) s

/-- `SEC`, opcode 0x38 (R285). -/
def execSec (s : State) : Result := implied (fun s => s.setFlag .c true) s

/-- `CLI`, opcode 0x58 (R286). -/
def execCli (s : State) : Result := implied (fun s => s.setFlag .i false) s

/-- `SEI`, opcode 0x78 (R287). -/
def execSei (s : State) : Result := implied (fun s => s.setFlag .i true) s

/-- `CLD`, opcode 0xD8 (R288). -/
def execCld (s : State) : Result := implied (fun s => s.setFlag .d false) s

/-- `SED`, opcode 0xF8 (R289). -/
def execSed (s : State) : Result := implied (fun s => s.setFlag .d true) s

/-- `CLV`, opcode 0xB8 (R290). -/
def execClv (s : State) : Result := implied (fun s => s.setFlag .v false) s

/-- `TAX`, opcode 0xAA (R291). -/
def execTax (s : State) : Result := implied (fun s => loadX s.a s) s

/-- `TAY`, opcode 0xA8 (R292). -/
def execTay (s : State) : Result := implied (fun s => loadY s.a s) s

/-- `TXA`, opcode 0x8A (R293). -/
def execTxa (s : State) : Result := implied (fun s => loadA s.x s) s

/-- `TYA`, opcode 0x98 (R294). -/
def execTya (s : State) : Result := implied (fun s => loadA s.y s) s

/-- `TSX`, opcode 0xBA (R295). -/
def execTsx (s : State) : Result := implied (fun s => loadX s.sp s) s

/-- `TXS`, opcode 0x9A (R296). -/
def execTxs (s : State) : Result := implied (fun s => s.setSp s.x) s

end Sys2Proof.Machine
end

