-- ==== Sys2Proof/Machine/Dispatch.lean ====
section
/-! DEFINITION. The dispatcher (R133), one arm per row of the opcode table. -/

namespace Sys2Proof.Machine

def exec (i : Instr) (s : State) : Host.Outcome State Fault Refusal :=
  match i with
  | .adcImmediate => Sys2Proof.Machine.execAdcImmediate s
  | .adcZeroPage => Sys2Proof.Machine.execAdcZeroPage s
  | .adcZeroPageX => Sys2Proof.Machine.execAdcZeroPageX s
  | .adcAbsolute => Sys2Proof.Machine.execAdcAbsolute s
  | .adcAbsoluteX => Sys2Proof.Machine.execAdcAbsoluteX s
  | .adcAbsoluteY => Sys2Proof.Machine.execAdcAbsoluteY s
  | .adcIndexedIndirect => Sys2Proof.Machine.execAdcIndexedIndirect s
  | .adcIndirectIndexed => Sys2Proof.Machine.execAdcIndirectIndexed s
  | .andImmediate => Sys2Proof.Machine.execAndImmediate s
  | .andZeroPage => Sys2Proof.Machine.execAndZeroPage s
  | .andZeroPageX => Sys2Proof.Machine.execAndZeroPageX s
  | .andAbsolute => Sys2Proof.Machine.execAndAbsolute s
  | .andAbsoluteX => Sys2Proof.Machine.execAndAbsoluteX s
  | .andAbsoluteY => Sys2Proof.Machine.execAndAbsoluteY s
  | .andIndexedIndirect => Sys2Proof.Machine.execAndIndexedIndirect s
  | .andIndirectIndexed => Sys2Proof.Machine.execAndIndirectIndexed s
  | .aslAccumulator => Sys2Proof.Machine.execAslAccumulator s
  | .aslZeroPage => Sys2Proof.Machine.execAslZeroPage s
  | .aslZeroPageX => Sys2Proof.Machine.execAslZeroPageX s
  | .aslAbsolute => Sys2Proof.Machine.execAslAbsolute s
  | .aslAbsoluteX => Sys2Proof.Machine.execAslAbsoluteX s
  | .bcc => Sys2Proof.Machine.execBcc s
  | .bcs => Sys2Proof.Machine.execBcs s
  | .beq => Sys2Proof.Machine.execBeq s
  | .bitZeroPage => Sys2Proof.Machine.execBitZeroPage s
  | .bitAbsolute => Sys2Proof.Machine.execBitAbsolute s
  | .bmi => Sys2Proof.Machine.execBmi s
  | .bne => Sys2Proof.Machine.execBne s
  | .bpl => Sys2Proof.Machine.execBpl s
  | .brk => Sys2Proof.Machine.execBrk s
  | .bvc => Sys2Proof.Machine.execBvc s
  | .bvs => Sys2Proof.Machine.execBvs s
  | .clc => Sys2Proof.Machine.execClc s
  | .cld => Sys2Proof.Machine.execCld s
  | .cli => Sys2Proof.Machine.execCli s
  | .clv => Sys2Proof.Machine.execClv s
  | .cmpImmediate => Sys2Proof.Machine.execCmpImmediate s
  | .cmpZeroPage => Sys2Proof.Machine.execCmpZeroPage s
  | .cmpZeroPageX => Sys2Proof.Machine.execCmpZeroPageX s
  | .cmpAbsolute => Sys2Proof.Machine.execCmpAbsolute s
  | .cmpAbsoluteX => Sys2Proof.Machine.execCmpAbsoluteX s
  | .cmpAbsoluteY => Sys2Proof.Machine.execCmpAbsoluteY s
  | .cmpIndexedIndirect => Sys2Proof.Machine.execCmpIndexedIndirect s
  | .cmpIndirectIndexed => Sys2Proof.Machine.execCmpIndirectIndexed s
  | .cpxImmediate => Sys2Proof.Machine.execCpxImmediate s
  | .cpxZeroPage => Sys2Proof.Machine.execCpxZeroPage s
  | .cpxAbsolute => Sys2Proof.Machine.execCpxAbsolute s
  | .cpyImmediate => Sys2Proof.Machine.execCpyImmediate s
  | .cpyZeroPage => Sys2Proof.Machine.execCpyZeroPage s
  | .cpyAbsolute => Sys2Proof.Machine.execCpyAbsolute s
  | .decZeroPage => Sys2Proof.Machine.execDecZeroPage s
  | .decZeroPageX => Sys2Proof.Machine.execDecZeroPageX s
  | .decAbsolute => Sys2Proof.Machine.execDecAbsolute s
  | .decAbsoluteX => Sys2Proof.Machine.execDecAbsoluteX s
  | .dex => Sys2Proof.Machine.execDex s
  | .dey => Sys2Proof.Machine.execDey s
  | .eorImmediate => Sys2Proof.Machine.execEorImmediate s
  | .eorZeroPage => Sys2Proof.Machine.execEorZeroPage s
  | .eorZeroPageX => Sys2Proof.Machine.execEorZeroPageX s
  | .eorAbsolute => Sys2Proof.Machine.execEorAbsolute s
  | .eorAbsoluteX => Sys2Proof.Machine.execEorAbsoluteX s
  | .eorAbsoluteY => Sys2Proof.Machine.execEorAbsoluteY s
  | .eorIndexedIndirect => Sys2Proof.Machine.execEorIndexedIndirect s
  | .eorIndirectIndexed => Sys2Proof.Machine.execEorIndirectIndexed s
  | .incZeroPage => Sys2Proof.Machine.execIncZeroPage s
  | .incZeroPageX => Sys2Proof.Machine.execIncZeroPageX s
  | .incAbsolute => Sys2Proof.Machine.execIncAbsolute s
  | .incAbsoluteX => Sys2Proof.Machine.execIncAbsoluteX s
  | .inx => Sys2Proof.Machine.execInx s
  | .iny => Sys2Proof.Machine.execIny s
  | .jmpAbsolute => Sys2Proof.Machine.execJmpAbsolute s
  | .jmpIndirect => Sys2Proof.Machine.execJmpIndirect s
  | .jsr => Sys2Proof.Machine.execJsr s
  | .ldaImmediate => Sys2Proof.Machine.execLdaImmediate s
  | .ldaZeroPage => Sys2Proof.Machine.execLdaZeroPage s
  | .ldaZeroPageX => Sys2Proof.Machine.execLdaZeroPageX s
  | .ldaAbsolute => Sys2Proof.Machine.execLdaAbsolute s
  | .ldaAbsoluteX => Sys2Proof.Machine.execLdaAbsoluteX s
  | .ldaAbsoluteY => Sys2Proof.Machine.execLdaAbsoluteY s
  | .ldaIndexedIndirect => Sys2Proof.Machine.execLdaIndexedIndirect s
  | .ldaIndirectIndexed => Sys2Proof.Machine.execLdaIndirectIndexed s
  | .ldxImmediate => Sys2Proof.Machine.execLdxImmediate s
  | .ldxZeroPage => Sys2Proof.Machine.execLdxZeroPage s
  | .ldxZeroPageY => Sys2Proof.Machine.execLdxZeroPageY s
  | .ldxAbsolute => Sys2Proof.Machine.execLdxAbsolute s
  | .ldxAbsoluteY => Sys2Proof.Machine.execLdxAbsoluteY s
  | .ldyImmediate => Sys2Proof.Machine.execLdyImmediate s
  | .ldyZeroPage => Sys2Proof.Machine.execLdyZeroPage s
  | .ldyZeroPageX => Sys2Proof.Machine.execLdyZeroPageX s
  | .ldyAbsolute => Sys2Proof.Machine.execLdyAbsolute s
  | .ldyAbsoluteX => Sys2Proof.Machine.execLdyAbsoluteX s
  | .lsrAccumulator => Sys2Proof.Machine.execLsrAccumulator s
  | .lsrZeroPage => Sys2Proof.Machine.execLsrZeroPage s
  | .lsrZeroPageX => Sys2Proof.Machine.execLsrZeroPageX s
  | .lsrAbsolute => Sys2Proof.Machine.execLsrAbsolute s
  | .lsrAbsoluteX => Sys2Proof.Machine.execLsrAbsoluteX s
  | .nop => Sys2Proof.Machine.execNop s
  | .oraImmediate => Sys2Proof.Machine.execOraImmediate s
  | .oraZeroPage => Sys2Proof.Machine.execOraZeroPage s
  | .oraZeroPageX => Sys2Proof.Machine.execOraZeroPageX s
  | .oraAbsolute => Sys2Proof.Machine.execOraAbsolute s
  | .oraAbsoluteX => Sys2Proof.Machine.execOraAbsoluteX s
  | .oraAbsoluteY => Sys2Proof.Machine.execOraAbsoluteY s
  | .oraIndexedIndirect => Sys2Proof.Machine.execOraIndexedIndirect s
  | .oraIndirectIndexed => Sys2Proof.Machine.execOraIndirectIndexed s
  | .pha => Sys2Proof.Machine.execPha s
  | .php => Sys2Proof.Machine.execPhp s
  | .pla => Sys2Proof.Machine.execPla s
  | .plp => Sys2Proof.Machine.execPlp s
  | .rolAccumulator => Sys2Proof.Machine.execRolAccumulator s
  | .rolZeroPage => Sys2Proof.Machine.execRolZeroPage s
  | .rolZeroPageX => Sys2Proof.Machine.execRolZeroPageX s
  | .rolAbsolute => Sys2Proof.Machine.execRolAbsolute s
  | .rolAbsoluteX => Sys2Proof.Machine.execRolAbsoluteX s
  | .rorAccumulator => Sys2Proof.Machine.execRorAccumulator s
  | .rorZeroPage => Sys2Proof.Machine.execRorZeroPage s
  | .rorZeroPageX => Sys2Proof.Machine.execRorZeroPageX s
  | .rorAbsolute => Sys2Proof.Machine.execRorAbsolute s
  | .rorAbsoluteX => Sys2Proof.Machine.execRorAbsoluteX s
  | .rti => Sys2Proof.Machine.execRti s
  | .rts => Sys2Proof.Machine.execRts s
  | .sbcImmediate => Sys2Proof.Machine.execSbcImmediate s
  | .sbcZeroPage => Sys2Proof.Machine.execSbcZeroPage s
  | .sbcZeroPageX => Sys2Proof.Machine.execSbcZeroPageX s
  | .sbcAbsolute => Sys2Proof.Machine.execSbcAbsolute s
  | .sbcAbsoluteX => Sys2Proof.Machine.execSbcAbsoluteX s
  | .sbcAbsoluteY => Sys2Proof.Machine.execSbcAbsoluteY s
  | .sbcIndexedIndirect => Sys2Proof.Machine.execSbcIndexedIndirect s
  | .sbcIndirectIndexed => Sys2Proof.Machine.execSbcIndirectIndexed s
  | .sec => Sys2Proof.Machine.execSec s
  | .sed => Sys2Proof.Machine.execSed s
  | .sei => Sys2Proof.Machine.execSei s
  | .staZeroPage => Sys2Proof.Machine.execStaZeroPage s
  | .staZeroPageX => Sys2Proof.Machine.execStaZeroPageX s
  | .staAbsolute => Sys2Proof.Machine.execStaAbsolute s
  | .staAbsoluteX => Sys2Proof.Machine.execStaAbsoluteX s
  | .staAbsoluteY => Sys2Proof.Machine.execStaAbsoluteY s
  | .staIndexedIndirect => Sys2Proof.Machine.execStaIndexedIndirect s
  | .staIndirectIndexed => Sys2Proof.Machine.execStaIndirectIndexed s
  | .stxZeroPage => Sys2Proof.Machine.execStxZeroPage s
  | .stxZeroPageY => Sys2Proof.Machine.execStxZeroPageY s
  | .stxAbsolute => Sys2Proof.Machine.execStxAbsolute s
  | .styZeroPage => Sys2Proof.Machine.execStyZeroPage s
  | .styZeroPageX => Sys2Proof.Machine.execStyZeroPageX s
  | .styAbsolute => Sys2Proof.Machine.execStyAbsolute s
  | .tax => Sys2Proof.Machine.execTax s
  | .tay => Sys2Proof.Machine.execTay s
  | .tsx => Sys2Proof.Machine.execTsx s
  | .txa => Sys2Proof.Machine.execTxa s
  | .txs => Sys2Proof.Machine.execTxs s
  | .tya => Sys2Proof.Machine.execTya s

end Sys2Proof.Machine
end

