-- ==== Sys2Proof/Machine/Step.lean ====
section
/-! DEFINITION. One step of the machine. `stepInstr` is the spec's `step()` (R130); `step` is one round of the run loop
around it (R362): a Halted state has no step (R47), else the host's callback and then one instruction. -/

namespace Sys2Proof.Machine

/-- The spec's `step()`: fetch, decode, execute one whole instruction; a fault at any point ends it (R130). -/
def stepInstr (s : State) : Host.Outcome State Fault Refusal :=
  match fetch s with
  | .error f => raiseFault f
  | .ok (i, s) => exec i s

/-- One round: "ordering is strictly: callback, then step" (R362); none from a Halted state (R47, D18). -/
def step (s : State) : Host.Outcome State Fault Refusal :=
  if s.halted then .refused .halted else stepInstr (callback s)

/-- The state with an instruction of the opcode table, its operand bytes zero above `nbits`, placed where `step`
fetches next (log 9). -/
def State.withFetchWord (s : State) (nbits w : Nat) : State := s.placeCode (tableBytes nbits w)

end Sys2Proof.Machine
end

