-- ==== Sys2Proof/Machine/Launch.lean ====
section
/-! DEFINITION. The launch: what the host chooses before the first step, the reset procedure, RAM staging and the
launch refusals (R11, R68, R361, R364, R380, R381, R383). -/

namespace Sys2Proof.Machine

/-- Why a launch is refused, before any step (R364). -/
inductive LaunchRefusal where
  /-- A PRG image whose length is not 0x4000 or 0x8000 (R11, D20). -/
  | prgLength (n : Nat)
  /-- A `LoadRam` that would pass the end of RAM (R68, D29). -/
  | loadRamPastEnd (offset length : Nat)
  deriving DecidableEq, Repr

/-- One `LoadRam(offset, bytes)` (R68). -/
structure Staging where
  offset : Nat
  bytes : List Byte
  deriving DecidableEq, Repr

/-- A program staged in RAM: the `LoadRam`s, in order, and the launch parameter ENTRY (R383, D26). -/
structure StagedProgram where
  loads : List Staging
  entry : Word
  deriving DecidableEq, Repr

/-- What the host chooses at launch (R361): the PRG image, SP_RESET, RAM_INIT and, for a staged launch, the program it
stages (R383); and the moves it will make at the callbacks (log 1). -/
structure Launch where
  prg : List Byte
  spReset : Byte := Config.spReset
  ramInit : Vector Byte 0x0800
  staged : Option StagedProgram := none
  hostMoves : List HostMove := []
  deriving DecidableEq, Repr

/-- The size of an image, refused when it is neither of the two (R11, R364). -/
def prgSizeOf (prg : List Byte) : Except LaunchRefusal PrgSize :=
  if prg.length = 0x4000 then .ok .k16
  else if prg.length = 0x8000 then .ok .k32
  else .error (.prgLength prg.length)

/-- RAM and the image as they stand at launch: RAM_INIT in the RAM cells, the image in the PRG cells (R50, R380). -/
def launchMemory (ramInit prg : List Byte) : Memory :=
  Memory.ofBytes 0 ramInit ++ Memory.ofBytes Config.romBase prg

/-- The byte the bus gives at an address of ROM; no byte is missing there (R381). -/
def State.vectorByte (s : State) (addr : Word) : Byte := (s.peek addr).getD 0

/-- `PC <- MemRead(0xFFFC, 2)`: both bytes lie in PRG ROM, so the read neither faults nor records a diagnostic (R381). -/
def State.loadVector (s : State) : State :=
  s.setPc (wordOf (s.vectorByte (Config.resetVector + 1)) (s.vectorByte Config.resetVector))

/-- The registers right after reset, for the given memory and SP_RESET: A, X, Y cleared, SR = 0x24, PC from the reset
vector (R380). -/
def resetState (size : PrgSize) (mem : Memory) (spReset : Byte) (hostMoves : List HostMove) : State :=
  State.loadVector
    { a := 0x00, x := 0x00, y := 0x00, sp := spReset, pc := 0x0000, sr := 0x24, prgSize := size, mem := mem,
      diag := [], hostMoves := hostMoves }

/-- `LoadRam(offset, bytes)`: no diagnostic and no fault; refused when it would pass the end of RAM (R68). -/
def loadRam (st : Staging) (s : State) : Except LaunchRefusal State :=
  if st.offset + st.bytes.length > Config.ramSize then .error (.loadRamPastEnd st.offset st.bytes.length)
  else .ok (s.setMem (Memory.writeBytes s.mem st.offset st.bytes))

/-- Any number of `LoadRam`s, in order (R383). -/
def stageAll : List Staging → State → Except LaunchRefusal State
  | [], s => .ok s
  | st :: rest, s => do
    let s ← loadRam st s
    stageAll rest s

/-- Stage a program: its loads, then PC at ENTRY. Without staging ENTRY is not used and PC stays the reset vector's
(R383). -/
def stage (staged : Option StagedProgram) (s : State) : Except LaunchRefusal State :=
  match staged with
  | none => .ok s
  | some p => do
    let s ← stageAll p.loads s
    .ok (s.setPc p.entry)

/-- The launch: reset, then staging and ENTRY (R361, R380, R383). R67 makes `MemWrite16` available to the host at launch,
and no rule places it there. DESIGN CHOICE (log 14), unsafe: the host makes no such write, so none can fault. -/
def launch (l : Launch) : Except LaunchRefusal State := do
  let size ← prgSizeOf l.prg
  stage l.staged (resetState size (launchMemory l.ramInit.toList l.prg) l.spReset l.hostMoves)

end Sys2Proof.Machine
end

