-- ==== Sys2Proof/Machine/Timing.lean ====
section
/-! DEFINITION. The timing contract (R106, R175, R387 to R390): a step's cycle count as a derived quantity with no state.
Its numbers are non-normative (D22, log 8), and no meaning of the machine reads it. -/

namespace Sys2Proof.Machine

/-- The byte at an address as far as timing is concerned; the reserved window, where a step faults, counts as 0. -/
def State.timingByte (s : State) (addr : Word) : Byte := (s.peek addr).getD 0

/-- The word the index is added to, in the three modes that can cross a page (R175). -/
def indexBase (mode : Mode) (s : State) : Option Word :=
  match mode with
  | .absoluteX | .absoluteY => some (wordOf (s.timingByte (s.pc + 2)) (s.timingByte (s.pc + 1)))
  | .indirectIndexed =>
    let z := s.timingByte (s.pc + 1)
    some (wordOf (s.timingByte (zext (z + 1))) (s.timingByte (zext z)))
  | _ => none

/-- The index added in those modes (R170, R171, R174). -/
def indexRegister (mode : Mode) (s : State) : Byte :=
  match mode with
  | .absoluteX => s.x
  | _ => s.y

/-- A page cross: the index addition changes the high byte (R175). -/
def pageCross (mode : Mode) (s : State) : Bool :=
  match indexBase mode s with
  | some base => highByte base != highByte (base + zext (indexRegister mode s))
  | none => false

/-- The flag and the value each branch tests (R251 to R258); none for the other mnemonics. -/
def branchTest : Mnemonic → Option (Flag × Bool)
  | .bcc => some (.c, false)
  | .bcs => some (.c, true)
  | .beq => some (.z, true)
  | .bne => some (.z, false)
  | .bmi => some (.n, true)
  | .bpl => some (.n, false)
  | .bvc => some (.v, false)
  | .bvs => some (.v, true)
  | _ => none

/-- The penalty of a taken branch: one cycle, and one more when the target's page is not that of P + 2 (R175, R389). -/
def branchPenalty (info : InstrInfo) (s : State) : Nat :=
  let next := s.pc + 2
  let target := s.pc + sext (s.timingByte (s.pc + 1)) + 2
  info.extraCycleOnBranchTaken + if highByte next != highByte target then info.extraCycleOnPageCross else 0

/-- The cycle count of the step that executes `i` at `s` (R388, R389, R390). -/
def stepCycles (i : Instr) (s : State) : Nat :=
  let info := i.info
  match branchTest i.mnemonic with
  | some (f, v) => info.baseCycles + if s.flag f = v then branchPenalty info s else 0
  | none => info.baseCycles + if pageCross i.mode s then info.extraCycleOnPageCross else 0

end Sys2Proof.Machine
end

