-- ==== Sys2Proof/Machine/RunLoop.lean ====
section
/-! DEFINITION. The outputs of the block, the run state, and the host's run loop under fuel (R7, R47, R348, R361, R362,
R363). -/

namespace Sys2Proof.Machine

/-- The run state (R47). -/
inductive RunState where
  | running
  | halted
  | faulted (reason : Fault)
  deriving DecidableEq, Repr

/-- The run state of a core that has not faulted (R47). -/
def State.runState (s : State) : RunState := if s.halted then .halted else .running

/-- The numeric code of a fault reason, where a number is wanted (R348, D8). -/
def Fault.code : Fault → Nat
  | .illegalOpcode _ _ => 1
  | .reservedWindow _ _ => 2
  | .romWrite _ _ => 3
  | .resolverMisuse _ => 4

/-- What the host reads at its poll: the 32 × 32 frame buffer RAM[0x0200..0x05FF], in address order (R77, R361). -/
def State.frameBuffer (s : State) : List Byte :=
  (List.range Config.frameSize).map fun k => Memory.read s.mem (Config.frameBase + k)

/-- How a run under fuel stands (R363). A Faulted run keeps the state its faulting step started from, which is after
that step's callback (R345). -/
inductive RunResult where
  | halted (s : State)
  | faulted (s : State) (reason : Fault)
  | outOfFuel (s : State)
  | refused (r : Refusal)
  deriving DecidableEq, Repr

/-- The run loop (R362): the Break flag is tested after each step and before the next callback; the loop has no bound
of its own, so a model runs it under fuel. The poll only reads and has no effect. -/
def runLoop : Nat → State → RunResult
  | fuel, s =>
    if s.halted then .halted s
    else
      match fuel with
      | 0 => .outOfFuel s
      | n + 1 =>
        match step s with
        | .next t => runLoop n t
        | .fault r => .faulted (callback s) r
        | .refused r => .refused r

end Sys2Proof.Machine
end

