-- ==== Sys2Proof/Safety.lean ====
section
/-! DEFINITION. What counts as safe, in the terms the claims use: which addresses the bus answers for (R61), the
invariant of the state, and what a step may have changed. -/

namespace Sys2Proof.Machine

/-- A read of this address does not fault: it is outside the reserved window (R62). -/
abbrev Readable (addr : Word) : Prop := addr.toNat ≤ 0x1FFF ∨ 0x4000 ≤ addr.toNat

/-- The unmapped region, where a read gives 0 and a write is dropped, each with a diagnostic (R61). -/
abbrev Unmapped (addr : Word) : Prop := 0x4000 ≤ addr.toNat ∧ addr.toNat ≤ 0x7FFF

/-- The state after one bus read that does not fault: a read of the unmapped region is logged, any other read leaves
nothing behind (R62, R74). -/
def State.afterRead (s : State) (addr : Word) : State :=
  if Unmapped addr then s.note (.unmappedRead addr) else s

/-- Two addresses name the same byte of RAM, through any of its four mirrors (R64). -/
abbrev SameRamByte (p q : Word) : Prop :=
  p.toNat ≤ 0x1FFF ∧ q.toNat ≤ 0x1FFF ∧ p.toNat % 0x0800 = q.toNat % 0x0800

/-- The length of an image of this size (R11). -/
def PrgSize.bytes : PrgSize → Nat
  | .k16 => 0x4000
  | .k32 => 0x8000

/-- A cell of RAM or of the PRG image (R48). -/
abbrev IsCell (size : PrgSize) (c : Nat) : Prop := c < 0x0800 ∨ (0x8000 ≤ c ∧ c < 0x8000 + size.bytes)

/-- The invariant: memory in its canonical form, every listed cell one of the hardware's, and SR.U set (R42). -/
abbrev State.Inv (s : State) : Prop :=
  Memory.wf s.mem ∧ (∀ c ∈ s.mem, IsCell s.prgSize c.1) ∧ s.flag .u = true

/-- `t` is `s` with, at most, events added to the diagnostic log: no architectural state differs (R49). -/
def OnlyLog (s t : State) : Prop := ∃ d, t = { s with diag := d ++ s.diag }

/-- A run of at most `fuel` steps that does not end Faulted (R363). -/
def SafeRun (fuel : Nat) (s : State) : Prop := ∀ t f, runLoop fuel s ≠ .faulted t f

end Sys2Proof.Machine
end

