-- ==== Sys2Proof/WellFormed.lean ====
section
/-! DEFINITION. When an instruction in memory is well formed: it has exactly the operand bytes its opcode byte
asks for (R104). Every constructor of `Instr` is a row of the table, so an `Instr` alone is never ill formed. -/

namespace Sys2Proof

/-- The number of operand bytes is the one R104 gives: neither too few nor too many. -/
def WellFormed (c : Code) : Bool := c.operand.length == c.instr.operandSize

end Sys2Proof
end

