-- ==== Sys2Proof/Certificates/Slice0/Obligations.lean ====
section
/-! DEFINITION. The statements for the provers, each from numbered rules of the spec, and the words they share: the
forms of each mnemonic with their addressing modes (R110), what "these flags and no other" means, and the tables of
R51, R79, R112 and R150. Throughout, the opcode bytes are those of R109 and R110, which the spec marks as general
knowledge (D21); that the reserved window faults reads and writes is the spec's decision D15, the fault names its
decision D8. -/

namespace Sys2Proof.Claims

open Sys2Proof Sys2Proof.Machine

/-- The listed flags have the listed values in `t`, and every other flag is as it was in `s`. -/
def FlagsWritten (s t : State) (l : List (Flag × Bool)) : Prop :=
  ∀ f, t.flag f = (l.lookup f).getD (s.flag f)

/-- Memory in `t` is that of `s` with one byte of RAM written, seen through all its mirrors; every other address reads
as it did. -/
def StoresByte (s t : State) (addr : Word) (v : Byte) : Prop :=
  ∀ q, t.peek q = if SameRamByte addr q then some v else s.peek q

/-- PC after an instruction that does not write it: the auto-advance of the mode's byte size (R131). -/
def nextPc (s : State) (mode : Mode) : Word := s.pc + BitVec.ofNat 16 mode.byteSize

/-- `i` reads its operand and then leaves `upd m` with the flags `fl m` (m the operand byte), PC advanced and the
reads of the unmapped region logged; it faults where the operand lies in the reserved window. -/
def ReadsOperand (i : Instr) (mode : Mode) (upd : Byte → State → State) (fl : Byte → State → List (Flag × Bool)) : Prop :=
  ∀ (s s1 : State) (ea : Word), resolve mode s = .ok (ea, s1) →
    (∀ m, s.peek ea = some m →
      ∃ t, exec i s = .next t ∧ FlagsWritten s t (fl m s) ∧
        t = { upd m s with sr := t.sr, pc := nextPc s mode, diag := (s1.afterRead ea).diag }) ∧
    (¬ Readable ea → exec i s = .fault (.reservedWindow ea .read))

/-- `i` reads the byte v at its effective address, writes `r v c` back (c the prior carry) and leaves the flags
`fl v c`: in RAM the byte changes; in the unmapped region v is 0, the write is dropped, and both accesses are logged;
in ROM the write faults; in the reserved window the read faults. -/
def ModifiesMemory (i : Instr) (mode : Mode) (r : Byte → Bool → Byte) (fl : Byte → Bool → List (Flag × Bool)) : Prop :=
  ∀ (s s1 : State) (ea : Word), resolve mode s = .ok (ea, s1) →
    (∀ v, s.peek ea = some v → ea.toNat ≤ 0x1FFF →
      ∃ t, exec i s = .next t ∧ FlagsWritten s t (fl v (s.flag .c)) ∧ StoresByte s t ea (r v (s.flag .c)) ∧
        t = { s with mem := t.mem, sr := t.sr, pc := nextPc s mode, diag := s1.diag }) ∧
    (Unmapped ea →
      ∃ t, exec i s = .next t ∧ FlagsWritten s t (fl 0 (s.flag .c)) ∧
        t = { s with
          sr := t.sr, pc := nextPc s mode,
          diag := .unmappedWrite ea (r 0 (s.flag .c)) :: .unmappedRead ea :: s1.diag }) ∧
    (∀ v, s.peek ea = some v → 0x8000 ≤ ea.toNat → exec i s = .fault (.romWrite ea (r v (s.flag .c)))) ∧
    (¬ Readable ea → exec i s = .fault (.reservedWindow ea .read))

/-- `i` writes `value s` at its effective address and no flag and no register: in RAM the byte changes; in the unmapped
region the write is dropped and logged; in the reserved window and in ROM it faults. -/
def StoresRegister (i : Instr) (mode : Mode) (value : State → Byte) : Prop :=
  ∀ (s s1 : State) (ea : Word), resolve mode s = .ok (ea, s1) →
    (ea.toNat ≤ 0x1FFF →
      ∃ t, exec i s = .next t ∧ StoresByte s t ea (value s) ∧
        t = { s with mem := t.mem, pc := nextPc s mode, diag := s1.diag }) ∧
    (Unmapped ea →
      exec i s =
        .next { s with pc := nextPc s mode, diag := .unmappedWrite ea (value s) :: s1.diag }) ∧
    (¬ Readable ea → exec i s = .fault (.reservedWindow ea (.write (value s)))) ∧
    (0x8000 ≤ ea.toNat → exec i s = .fault (.romWrite ea (value s)))

/-- `i` is an Implicit instruction that changes the registers by `upd` and the flags `fl`, advances PC, and never
faults. -/
def ChangesRegisters (i : Instr) (upd : State → State) (fl : State → List (Flag × Bool)) : Prop :=
  ∀ s : State, ∃ t, exec i s = .next t ∧ FlagsWritten s t (fl s) ∧
    t = { upd s with sr := t.sr, pc := s.pc + 1 }

/-- The opcode bytes a mnemonic's rule gives for its forms, in the order of the list: each decodes to its form, and the
form's addressing mode is the one listed. -/
def Encodes (bytes : List Byte) (forms : List (Instr × Mode)) : Prop :=
  bytes.map decode = forms.map (fun f => .ok f.1) ∧ ∀ f ∈ forms, f.1.mode = f.2

/-- The first address of the list that lies in the reserved window, the reads being made in the list's order. -/
def FirstUnreadable (l : List Word) (q : Word) : Prop := l.find? (fun a => decide (¬ Readable a)) = some q

/-- The flags of `ZN(v)` (R140): Z is `v = 0`, N is bit 7. -/
def znFlags (v : Byte) : List (Flag × Bool) := [(.z, decide (v = 0)), (.n, decide (0x80 ≤ v.toNat))]

/-- The eight forms of ADC (R190). -/
def adcForms : List (Instr × Mode) :=
  [(.adcImmediate, .immediate), (.adcZeroPage, .zeroPage), (.adcZeroPageX, .zeroPageX),
   (.adcAbsolute, .absolute), (.adcAbsoluteX, .absoluteX), (.adcAbsoluteY, .absoluteY),
   (.adcIndexedIndirect, .indexedIndirect), (.adcIndirectIndexed, .indirectIndexed)]

/-- The eight forms of SBC (R191). -/
def sbcForms : List (Instr × Mode) :=
  [(.sbcImmediate, .immediate), (.sbcZeroPage, .zeroPage), (.sbcZeroPageX, .zeroPageX),
   (.sbcAbsolute, .absolute), (.sbcAbsoluteX, .absoluteX), (.sbcAbsoluteY, .absoluteY),
   (.sbcIndexedIndirect, .indexedIndirect), (.sbcIndirectIndexed, .indirectIndexed)]

/-- The eight forms of AND (R192). -/
def andForms : List (Instr × Mode) :=
  [(.andImmediate, .immediate), (.andZeroPage, .zeroPage), (.andZeroPageX, .zeroPageX),
   (.andAbsolute, .absolute), (.andAbsoluteX, .absoluteX), (.andAbsoluteY, .absoluteY),
   (.andIndexedIndirect, .indexedIndirect), (.andIndirectIndexed, .indirectIndexed)]

/-- The eight forms of ORA (R193). -/
def oraForms : List (Instr × Mode) :=
  [(.oraImmediate, .immediate), (.oraZeroPage, .zeroPage), (.oraZeroPageX, .zeroPageX),
   (.oraAbsolute, .absolute), (.oraAbsoluteX, .absoluteX), (.oraAbsoluteY, .absoluteY),
   (.oraIndexedIndirect, .indexedIndirect), (.oraIndirectIndexed, .indirectIndexed)]

/-- The eight forms of EOR (R194). -/
def eorForms : List (Instr × Mode) :=
  [(.eorImmediate, .immediate), (.eorZeroPage, .zeroPage), (.eorZeroPageX, .zeroPageX),
   (.eorAbsolute, .absolute), (.eorAbsoluteX, .absoluteX), (.eorAbsoluteY, .absoluteY),
   (.eorIndexedIndirect, .indexedIndirect), (.eorIndirectIndexed, .indirectIndexed)]

/-- The two forms of BIT (R195). -/
def bitForms : List (Instr × Mode) :=
  [(.bitZeroPage, .zeroPage), (.bitAbsolute, .absolute)]

/-- The four memory forms of ASL (R210). -/
def aslForms : List (Instr × Mode) :=
  [(.aslZeroPage, .zeroPage), (.aslZeroPageX, .zeroPageX), (.aslAbsolute, .absolute),
   (.aslAbsoluteX, .absoluteX)]

/-- The four memory forms of LSR (R211). -/
def lsrForms : List (Instr × Mode) :=
  [(.lsrZeroPage, .zeroPage), (.lsrZeroPageX, .zeroPageX), (.lsrAbsolute, .absolute),
   (.lsrAbsoluteX, .absoluteX)]

/-- The four memory forms of ROL (R212). -/
def rolForms : List (Instr × Mode) :=
  [(.rolZeroPage, .zeroPage), (.rolZeroPageX, .zeroPageX), (.rolAbsolute, .absolute),
   (.rolAbsoluteX, .absoluteX)]

/-- The four memory forms of ROR (R213). -/
def rorForms : List (Instr × Mode) :=
  [(.rorZeroPage, .zeroPage), (.rorZeroPageX, .zeroPageX), (.rorAbsolute, .absolute),
   (.rorAbsoluteX, .absoluteX)]

/-- The eight forms of CMP (R230). -/
def cmpForms : List (Instr × Mode) :=
  [(.cmpImmediate, .immediate), (.cmpZeroPage, .zeroPage), (.cmpZeroPageX, .zeroPageX),
   (.cmpAbsolute, .absolute), (.cmpAbsoluteX, .absoluteX), (.cmpAbsoluteY, .absoluteY),
   (.cmpIndexedIndirect, .indexedIndirect), (.cmpIndirectIndexed, .indirectIndexed)]

/-- The three forms of CPX (R231). -/
def cpxForms : List (Instr × Mode) :=
  [(.cpxImmediate, .immediate), (.cpxZeroPage, .zeroPage), (.cpxAbsolute, .absolute)]

/-- The three forms of CPY (R232). -/
def cpyForms : List (Instr × Mode) :=
  [(.cpyImmediate, .immediate), (.cpyZeroPage, .zeroPage), (.cpyAbsolute, .absolute)]

/-- The four forms of INC (R233). -/
def incForms : List (Instr × Mode) :=
  [(.incZeroPage, .zeroPage), (.incZeroPageX, .zeroPageX), (.incAbsolute, .absolute),
   (.incAbsoluteX, .absoluteX)]

/-- The four forms of DEC (R234). -/
def decForms : List (Instr × Mode) :=
  [(.decZeroPage, .zeroPage), (.decZeroPageX, .zeroPageX), (.decAbsolute, .absolute),
   (.decAbsoluteX, .absoluteX)]

/-- The eight forms of LDA (R310). -/
def ldaForms : List (Instr × Mode) :=
  [(.ldaImmediate, .immediate), (.ldaZeroPage, .zeroPage), (.ldaZeroPageX, .zeroPageX),
   (.ldaAbsolute, .absolute), (.ldaAbsoluteX, .absoluteX), (.ldaAbsoluteY, .absoluteY),
   (.ldaIndexedIndirect, .indexedIndirect), (.ldaIndirectIndexed, .indirectIndexed)]

/-- The five forms of LDX (R311). -/
def ldxForms : List (Instr × Mode) :=
  [(.ldxImmediate, .immediate), (.ldxZeroPage, .zeroPage), (.ldxZeroPageY, .zeroPageY),
   (.ldxAbsolute, .absolute), (.ldxAbsoluteY, .absoluteY)]

/-- The five forms of LDY (R312). -/
def ldyForms : List (Instr × Mode) :=
  [(.ldyImmediate, .immediate), (.ldyZeroPage, .zeroPage), (.ldyZeroPageX, .zeroPageX),
   (.ldyAbsolute, .absolute), (.ldyAbsoluteX, .absoluteX)]

/-- The seven forms of STA (R313). -/
def staForms : List (Instr × Mode) :=
  [(.staZeroPage, .zeroPage), (.staZeroPageX, .zeroPageX), (.staAbsolute, .absolute),
   (.staAbsoluteX, .absoluteX), (.staAbsoluteY, .absoluteY), (.staIndexedIndirect, .indexedIndirect),
   (.staIndirectIndexed, .indirectIndexed)]

/-- The three forms of STX (R314). -/
def stxForms : List (Instr × Mode) :=
  [(.stxZeroPage, .zeroPage), (.stxZeroPageY, .zeroPageY), (.stxAbsolute, .absolute)]

/-- The three forms of STY (R315). -/
def styForms : List (Instr × Mode) :=
  [(.styZeroPage, .zeroPage), (.styZeroPageX, .zeroPageX), (.styAbsolute, .absolute)]

/-- The 105 illegal opcode bytes, as R112 lists them. -/
def illegalBytes : List Byte :=
  [0x02, 0x03, 0x04, 0x07, 0x0B, 0x0C, 0x0F, 0x12, 0x13, 0x14, 0x17, 0x1A, 0x1B, 0x1C, 0x1F] ++
  [0x22, 0x23, 0x27, 0x2B, 0x2F, 0x32, 0x33, 0x34, 0x37, 0x3A, 0x3B, 0x3C, 0x3F, 0x42, 0x43] ++
  [0x44, 0x47, 0x4B, 0x4F, 0x52, 0x53, 0x54, 0x57, 0x5A, 0x5B, 0x5C, 0x5F, 0x62, 0x63, 0x64] ++
  [0x67, 0x6B, 0x6F, 0x72, 0x73, 0x74, 0x77, 0x7A, 0x7B, 0x7C, 0x7F, 0x80, 0x82, 0x83, 0x87] ++
  [0x89, 0x8B, 0x8F, 0x92, 0x93, 0x97, 0x9B, 0x9C, 0x9E, 0x9F, 0xA3, 0xA7, 0xAB, 0xAF, 0xB2] ++
  [0xB3, 0xB7, 0xBB, 0xBF, 0xC2, 0xC3, 0xC7, 0xCB, 0xCF, 0xD2, 0xD3, 0xD4, 0xD7, 0xDA, 0xDB] ++
  [0xDC, 0xDF, 0xE2, 0xE3, 0xE7, 0xEB, 0xEF, 0xF2, 0xF3, 0xF4, 0xF7, 0xFA, 0xFB, 0xFC, 0xFF]

/-- The memory-writing forms: STA, STX, STY and the memory forms of the shifts, INC and DEC (R79, R343). -/
def storingForms : List (Instr × Mode) :=
  staForms ++ stxForms ++ styForms ++ aslForms ++ lsrForms ++ rolForms ++ rorForms ++ incForms ++ decForms

/-- The instructions that push (R79). -/
def pushingInstrs : List Instr := [.pha, .php, .jsr]

/-- Each branch with the flag it tests and the value it requires (R251 to R258). -/
def branchForms : List (Instr × Flag × Bool) :=
  [(.bcc, .c, false), (.bcs, .c, true), (.beq, .z, true), (.bne, .z, false), (.bmi, .n, true), (.bpl, .n, false),
   (.bvc, .v, false), (.bvs, .v, true)]

/-- The writers of A (R51). -/
def writesA (i : Instr) : Bool :=
  i.mnemonic ∈ [.lda, .adc, .sbc, .and, .ora, .eor, .pla, .txa, .tya] ||
    (i.mnemonic ∈ [.asl, .lsr, .rol, .ror] && i.mode == .accumulator)

/-- The writers of X (R51). -/
def writesX (i : Instr) : Bool := i.mnemonic ∈ [.ldx, .inx, .dex, .tax, .tsx]

/-- The writers of Y (R51). -/
def writesY (i : Instr) : Bool := i.mnemonic ∈ [.ldy, .iny, .dey, .tay]

/-- The writers of SP (R51). -/
def writesSp (i : Instr) : Bool := i.mnemonic ∈ [.pha, .php, .pla, .plp, .jsr, .rts, .rti, .txs]

/-- The instructions that write PC themselves or may add a displacement to it (R51, R131). -/
def writesPc (i : Instr) : Bool :=
  i.mnemonic ∈ [.jmp, .jsr, .rts, .rti, .brk, .bcc, .bcs, .beq, .bne, .bmi, .bpl, .bvc, .bvs]

/-- The flags each mnemonic writes, the rows of R150's table. -/
def flagsOf : Mnemonic → List Flag
  | .adc | .sbc => [.n, .v, .z, .c]
  | .and | .ora | .eor => [.n, .z]
  | .bit => [.n, .v, .z]
  | .asl | .lsr | .rol | .ror => [.n, .z, .c]
  | .cmp | .cpx | .cpy => [.n, .z, .c]
  | .inc | .dec | .inx | .iny | .dex | .dey => [.n, .z]
  | .lda | .ldx | .ldy => [.n, .z]
  | .tax | .tay | .txa | .tya | .tsx => [.n, .z]
  | .pla => [.n, .z]
  | .plp | .rti => [.n, .v, .u, .b, .d, .i, .z, .c]
  | .brk => [.b]
  | .clc | .sec => [.c]
  | .cli | .sei => [.i]
  | .cld | .sed => [.d]
  | .clv => [.v]
  | .sta | .stx | .sty | .txs | .pha | .php | .nop | .jmp | .jsr | .rts => []
  | .bcc | .bcs | .beq | .bne | .bmi | .bpl | .bvc | .bvs => []

/-- The flags a mnemonic writes with a constant, the digits of R150's table, and the N = 0 of LSR that R150 notes. -/
def constantFlags : Mnemonic → List (Flag × Bool)
  | .lsr => [(.n, false)]
  | .plp | .rti => [(.u, true), (.b, false)]
  | .brk => [(.b, true)]
  | .clc => [(.c, false)]
  | .sec => [(.c, true)]
  | .cli => [(.i, false)]
  | .sei => [(.i, true)]
  | .cld => [(.d, false)]
  | .sed => [(.d, true)]
  | .clv => [(.v, false)]
  | _ => []

/-- Push a list of bytes, first byte first. -/
def pushAll : List Byte → State → Except Fault State
  | [], s => .ok s
  | v :: l, s => do
    let s ← push v s
    pushAll l s

/-- Pull `n` bytes, answering them in the order pulled. -/
def pullAll : Nat → State → Except Fault (List Byte × State)
  | 0, s => .ok ([], s)
  | n + 1, s => do
    let (v, s) ← pull s
    let (l, s) ← pullAll n s
    .ok (v :: l, s)

end Sys2Proof.Claims

open Sys2Proof Sys2Proof.Machine Sys2Proof.Claims

/-! ### Encoding and decoding -/

/-- A few words written out from the spec: the three bytes the source itself gives (S6, S7), one more of each kind, two
illegal bytes, and whole instructions with their operand bytes (R100 to R103). -/
def Obligations.SampleWordsDecode : Prop :=
  decode 0xA9 = .ok .ldaImmediate ∧ decode 0x8D = .ok .staAbsolute ∧ decode 0x4C = .ok .jmpAbsolute ∧
  decode 0x6C = .ok .jmpIndirect ∧ decode 0x00 = .ok .brk ∧ decode 0x0A = .ok .aslAccumulator ∧
  decode 0xB6 = .ok .ldxZeroPageY ∧ decode 0x02 = .error (.illegalOpcode 0x02) ∧
  decode 0xFF = .error (.illegalOpcode 0xFF) ∧
  decodeBytes [0xA9, 0x05, 0x8D] = .ok (⟨.ldaImmediate, [0x05]⟩, [0x8D]) ∧
  decodeBytes [0x8D, 0x00, 0x02] = .ok (⟨.staAbsolute, [0x00, 0x02]⟩, []) ∧
  decodeBytes [0xE8, 0x8D] = .ok (⟨.inx, []⟩, [0x8D])

/-- The bytes of a well-formed instruction, with any operand bytes and anything after them, decode to that instruction
and leave what follows (R100 to R105, R110). -/
def Obligations.DecodeOfEncodeIsIdentity : Prop :=
  ∀ (c : Code) (rest : List Byte), WellFormed c = true → decodeBytes (encode c ++ rest) = .ok (c, rest)

/-- Bytes that decode are the encoding of a well-formed instruction and what follows: no bit is dropped, and two byte
strings never read as one instruction (R105, R110). -/
def Obligations.DecodedBytesAreTheEncoding : Prop :=
  ∀ (bytes rest : List Byte) (c : Code), decodeBytes bytes = .ok (c, rest) →
    WellFormed c = true ∧ encode c ++ rest = bytes

/-- The length of an instruction by its addressing mode, from the opcode byte alone (R104). The spec marks the sizes
per mode as general knowledge. -/
def Obligations.LengthFollowsTheMode : Prop :=
  ∀ i : Instr, i.info.byteSize = i.mode.byteSize ∧
    i.mode.byteSize =
      if i.mode ∈ [.implicit, .accumulator] then 1
      else if i.mode ∈ [.immediate, .zeroPage, .zeroPageX, .zeroPageY, .relative, .indexedIndirect, .indirectIndexed] then 2
      else 3

/-- A step whose opcode byte is one of the 105 illegal bytes ends in IllegalOpcode with that byte and its PC, no other
byte gives that fault, and a step whose opcode byte lies in the reserved window faults on the fetch (R72, R112, R341). -/
def Obligations.FetchFaults : Prop :=
  ∀ s : State, s.halted = false →
    (∀ b, (callback s).peek s.pc = some b → (b ∈ illegalBytes ↔ step s = .fault (.illegalOpcode b s.pc))) ∧
    (¬ Readable s.pc → step s = .fault (.reservedWindow s.pc .read))

/-! ### The step -/

/-- A step of a Running state is the host's callback, the fetch of the opcode byte at PC, and then `exec` of the
instruction that byte decodes to (R130, R362). That the callback is part of `step`, its moves taken from a list in
State, is the model's choice (log 1). -/
def Obligations.StepRunsTheDecodedInstr : Prop :=
  ∀ (s : State) (b : Byte) (i : Instr), s.halted = false → (callback s).peek s.pc = some b → decode b = .ok i →
    step s = exec i ((callback s).afterRead s.pc)

/-- A Halted state is final and has no step, and no other refusal is ever given (R47). That such a step is the
refusal `halted` is the model's choice (log 5). -/
def Obligations.OnlyHaltedStatesAreRefused : Prop :=
  ∀ (s : State) (r : Refusal), step s = .refused r ↔ (s.flag .b = true ∧ r = .halted)

/-! ### The bus -/

/-- `BusRead` in the four regions (R61, R62, R65). -/
def Obligations.BusReadByRegion : Prop :=
  ∀ (s : State) (addr : Word),
    (addr.toNat ≤ 0x1FFF → busRead addr s = .ok (Memory.read s.mem (addr.toNat % 0x0800), s)) ∧
    (0x2000 ≤ addr.toNat ∧ addr.toNat ≤ 0x3FFF → busRead addr s = .error (.reservedWindow addr .read)) ∧
    (0x4000 ≤ addr.toNat ∧ addr.toNat ≤ 0x7FFF → busRead addr s = .ok (0x00, s.note (.unmappedRead addr))) ∧
    (0x8000 ≤ addr.toNat ∧ s.prgSize = .k32 → busRead addr s = .ok (Memory.read s.mem addr.toNat, s)) ∧
    (0x8000 ≤ addr.toNat ∧ s.prgSize = .k16 →
      busRead addr s = .ok (Memory.read s.mem (0x8000 + addr.toNat % 0x4000), s))

/-- `BusWrite` in the four regions (R61, R63): a RAM write changes that byte and no other address's. -/
def Obligations.BusWriteByRegion : Prop :=
  ∀ (s : State) (addr : Word) (v : Byte),
    (addr.toNat ≤ 0x1FFF → ∃ t, busWrite addr v s = .ok t ∧ StoresByte s t addr v ∧ t = { s with mem := t.mem }) ∧
    (0x2000 ≤ addr.toNat ∧ addr.toNat ≤ 0x3FFF → busWrite addr v s = .error (.reservedWindow addr (.write v))) ∧
    (0x4000 ≤ addr.toNat ∧ addr.toNat ≤ 0x7FFF → busWrite addr v s = .ok (s.note (.unmappedWrite addr v))) ∧
    (0x8000 ≤ addr.toNat → busWrite addr v s = .error (.romWrite addr v))

/-- The four mirrors of a RAM byte: a write through any is read back through all (R64). -/
def Obligations.RamMirrorsAgree : Prop :=
  ∀ (s : State) (k j : Fin 4) (p : Nat) (v : Byte), p ≤ 0x07FF →
    ∃ t, busWrite (BitVec.ofNat 16 (p + 0x0800 * k)) v s = .ok t ∧
      busRead (BitVec.ofNat 16 (p + 0x0800 * j)) t = .ok (v, t)

/-- The 16-bit read: low byte first, the high byte's address wrapping to 0x0000, the first unreadable byte faulting
(R66). The wrap is the spec's decision D14. -/
def Obligations.WordReadIsLowByteFirst : Prop :=
  ∀ (s : State) (addr : Word),
    (∀ lo hi, s.peek addr = some lo → s.peek (addr + 1) = some hi →
      busRead16 addr s = .ok (zext hi <<< 8 ||| zext lo, (s.afterRead addr).afterRead (addr + 1))) ∧
    (¬ Readable addr → busRead16 addr s = .error (.reservedWindow addr .read)) ∧
    (Readable addr → ¬ Readable (addr + 1) → busRead16 addr s = .error (.reservedWindow (addr + 1) .read))

/-- No step changes the PRG image: every address of ROM reads as before (R11, R48, R386). -/
def Obligations.RomIsImmutable : Prop :=
  ∀ s t : State, step s = .next t → t.prgSize = s.prgSize ∧ ∀ q : Word, 0x8000 ≤ q.toNat → t.peek q = s.peek q

/-! ### The stack -/

/-- `Push(v)` writes at 0x0100 + SP, then decrements SP mod 256; `Pull()` increments SP mod 256, then reads at
0x0100 + SP; neither ever faults (R144, R145; that neither faults is an inference the spec draws from R61). -/
def Obligations.PushAndPullNeverFault : Prop :=
  ∀ s : State,
    (∀ v, ∃ t, push v s = .ok t ∧ StoresByte s t (0x0100 + zext s.sp) v ∧ t = { s with mem := t.mem, sp := s.sp - 1 }) ∧
    (∃ v, s.peek (0x0100 + zext (s.sp + 1)) = some v ∧ pull s = .ok (v, { s with sp := s.sp + 1 }))

/-- The stack is last in, first out under 8-bit wraparound: up to 256 pushes, then as many pulls, answer the bytes in
reverse order and leave SP where it was (R145, S3). -/
def Obligations.StackIsLastInFirstOut : Prop :=
  ∀ (s : State) (l : List Byte), l.length ≤ 256 →
    ∃ t u, pushAll l s = .ok t ∧ pullAll l.length t = .ok (l.reverse, u) ∧ u.sp = s.sp

/-! ### The resolver -/

/-- Immediate and Relative: the address is PC + 1, with no bus access in the resolver (R164, R168). -/
def Obligations.ImmediateAndRelativeAddressTheNextByte : Prop :=
  ∀ s : State, resolve .immediate s = .ok (s.pc + 1, s) ∧ resolve .relative s = .ok (s.pc + 1, s)

/-- ZeroPage, ZeroPageX, ZeroPageY: one read, the index added mod 256 inside the zero page; ZeroPageY is used by LDX and
STX only (R165, R166, R167). -/
def Obligations.ZeroPageModesWrapInThePage : Prop :=
  (∀ i : Instr, i.mode = .zeroPageY ↔ i = .ldxZeroPageY ∨ i = .stxZeroPageY) ∧
  ∀ s : State,
    (∀ b, s.peek (s.pc + 1) = some b →
      (∃ ea, resolve .zeroPage s = .ok (ea, s.afterRead (s.pc + 1)) ∧ ea.toNat = b.toNat) ∧
      (∃ ea, resolve .zeroPageX s = .ok (ea, s.afterRead (s.pc + 1)) ∧ ea.toNat = (b.toNat + s.x.toNat) % 256) ∧
      (∃ ea, resolve .zeroPageY s = .ok (ea, s.afterRead (s.pc + 1)) ∧ ea.toNat = (b.toNat + s.y.toNat) % 256)) ∧
    (¬ Readable (s.pc + 1) →
      ∀ mode ∈ [Mode.zeroPage, .zeroPageX, .zeroPageY],
        resolve mode s = .error (.reservedWindow (s.pc + 1) .read))

/-- Absolute, AbsoluteX, AbsoluteY: two reads, low byte first, the index added mod 2^16; the first operand byte in the
reserved window faults (R169, R170, R171). -/
def Obligations.AbsoluteModesAddTheIndex : Prop :=
  ∀ s : State,
    (∀ lo hi : Byte, s.peek (s.pc + 1) = some lo → s.peek (s.pc + 2) = some hi →
      let base := hi.toNat * 256 + lo.toNat
      let s1 := (s.afterRead (s.pc + 1)).afterRead (s.pc + 2)
      (∃ ea, resolve .absolute s = .ok (ea, s1) ∧ ea.toNat = base) ∧
      (∃ ea, resolve .absoluteX s = .ok (ea, s1) ∧ ea.toNat = (base + s.x.toNat) % 65536) ∧
      (∃ ea, resolve .absoluteY s = .ok (ea, s1) ∧ ea.toNat = (base + s.y.toNat) % 65536)) ∧
    (∀ q, FirstUnreadable [s.pc + 1, s.pc + 2] q →
      ∀ mode ∈ [Mode.absolute, .absoluteX, .absoluteY], resolve mode s = .error (.reservedWindow q .read))

/-- Indirect: four reads; the target's high byte comes from the pointer's own page when its low byte is 0xFF; the first
byte in the reserved window faults; only JMP uses it (R172). -/
def Obligations.IndirectHasThePageWrapBug : Prop :=
  (∀ i : Instr, i.mode = .indirect ↔ i = .jmpIndirect) ∧
  ∀ s : State,
    (∀ q, FirstUnreadable [s.pc + 1, s.pc + 2] q → resolve .indirect s = .error (.reservedWindow q .read)) ∧
    (∀ pl ph : Byte, s.peek (s.pc + 1) = some pl → s.peek (s.pc + 2) = some ph →
      let ptr := zext ph <<< 8 ||| zext pl
      let second := if pl = 0xFF then ptr &&& 0xFF00 else ptr + 1
      (∀ lo hi : Byte, s.peek ptr = some lo → s.peek second = some hi →
        resolve .indirect s =
          .ok (zext hi <<< 8 ||| zext lo,
            (((s.afterRead (s.pc + 1)).afterRead (s.pc + 2)).afterRead ptr).afterRead second)) ∧
      (∀ q, FirstUnreadable [ptr, second] q → resolve .indirect s = .error (.reservedWindow q .read)))

/-- IndexedIndirect: the pointer is at operand + X mod 256. IndirectIndexed: the pointer is at the operand, and Y is
added to it mod 2^16. In both the pointer never leaves the zero page, so only the operand byte's read can fault (R173,
R174). -/
def Obligations.ZeroPagePointersStayInThePage : Prop :=
  ∀ s : State,
    (∀ b lo hi : Byte, s.peek (s.pc + 1) = some b →
      (s.peek (zext (b + s.x)) = some lo → s.peek (zext (b + s.x + 1)) = some hi →
        resolve .indexedIndirect s = .ok (zext hi <<< 8 ||| zext lo, s.afterRead (s.pc + 1))) ∧
      (s.peek (zext b) = some lo → s.peek (zext (b + 1)) = some hi →
        resolve .indirectIndexed s = .ok ((zext hi <<< 8 ||| zext lo) + zext s.y, s.afterRead (s.pc + 1)))) ∧
    (¬ Readable (s.pc + 1) →
      ∀ mode ∈ [Mode.indexedIndirect, .indirectIndexed],
        resolve mode s = .error (.reservedWindow (s.pc + 1) .read))

/-- The resolver writes no register, no flag and no memory: only the log may grow (R160). -/
def Obligations.ResolverOnlyReads : Prop :=
  ∀ (mode : Mode) (s t : State) (ea : Word), resolve mode s = .ok (ea, t) → OnlyLog s t

/-- An instruction whose resolver read faults ends in that fault, whatever it would have done (R21, R345, R347). -/
def Obligations.ResolverFaultEndsTheInstruction : Prop :=
  ∀ (i : Instr) (s : State) (f : Fault), i.mode ∉ [.implicit, .accumulator] → resolve i.mode s = .error f →
    exec i s = .fault f

/-- The resolver asked for Implicit or Accumulator faults with ResolverMisuse, and no step raises it (R344). -/
def Obligations.ResolverMisuseIsUnreachable : Prop :=
  ∀ s : State,
    (∀ mode ∈ [Mode.implicit, .accumulator], resolve mode s = .error (.resolverMisuse mode)) ∧
    ∀ mode : Mode, step s ≠ .fault (.resolverMisuse mode)

/-! ### Results: arithmetic and logic -/

/-- ADC in its eight forms (R141, R190). -/
def Obligations.AdcAddsWithCarry : Prop :=
  Encodes [0x69, 0x65, 0x75, 0x6D, 0x7D, 0x79, 0x61, 0x71] adcForms ∧
  ∀ f ∈ adcForms, ReadsOperand f.1 f.2
    (fun m s => { s with a := s.a + m + BitVec.ofNat 8 (s.flag .c).toNat })
    (fun m s =>
      let r := s.a + m + BitVec.ofNat 8 (s.flag .c).toNat
      (.c, decide (s.a.toNat + m.toNat + (s.flag .c).toNat > 255)) ::
        (.v, decide (((m ^^^ r) &&& (r ^^^ s.a) &&& 0x80) ≠ 0)) :: znFlags r)

/-- SBC in its eight forms: ADC with the operand complemented, the overflow formula reading the complemented operand
(R191). -/
def Obligations.SbcAddsTheComplementWithCarry : Prop :=
  Encodes [0xE9, 0xE5, 0xF5, 0xED, 0xFD, 0xF9, 0xE1, 0xF1] sbcForms ∧
  ∀ f ∈ sbcForms, ReadsOperand f.1 f.2
    (fun m s => { s with a := s.a + ~~~m + BitVec.ofNat 8 (s.flag .c).toNat })
    (fun m s =>
      let r := s.a + ~~~m + BitVec.ofNat 8 (s.flag .c).toNat
      (.c, decide (s.a.toNat + (~~~m).toNat + (s.flag .c).toNat > 255)) ::
        (.v, decide (((~~~m ^^^ r) &&& (r ^^^ s.a) &&& 0x80) ≠ 0)) :: znFlags r)

/-- AND, ORA and EOR in their eight forms each (R192, R193, R194). -/
def Obligations.LogicCombinesIntoA : Prop :=
  Encodes [0x29, 0x25, 0x35, 0x2D, 0x3D, 0x39, 0x21, 0x31] andForms ∧
  Encodes [0x09, 0x05, 0x15, 0x0D, 0x1D, 0x19, 0x01, 0x11] oraForms ∧
  Encodes [0x49, 0x45, 0x55, 0x4D, 0x5D, 0x59, 0x41, 0x51] eorForms ∧
  (∀ f ∈ andForms, ReadsOperand f.1 f.2 (fun m s => { s with a := s.a &&& m }) (fun m s => znFlags (s.a &&& m))) ∧
  (∀ f ∈ oraForms, ReadsOperand f.1 f.2 (fun m s => { s with a := s.a ||| m }) (fun m s => znFlags (s.a ||| m))) ∧
  (∀ f ∈ eorForms, ReadsOperand f.1 f.2 (fun m s => { s with a := s.a ^^^ m }) (fun m s => znFlags (s.a ^^^ m)))

/-- BIT in its two forms: Z from A AND m, N and V from m, A unchanged (R195). All of it is the spec's decision D12. -/
def Obligations.BitTestsTheOperand : Prop :=
  Encodes [0x24, 0x2C] bitForms ∧
  ∀ f ∈ bitForms, ReadsOperand f.1 f.2 (fun _ s => s)
    (fun m s => [(.z, decide (s.a &&& m = 0)), (.n, m.getLsbD 7), (.v, m.getLsbD 6)])

/-! ### Results: shifts, compares, increments -/

/-- ASL, LSR, ROL and ROR, on A and on memory in their four forms: C is the bit shifted out, a rotate feeds the prior
C in, ZN of the result, one read and one write (R210 to R213). ZN is the spec's decision D13, and that there is no
dummy write its decision D24. -/
def Obligations.ShiftsMoveOneBitThroughCarry : Prop :=
  Encodes [0x0A, 0x06, 0x16, 0x0E, 0x1E] ((.aslAccumulator, .accumulator) :: aslForms) ∧
  Encodes [0x4A, 0x46, 0x56, 0x4E, 0x5E] ((.lsrAccumulator, .accumulator) :: lsrForms) ∧
  Encodes [0x2A, 0x26, 0x36, 0x2E, 0x3E] ((.rolAccumulator, .accumulator) :: rolForms) ∧
  Encodes [0x6A, 0x66, 0x76, 0x6E, 0x7E] ((.rorAccumulator, .accumulator) :: rorForms) ∧
  ChangesRegisters .aslAccumulator (fun s => { s with a := BitVec.ofNat 8 (2 * s.a.toNat) })
    (fun s => (.c, s.a.getLsbD 7) :: znFlags (BitVec.ofNat 8 (2 * s.a.toNat))) ∧
  ChangesRegisters .lsrAccumulator (fun s => { s with a := BitVec.ofNat 8 (s.a.toNat / 2) })
    (fun s => (.c, s.a.getLsbD 0) :: znFlags (BitVec.ofNat 8 (s.a.toNat / 2))) ∧
  ChangesRegisters .rolAccumulator (fun s => { s with a := BitVec.ofNat 8 (2 * s.a.toNat + (s.flag .c).toNat) })
    (fun s => (.c, s.a.getLsbD 7) :: znFlags (BitVec.ofNat 8 (2 * s.a.toNat + (s.flag .c).toNat))) ∧
  ChangesRegisters .rorAccumulator (fun s => { s with a := BitVec.ofNat 8 (s.a.toNat / 2 + 128 * (s.flag .c).toNat) })
    (fun s => (.c, s.a.getLsbD 0) :: znFlags (BitVec.ofNat 8 (s.a.toNat / 2 + 128 * (s.flag .c).toNat))) ∧
  (∀ f ∈ aslForms, ModifiesMemory f.1 f.2 (fun v _ => BitVec.ofNat 8 (2 * v.toNat))
    (fun v _ => (.c, v.getLsbD 7) :: znFlags (BitVec.ofNat 8 (2 * v.toNat)))) ∧
  (∀ f ∈ lsrForms, ModifiesMemory f.1 f.2 (fun v _ => BitVec.ofNat 8 (v.toNat / 2))
    (fun v _ => (.c, v.getLsbD 0) :: znFlags (BitVec.ofNat 8 (v.toNat / 2)))) ∧
  (∀ f ∈ rolForms, ModifiesMemory f.1 f.2 (fun v c => BitVec.ofNat 8 (2 * v.toNat + c.toNat))
    (fun v c => (.c, v.getLsbD 7) :: znFlags (BitVec.ofNat 8 (2 * v.toNat + c.toNat)))) ∧
  (∀ f ∈ rorForms, ModifiesMemory f.1 f.2 (fun v c => BitVec.ofNat 8 (v.toNat / 2 + 128 * c.toNat))
    (fun v c => (.c, v.getLsbD 0) :: znFlags (BitVec.ofNat 8 (v.toNat / 2 + 128 * c.toNat))))

/-- CMP, CPX and CPY in all their forms: C is register ≥ operand unsigned, Z is equality, N is bit 7 of the wrapped
difference; no register is written (R147, R230, R231, R232). -/
def Obligations.ComparesWriteFlagsOnly : Prop :=
  Encodes [0xC9, 0xC5, 0xD5, 0xCD, 0xDD, 0xD9, 0xC1, 0xD1] cmpForms ∧
  Encodes [0xE0, 0xE4, 0xEC] cpxForms ∧
  Encodes [0xC0, 0xC4, 0xCC] cpyForms ∧
  (∀ f ∈ cmpForms, ReadsOperand f.1 f.2 (fun _ s => s)
    (fun m s => [(.c, decide (m.toNat ≤ s.a.toNat)), (.z, decide (s.a = m)), (.n, (s.a - m).getLsbD 7)])) ∧
  (∀ f ∈ cpxForms, ReadsOperand f.1 f.2 (fun _ s => s)
    (fun m s => [(.c, decide (m.toNat ≤ s.x.toNat)), (.z, decide (s.x = m)), (.n, (s.x - m).getLsbD 7)])) ∧
  (∀ f ∈ cpyForms, ReadsOperand f.1 f.2 (fun _ s => s)
    (fun m s => [(.c, decide (m.toNat ≤ s.y.toNat)), (.z, decide (s.y = m)), (.n, (s.y - m).getLsbD 7)]))

/-- INC and DEC in their four forms each: memory plus or minus one mod 256, ZN of the result (R233, R234). -/
def Obligations.IncAndDecChangeMemoryByOne : Prop :=
  Encodes [0xE6, 0xF6, 0xEE, 0xFE] incForms ∧
  Encodes [0xC6, 0xD6, 0xCE, 0xDE] decForms ∧
  (∀ f ∈ incForms, ModifiesMemory f.1 f.2 (fun v _ => v + 1) (fun v _ => znFlags (v + 1))) ∧
  (∀ f ∈ decForms, ModifiesMemory f.1 f.2 (fun v _ => v - 1) (fun v _ => znFlags (v - 1)))

/-- INX, INY, DEX and DEY: the register plus or minus one mod 256, ZN of the result (R235 to R238). -/
def Obligations.IndexRegistersStepByOne : Prop :=
  Encodes [0xE8, 0xC8, 0xCA, 0x88] [(.inx, .implicit), (.iny, .implicit), (.dex, .implicit), (.dey, .implicit)] ∧
  ChangesRegisters .inx (fun s => { s with x := s.x + 1 }) (fun s => znFlags (s.x + 1)) ∧
  ChangesRegisters .iny (fun s => { s with y := s.y + 1 }) (fun s => znFlags (s.y + 1)) ∧
  ChangesRegisters .dex (fun s => { s with x := s.x - 1 }) (fun s => znFlags (s.x - 1)) ∧
  ChangesRegisters .dey (fun s => { s with y := s.y - 1 }) (fun s => znFlags (s.y - 1))

/-! ### Results: control transfer -/

/-- The eight branches: not taken PC + 2 with no read; taken the displacement at PC + 1 is added, sign extended, and
then 2; a taken branch whose displacement lies in the reserved window faults (R250 to R258). The spec marks which
flag each tests as general knowledge; that an untaken branch reads nothing is its decision D31, and the advance after
a taken one its resolution of C1. -/
def Obligations.BranchesAddTheDisplacementThenAdvance : Prop :=
  Encodes [0x90, 0xB0, 0xF0, 0xD0, 0x30, 0x10, 0x50, 0x70] (branchForms.map fun b => (b.1, .relative)) ∧
  ∀ b ∈ branchForms, ∀ s : State,
    (s.flag b.2.1 ≠ b.2.2 → exec b.1 s = .next { s with pc := s.pc + 2 }) ∧
    (∀ d, s.flag b.2.1 = b.2.2 → s.peek (s.pc + 1) = some d →
      exec b.1 s = .next { s.afterRead (s.pc + 1) with pc := s.pc + d.signExtend 16 + 2 }) ∧
    (s.flag b.2.1 = b.2.2 → ¬ Readable (s.pc + 1) → exec b.1 s = .fault (.reservedWindow (s.pc + 1) .read))

/-- JMP in its two forms: PC is the resolved address, with no advance and no flag; the first operand or pointer byte
in the reserved window faults (R259, R260). -/
def Obligations.JumpSetsPcToTheTarget : Prop :=
  Encodes [0x4C, 0x6C] [(.jmpAbsolute, .absolute), (.jmpIndirect, .indirect)] ∧
  ∀ s : State,
    (∀ f ∈ [(Instr.jmpAbsolute, Mode.absolute), (.jmpIndirect, .indirect)],
      (∀ ea s1, resolve f.2 s = .ok (ea, s1) → exec f.1 s = .next { s with pc := ea, diag := s1.diag }) ∧
      (∀ q, FirstUnreadable [s.pc + 1, s.pc + 2] q → exec f.1 s = .fault (.reservedWindow q .read))) ∧
    (∀ lo hi : Byte, s.peek (s.pc + 1) = some lo → s.peek (s.pc + 2) = some hi →
      (∃ t, exec .jmpAbsolute s = .next t ∧ t.pc = zext hi <<< 8 ||| zext lo) ∧
      let ptr := zext hi <<< 8 ||| zext lo
      let second := if lo = 0xFF then ptr &&& 0xFF00 else ptr + 1
      (∀ tl th : Byte, s.peek ptr = some tl → s.peek second = some th →
        ∃ t, exec .jmpIndirect s = .next t ∧ t.pc = zext th <<< 8 ||| zext tl) ∧
      (∀ q, FirstUnreadable [ptr, second] q → exec .jmpIndirect s = .fault (.reservedWindow q .read)))

/-- JSR: the target is resolved before the pushes; P + 2 is pushed, high byte first; SP drops by two; PC is the target;
the first operand byte in the reserved window faults (R261). -/
def Obligations.JsrPushesTheReturnAddressLessOne : Prop :=
  Encodes [0x20] [(.jsr, .absolute)] ∧
  ∀ s : State,
    (∀ lo hi : Byte, s.peek (s.pc + 1) = some lo → s.peek (s.pc + 2) = some hi →
      ∃ t, exec .jsr s = .next t ∧
        t = { s with
          mem := t.mem, sp := s.sp - 2, pc := zext hi <<< 8 ||| zext lo,
          diag := ((s.afterRead (s.pc + 1)).afterRead (s.pc + 2)).diag } ∧
        ∀ q : Word, t.peek q =
          if SameRamByte (0x0100 + zext (s.sp - 1)) q then some (lowByte (s.pc + 2))
          else if SameRamByte (0x0100 + zext s.sp) q then some (highByte (s.pc + 2))
          else s.peek q) ∧
    (∀ q, FirstUnreadable [s.pc + 1, s.pc + 2] q → exec .jsr s = .fault (.reservedWindow q .read))

/-- RTS: PC is the word pulled, low byte first, plus one; SP rises by two; it never faults (R146, R262). The + 1 is
the spec's resolution of C2. -/
def Obligations.RtsReturnsPastThePulledAddress : Prop :=
  Encodes [0x60] [(.rts, .implicit)] ∧
  ∀ (s : State) (lo hi : Byte), s.peek (0x0100 + zext (s.sp + 1)) = some lo →
    s.peek (0x0100 + zext (s.sp + 2)) = some hi →
      exec .rts s = .next { s with sp := s.sp + 2, pc := (zext hi <<< 8 ||| zext lo) + 1 }

/-- RTI: SR is the pulled byte with B cleared and U set, then PC is the word pulled, with no + 1 (R263). All of it is
the spec's decision D6. -/
def Obligations.RtiRestoresStatusThenPc : Prop :=
  Encodes [0x40] [(.rti, .implicit)] ∧
  ∀ (s : State) (p lo hi : Byte), s.peek (0x0100 + zext (s.sp + 1)) = some p →
    s.peek (0x0100 + zext (s.sp + 2)) = some lo → s.peek (0x0100 + zext (s.sp + 3)) = some hi →
      exec .rti s =
        .next { s with sp := s.sp + 3, sr := (p &&& 0xEF) ||| 0x20, pc := zext hi <<< 8 ||| zext lo }

/-- JSR and then RTS at the target: PC is the address after the JSR and SP is as before, whatever the target, when
nothing is run between (R262: the inverse of JSR's "return address - 1"). -/
def Obligations.RtsUndoesJsr : Prop :=
  ∀ s t : State, exec .jsr s = .next t → ∃ u, exec .rts t = .next u ∧ u.pc = s.pc + 3 ∧ u.sp = s.sp

/-- BRK sets SR.B, keeps PC and changes nothing else, so the state is Halted and has no further step; NOP only
advances PC (R264, R265, R350). That PC keeps BRK's address is the spec's resolution of C3, its size of one byte the
decision D23. That the run state is read off SR.B, and that a step of a Halted state answers the refusal `halted`, are
the model's choice (log 5). -/
def Obligations.BrkHaltsAndNopAdvances : Prop :=
  Encodes [0x00, 0xEA] [(.brk, .implicit), (.nop, .implicit)] ∧
  ∀ s : State,
    (∃ t, exec .brk s = .next t ∧ FlagsWritten s t [(.b, true)] ∧ t = { s with sr := t.sr } ∧
      t.runState = .halted ∧ step t = .refused .halted) ∧
    exec .nop s = .next { s with pc := s.pc + 1 }

/-! ### Results: stack, flags, transfers, loads, stores -/

/-- PHA and PHP push A and SR with bits 4 and 5 set; no register but SP and PC changes (R280, R281). That PHP pushes
B and U as 1 is the spec's decision D7. -/
def Obligations.PushInstructionsStoreOneByte : Prop :=
  Encodes [0x48, 0x08] [(.pha, .implicit), (.php, .implicit)] ∧
  ∀ s : State,
    (∃ t, exec .pha s = .next t ∧ StoresByte s t (0x0100 + zext s.sp) s.a ∧
      t = { s with mem := t.mem, sp := s.sp - 1, pc := s.pc + 1 }) ∧
    (∃ t, exec .php s = .next t ∧ StoresByte s t (0x0100 + zext s.sp) (s.sr ||| 0x30) ∧
      t = { s with mem := t.mem, sp := s.sp - 1, pc := s.pc + 1 })

/-- PLA loads A with ZN, PLP loads SR with B cleared and U set, from the byte above SP (R282, R283). ZN is the spec's
decision D9, B and U its decision D7. -/
def Obligations.PullInstructionsLoadOneByte : Prop :=
  Encodes [0x68, 0x28] [(.pla, .implicit), (.plp, .implicit)] ∧
  ∀ (s : State) (v : Byte), s.peek (0x0100 + zext (s.sp + 1)) = some v →
    (∃ t, exec .pla s = .next t ∧ FlagsWritten s t (znFlags v) ∧
      t = { s with a := v, sr := t.sr, sp := s.sp + 1, pc := s.pc + 1 }) ∧
    exec .plp s = .next { s with sr := (v &&& 0xEF) ||| 0x20, sp := s.sp + 1, pc := s.pc + 1 }

/-- CLC, SEC, CLI, SEI, CLD, SED and CLV write their one flag and nothing else (R284 to R290). The spec marks which
flag each mnemonic names as general knowledge. -/
def Obligations.FlagInstructionsWriteOneFlag : Prop :=
  Encodes [0x18, 0x38, 0x58, 0x78, 0xD8, 0xF8, 0xB8]
    [(.clc, .implicit), (.sec, .implicit), (.cli, .implicit), (.sei, .implicit), (.cld, .implicit), (.sed, .implicit), (.clv, .implicit)] ∧
  ∀ p ∈ [(Instr.clc, Flag.c, false), (.sec, .c, true), (.cli, .i, false), (.sei, .i, true), (.cld, .d, false),
      (.sed, .d, true), (.clv, .v, false)],
    ChangesRegisters p.1 (fun s => s) (fun _ => [(p.2.1, p.2.2)])

/-- TAX, TAY, TXA, TYA and TSX copy a register and apply ZN to it; TXS copies X to SP and writes no flag (R291 to
R296). The spec marks the source and destination of each as general knowledge. -/
def Obligations.TransfersCopyOneRegister : Prop :=
  Encodes [0xAA, 0xA8, 0x8A, 0x98, 0xBA, 0x9A]
    [(.tax, .implicit), (.tay, .implicit), (.txa, .implicit), (.tya, .implicit), (.tsx, .implicit), (.txs, .implicit)] ∧
  ChangesRegisters .tax (fun s => { s with x := s.a }) (fun s => znFlags s.a) ∧
  ChangesRegisters .tay (fun s => { s with y := s.a }) (fun s => znFlags s.a) ∧
  ChangesRegisters .txa (fun s => { s with a := s.x }) (fun s => znFlags s.x) ∧
  ChangesRegisters .tya (fun s => { s with a := s.y }) (fun s => znFlags s.y) ∧
  ChangesRegisters .tsx (fun s => { s with x := s.sp }) (fun s => znFlags s.sp) ∧
  ChangesRegisters .txs (fun s => { s with sp := s.x }) (fun _ => [])

/-- LDA, LDX and LDY in all their forms: the register is the operand byte, ZN of it (R310, R311, R312). The spec
marks them as general knowledge, ZN as its decision D10. -/
def Obligations.LoadsSetTheRegister : Prop :=
  Encodes [0xA9, 0xA5, 0xB5, 0xAD, 0xBD, 0xB9, 0xA1, 0xB1] ldaForms ∧
  Encodes [0xA2, 0xA6, 0xB6, 0xAE, 0xBE] ldxForms ∧
  Encodes [0xA0, 0xA4, 0xB4, 0xAC, 0xBC] ldyForms ∧
  (∀ f ∈ ldaForms, ReadsOperand f.1 f.2 (fun m s => { s with a := m }) (fun m _ => znFlags m)) ∧
  (∀ f ∈ ldxForms, ReadsOperand f.1 f.2 (fun m s => { s with x := m }) (fun m _ => znFlags m)) ∧
  (∀ f ∈ ldyForms, ReadsOperand f.1 f.2 (fun m s => { s with y := m }) (fun m _ => znFlags m))

/-- STA, STX and STY in all their forms: one write at the effective address, no flag, no read there (R313, R314,
R315). The spec marks them as general knowledge, the absence of flags and reads as its decision D11. -/
def Obligations.StoresWriteTheRegister : Prop :=
  Encodes [0x85, 0x95, 0x8D, 0x9D, 0x99, 0x81, 0x91] staForms ∧
  Encodes [0x86, 0x96, 0x8E] stxForms ∧
  Encodes [0x84, 0x94, 0x8C] styForms ∧
  (∀ f ∈ staForms, StoresRegister f.1 f.2 fun s => s.a) ∧
  (∀ f ∈ stxForms, StoresRegister f.1 f.2 fun s => s.x) ∧
  (∀ f ∈ styForms, StoresRegister f.1 f.2 fun s => s.y)

/-! ### Frames and whole-machine rules -/

/-- An instruction the table of R51 does not name as a writer of A, X, Y, SP, PC or SR leaves that register unchanged
(PC: advanced by the instruction's length). The spec derives the table from the instruction rules. -/
def Obligations.OnlyNamedInstructionsWriteARegister : Prop :=
  ∀ (i : Instr) (s t : State), exec i s = .next t →
    (writesA i = false → t.a = s.a) ∧ (writesX i = false → t.x = s.x) ∧ (writesY i = false → t.y = s.y) ∧
    (writesSp i = false → t.sp = s.sp) ∧ (writesPc i = false → t.pc = nextPc s i.mode) ∧
    (flagsOf i.mnemonic = [] → t.sr = s.sr)

/-- An instruction leaves every flag its row of R150 does not mark unchanged, and writes the constants its row gives.
The spec derives the table from the instruction rules. -/
def Obligations.FlagsAreWrittenAsTabled : Prop :=
  ∀ (i : Instr) (s t : State), exec i s = .next t →
    (∀ f, f ∉ flagsOf i.mnemonic → t.flag f = s.flag f) ∧
    (∀ p ∈ constantFlags i.mnemonic, t.flag p.1 = p.2)

/-- The frame of every form that stores nothing: all memory reads as before (R79). -/
def Obligations.NonStoringFormsKeepMemory : Prop :=
  ∀ (i : Instr) (s t : State), i ∉ storingForms.map Prod.fst → i ∉ pushingInstrs → exec i s = .next t →
    ∀ q : Word, t.peek q = s.peek q

/-- The frame of the storing forms: all memory reads as before but the RAM byte at the effective address the resolver
gives (R79, R313 to R315, R210 to R213, R233, R234). -/
def Obligations.StoringFormsWriteOnlyTheirByte : Prop :=
  ∀ f ∈ storingForms, ∀ (s s1 t : State) (ea : Word), exec f.1 s = .next t → resolve f.2 s = .ok (ea, s1) →
    ∀ q : Word, ¬ SameRamByte ea q → t.peek q = s.peek q

/-- The frame of PHA, PHP and JSR: all memory reads as before but the stack bytes pushed (R79, R144, R261). -/
def Obligations.PushesWriteOnlyTheStackSlots : Prop :=
  ∀ i ∈ pushingInstrs, ∀ s t : State, exec i s = .next t →
    ∀ q : Word, ¬ SameRamByte (stackAddr s.sp) q → ¬ (i = .jsr ∧ SameRamByte (stackAddr (s.sp - 1)) q) →
      t.peek q = s.peek q

/-- No instruction changes the image's size or the host's coming moves, and the log only grows (R11, R49, R361). -/
def Obligations.ExecKeepsTheRest : Prop :=
  ∀ (i : Instr) (s t : State), exec i s = .next t →
    t.prgSize = s.prgSize ∧ t.hostMoves = s.hostMoves ∧ s.diag <:+ t.diag

/-- Only BRK sets SR.B: an instruction after which B is newly set is BRK (R41, R363). -/
def Obligations.OnlyBrkSetsBreak : Prop :=
  ∀ (i : Instr) (s t : State), exec i s = .next t → s.flag .b = false → t.flag .b = true → i = .brk

/-- RomWrite is raised by the storing forms only, and only for an address of ROM (R343). -/
def Obligations.OnlyStoringFormsFaultOnRom : Prop :=
  ∀ (i : Instr) (s : State) (addr : Word) (v : Byte), exec i s = .fault (.romWrite addr v) →
    i ∈ storingForms.map Prod.fst ∧ 0x8000 ≤ addr.toNat

/-- An Implicit or Accumulator instruction never faults: its step can fault on the opcode fetch only (R145, R347). -/
def Obligations.ImplicitInstructionsNeverFault : Prop :=
  ∀ (i : Instr) (s : State), i.mode ∈ [.implicit, .accumulator] → ∃ t, exec i s = .next t

/-- SR.D has no effect on ADC and SBC: the state after, with D as it was set, is the same (R151). -/
def Obligations.DecimalFlagChangesNoSum : Prop :=
  ∀ f ∈ adcForms ++ sbcForms, ∀ (s t : State) (d : Bool), exec f.1 s = .next t →
    exec f.1 (s.setFlag .d d) = .next (t.setFlag .d d)

/-- The invariant: memory in its canonical form, every listed cell one of the hardware's, SR.U set. Every step keeps
it, from every state that meets it (R42, R48). That SR.U stays 1 rests on the spec's decisions D6 and D7; the
canonical form is the model's own (logs 3 and 4). -/
def Obligations.StepKeepsTheInvariant : Prop :=
  ∀ s t : State, s.Inv → step s = .next t → t.Inv

/-- The invariant holds right after reset. `State.reset` is the model's choice where the spec leaves a launch
parameter (logs 2, 3 and 4). -/
def Obligations.ResetMeetsTheInvariant : Prop := State.reset.Inv

/-! ### Launch, host and run loop -/

/-- The reset state of any launch that stages nothing (R50, R380, R381): A, X, Y cleared, SR = 0x24, SP = SP_RESET,
PC from the image's vector bytes, RAM = RAM_INIT, ROM = the image, run state Running. The flags other than I and U
are 0 by the spec's decision D4; SP_RESET and RAM_INIT are launch parameters by D2 and D30. That
the run state is read off SR.B is the model's choice (log 5), and that the launch makes no `MemWrite16` too (log 14). -/
def Obligations.LaunchGivesTheResetState : Prop :=
  ∀ l : Launch, l.staged = none → (l.prg.length = 0x4000 ∨ l.prg.length = 0x8000) →
    ∃ s, launch l = .ok s ∧ s.a = 0 ∧ s.x = 0 ∧ s.y = 0 ∧ s.sp = l.spReset ∧ s.sr = 0x24 ∧ s.runState = .running ∧
      s.diag = [] ∧
      s.pc.toNat = (l.prg.getD (l.prg.length - 3) 0).toNat * 256 + (l.prg.getD (l.prg.length - 4) 0).toNat ∧
      (∀ q : Word, q.toNat ≤ 0x1FFF → s.peek q = some (l.ramInit.toList.getD (q.toNat % 0x0800) 0)) ∧
      (∀ q : Word, 0x8000 ≤ q.toNat → s.peek q = some (l.prg.getD ((q.toNat - 0x8000) % l.prg.length) 0))

/-- A staged launch is the reset, then the loads into RAM, then PC at ENTRY: nothing but PC and RAM differs from the
same launch without staging (R383). ENTRY is the spec's decision D26. That the launch makes no `MemWrite16` is the
model's choice (log 14). -/
def Obligations.StagedLaunchLoadsRamAndEnters : Prop :=
  ∀ (l : Launch) (p : StagedProgram) (r : State), l.staged = some p → launch { l with staged := none } = .ok r →
    (∀ st ∈ p.loads, st.offset + st.bytes.length ≤ 0x0800) →
    ∃ s, launch l = .ok s ∧ s = { r with pc := p.entry, mem := s.mem } ∧
      (∀ q : Word, 0x8000 ≤ q.toNat → s.peek q = r.peek q) ∧
      (∀ st, p.loads = [st] → ∀ k, k < 0x0800 →
        Memory.read s.mem k =
          if st.offset ≤ k ∧ k < st.offset + st.bytes.length then st.bytes.getD (k - st.offset) 0
          else Memory.read r.mem k)

/-- The launch refusals: an image of another length, and a LoadRam that would pass the end of RAM (R364). That the launch
makes no `MemWrite16`, whose fault could end it before, is the model's choice (log 14). -/
def Obligations.LaunchRefusesBadImagesAndLoads : Prop :=
  (∀ l : Launch, l.prg.length ≠ 0x4000 → l.prg.length ≠ 0x8000 → launch l = .error (.prgLength l.prg.length)) ∧
  (∀ (l : Launch) (p : StagedProgram) (before after : List Staging) (st : Staging),
    (l.prg.length = 0x4000 ∨ l.prg.length = 0x8000) → l.staged = some p → p.loads = before ++ st :: after →
    (∀ b ∈ before, b.offset + b.bytes.length ≤ 0x0800) → st.offset + st.bytes.length > 0x0800 →
    launch l = .error (.loadRamPastEnd st.offset st.bytes.length))

/-- The callback writes nothing but RAM[0x00FE] and RAM[0x00FF]: each gets the host's byte or is left (R361). That the
host's moves are a list in State, and that it leaves both bytes when the list is empty, is the model's choice (log 1). -/
def Obligations.CallbackWritesOnlyTheHostCells : Prop :=
  (∀ s : State, s.hostMoves = [] → callback s = s) ∧
  ∀ (s : State) (mv : HostMove) (rest : List HostMove), s.hostMoves = mv :: rest →
    callback s = { s with hostMoves := rest, mem := (callback s).mem } ∧
    ∀ q : Word, (callback s).peek q =
      if SameRamByte 0x00FE q then (mv.random.or (s.peek q))
      else if SameRamByte 0x00FF q then (mv.direction.or (s.peek q))
      else s.peek q

/-- The run loop (R362, R363): a state with B set ends it Halted with no callback; else one step is taken, and a
fault ends it with the state the step started from. The place of the Break test is the spec's decision D18; that a
fault is an outcome of `step`, the fuel and the form of the result are the model's choice (logs 5 and 10). -/
def Obligations.RunLoopStopsAtBreakAndFault : Prop :=
  ∀ (n : Nat) (s : State),
    (s.flag .b = true → runLoop n s = .halted s) ∧
    (∀ t, step s = .next t → runLoop (n + 1) s = runLoop n t) ∧
    (∀ f, step s = .fault f → runLoop (n + 1) s = .faulted (callback s) f)
end

