-- ==== Sys2Proof/Machine/Assembly.lean ====
section
/-! DEFINITION. The conventional assembler syntax (R114, R115): the text of each instruction from its bytes, and the
displacement byte a branch to a target assembles to. No step of the machine reads text. -/

namespace Sys2Proof.Machine

/-- A mnemonic's three letters (R107). -/
def mnemonicText : Mnemonic → String
  | .adc => "ADC" | .and => "AND" | .asl => "ASL" | .bcc => "BCC" | .bcs => "BCS" | .beq => "BEQ" | .bit => "BIT"
  | .bmi => "BMI" | .bne => "BNE" | .bpl => "BPL" | .brk => "BRK" | .bvc => "BVC" | .bvs => "BVS" | .clc => "CLC"
  | .cld => "CLD" | .cli => "CLI" | .clv => "CLV" | .cmp => "CMP" | .cpx => "CPX" | .cpy => "CPY" | .dec => "DEC"
  | .dex => "DEX" | .dey => "DEY" | .eor => "EOR" | .inc => "INC" | .inx => "INX" | .iny => "INY" | .jmp => "JMP"
  | .jsr => "JSR" | .lda => "LDA" | .ldx => "LDX" | .ldy => "LDY" | .lsr => "LSR" | .nop => "NOP" | .ora => "ORA"
  | .pha => "PHA" | .php => "PHP" | .pla => "PLA" | .plp => "PLP" | .rol => "ROL" | .ror => "ROR" | .rti => "RTI"
  | .rts => "RTS" | .sbc => "SBC" | .sec => "SEC" | .sed => "SED" | .sei => "SEI" | .sta => "STA" | .stx => "STX"
  | .sty => "STY" | .tax => "TAX" | .tay => "TAY" | .tsx => "TSX" | .txa => "TXA" | .txs => "TXS" | .tya => "TYA"

/-- A hexadecimal digit, in capitals. -/
def hexDigit (n : Nat) : Char := ['0', '1', '2', '3', '4', '5', '6', '7', '8', '9', 'A', 'B', 'C', 'D', 'E', 'F'].getD n '0'

/-- The two digits of a byte. -/
def hexByte (b : Byte) : String := String.ofList [hexDigit (b.toNat / 16), hexDigit (b.toNat % 16)]

/-- The displacement byte of a branch at `addr` to `target`: `trunc_8(T - (addr + 2))`, none where the distance does not
lie in −128 to 127 (R114). -/
def branchByte (addr target : Word) : Option Byte :=
  let distance : Int := target.toNat - (addr.toNat + 2)
  if -128 ≤ distance ∧ distance ≤ 127 then some (BitVec.ofInt 8 distance) else none

/-- The target of a branch at `addr` with displacement byte `d` (R250). -/
def branchTarget (addr : Word) (d : Byte) : Word := addr + d.signExtend 16 + 2

/-- The operand text of each mode, for an instruction at `addr` with its operand bytes, low byte first; none for operand
bytes of another number (R114). A branch's operand is its target address. -/
def operandText (addr : Word) : Mode → List Byte → Option String
  | .implicit, [] => some ""
  | .accumulator, [] => some " A"
  | .immediate, [n] => some (" #$" ++ hexByte n)
  | .zeroPage, [n] => some (" $" ++ hexByte n)
  | .zeroPageX, [n] => some (" $" ++ hexByte n ++ ",X")
  | .zeroPageY, [n] => some (" $" ++ hexByte n ++ ",Y")
  | .relative, [d] =>
    let t := branchTarget addr d
    some (" $" ++ hexByte (t.extractLsb' 8 8) ++ hexByte (t.extractLsb' 0 8))
  | .absolute, [lo, hi] => some (" $" ++ hexByte hi ++ hexByte lo)
  | .absoluteX, [lo, hi] => some (" $" ++ hexByte hi ++ hexByte lo ++ ",X")
  | .absoluteY, [lo, hi] => some (" $" ++ hexByte hi ++ hexByte lo ++ ",Y")
  | .indirect, [lo, hi] => some (" ($" ++ hexByte hi ++ hexByte lo ++ ")")
  | .indexedIndirect, [n] => some (" ($" ++ hexByte n ++ ",X)")
  | .indirectIndexed, [n] => some (" ($" ++ hexByte n ++ "),Y")
  | _, _ => none

/-- The assembler text of an instruction at `addr` (R114). -/
def assemblyText (addr : Word) (c : Code) : Option String :=
  (operandText addr c.instr.mode c.operand).map fun o => mnemonicText c.instr.mnemonic ++ o

end Sys2Proof.Machine
end

