-- ==== Sys2Proof/Laws/Assembly.lean ====
section
/-! SUPPORT. The assembler syntax: a branch assembled to a target goes there, and every well-formed instruction has a
text. -/

namespace Sys2Proof.Machine

/-- The displacement byte R114 assembles is the one with which R250 reaches the target. -/
theorem branchTarget_of_branchByte {addr target : Word} {d : Byte} (h : branchByte addr target = some d) :
    branchTarget addr d = target := by
  simp only [branchByte] at h
  split at h
  · cases h
    have hk : (BitVec.ofInt 8 ((target.toNat : Int) - (addr.toNat + 2))).toInt = target.toNat - (addr.toNat + 2) := by
      rw [BitVec.toInt_ofInt]
      simp only [Int.bmod]
      omega
    have ht := target.isLt
    have ha := addr.isLt
    have h2 : (2 : Word).toNat = 2 := rfl
    apply BitVec.eq_of_toNat_eq
    rw [branchTarget, BitVec.signExtend, hk]
    simp only [BitVec.toNat_add, BitVec.toNat_ofInt]
    omega
  · simp at h

theorem assemblyText_isSome {addr : Word} {c : Code} (h : WellFormed c = true) : (assemblyText addr c).isSome = true := by
  obtain ⟨i, l⟩ := c
  simp only [WellFormed, beq_iff_eq, Instr.operandSize] at h
  simp only [assemblyText, Option.isSome_map]
  generalize i.mode = m at h
  match l with
  | [] => cases m <;> simp_all [Mode.byteSize, operandText]
  | [_] => cases m <;> simp_all [Mode.byteSize, operandText]
  | [_, _] => cases m <;> simp_all [Mode.byteSize, operandText]
  | _ :: _ :: _ :: _ => cases m <;> simp_all [Mode.byteSize]

end Sys2Proof.Machine
end

