-- ==== Sys2Proof/Laws/State.lean ====
section
/-! SUPPORT. One lemma per field per update of the state, so that no later proof unfolds a record update. -/

namespace Sys2Proof.Machine

/-! `setA` -/

@[simp] theorem State.setA_a (s : State) (v : Byte) : (s.setA v).a = v := rfl
@[simp] theorem State.setA_x (s : State) (v : Byte) : (s.setA v).x = s.x := rfl
@[simp] theorem State.setA_y (s : State) (v : Byte) : (s.setA v).y = s.y := rfl
@[simp] theorem State.setA_sp (s : State) (v : Byte) : (s.setA v).sp = s.sp := rfl
@[simp] theorem State.setA_pc (s : State) (v : Byte) : (s.setA v).pc = s.pc := rfl
@[simp] theorem State.setA_sr (s : State) (v : Byte) : (s.setA v).sr = s.sr := rfl
@[simp] theorem State.setA_prgSize (s : State) (v : Byte) : (s.setA v).prgSize = s.prgSize := rfl
@[simp] theorem State.setA_mem (s : State) (v : Byte) : (s.setA v).mem = s.mem := rfl
@[simp] theorem State.setA_diag (s : State) (v : Byte) : (s.setA v).diag = s.diag := rfl
@[simp] theorem State.setA_hostMoves (s : State) (v : Byte) : (s.setA v).hostMoves = s.hostMoves := rfl

/-! `setX` -/

@[simp] theorem State.setX_a (s : State) (v : Byte) : (s.setX v).a = s.a := rfl
@[simp] theorem State.setX_x (s : State) (v : Byte) : (s.setX v).x = v := rfl
@[simp] theorem State.setX_y (s : State) (v : Byte) : (s.setX v).y = s.y := rfl
@[simp] theorem State.setX_sp (s : State) (v : Byte) : (s.setX v).sp = s.sp := rfl
@[simp] theorem State.setX_pc (s : State) (v : Byte) : (s.setX v).pc = s.pc := rfl
@[simp] theorem State.setX_sr (s : State) (v : Byte) : (s.setX v).sr = s.sr := rfl
@[simp] theorem State.setX_prgSize (s : State) (v : Byte) : (s.setX v).prgSize = s.prgSize := rfl
@[simp] theorem State.setX_mem (s : State) (v : Byte) : (s.setX v).mem = s.mem := rfl
@[simp] theorem State.setX_diag (s : State) (v : Byte) : (s.setX v).diag = s.diag := rfl
@[simp] theorem State.setX_hostMoves (s : State) (v : Byte) : (s.setX v).hostMoves = s.hostMoves := rfl

/-! `setY` -/

@[simp] theorem State.setY_a (s : State) (v : Byte) : (s.setY v).a = s.a := rfl
@[simp] theorem State.setY_x (s : State) (v : Byte) : (s.setY v).x = s.x := rfl
@[simp] theorem State.setY_y (s : State) (v : Byte) : (s.setY v).y = v := rfl
@[simp] theorem State.setY_sp (s : State) (v : Byte) : (s.setY v).sp = s.sp := rfl
@[simp] theorem State.setY_pc (s : State) (v : Byte) : (s.setY v).pc = s.pc := rfl
@[simp] theorem State.setY_sr (s : State) (v : Byte) : (s.setY v).sr = s.sr := rfl
@[simp] theorem State.setY_prgSize (s : State) (v : Byte) : (s.setY v).prgSize = s.prgSize := rfl
@[simp] theorem State.setY_mem (s : State) (v : Byte) : (s.setY v).mem = s.mem := rfl
@[simp] theorem State.setY_diag (s : State) (v : Byte) : (s.setY v).diag = s.diag := rfl
@[simp] theorem State.setY_hostMoves (s : State) (v : Byte) : (s.setY v).hostMoves = s.hostMoves := rfl

/-! `setSp` -/

@[simp] theorem State.setSp_a (s : State) (v : Byte) : (s.setSp v).a = s.a := rfl
@[simp] theorem State.setSp_x (s : State) (v : Byte) : (s.setSp v).x = s.x := rfl
@[simp] theorem State.setSp_y (s : State) (v : Byte) : (s.setSp v).y = s.y := rfl
@[simp] theorem State.setSp_sp (s : State) (v : Byte) : (s.setSp v).sp = v := rfl
@[simp] theorem State.setSp_pc (s : State) (v : Byte) : (s.setSp v).pc = s.pc := rfl
@[simp] theorem State.setSp_sr (s : State) (v : Byte) : (s.setSp v).sr = s.sr := rfl
@[simp] theorem State.setSp_prgSize (s : State) (v : Byte) : (s.setSp v).prgSize = s.prgSize := rfl
@[simp] theorem State.setSp_mem (s : State) (v : Byte) : (s.setSp v).mem = s.mem := rfl
@[simp] theorem State.setSp_diag (s : State) (v : Byte) : (s.setSp v).diag = s.diag := rfl
@[simp] theorem State.setSp_hostMoves (s : State) (v : Byte) : (s.setSp v).hostMoves = s.hostMoves := rfl

/-! `setPc` -/

@[simp] theorem State.setPc_a (s : State) (v : Word) : (s.setPc v).a = s.a := rfl
@[simp] theorem State.setPc_x (s : State) (v : Word) : (s.setPc v).x = s.x := rfl
@[simp] theorem State.setPc_y (s : State) (v : Word) : (s.setPc v).y = s.y := rfl
@[simp] theorem State.setPc_sp (s : State) (v : Word) : (s.setPc v).sp = s.sp := rfl
@[simp] theorem State.setPc_pc (s : State) (v : Word) : (s.setPc v).pc = v := rfl
@[simp] theorem State.setPc_sr (s : State) (v : Word) : (s.setPc v).sr = s.sr := rfl
@[simp] theorem State.setPc_prgSize (s : State) (v : Word) : (s.setPc v).prgSize = s.prgSize := rfl
@[simp] theorem State.setPc_mem (s : State) (v : Word) : (s.setPc v).mem = s.mem := rfl
@[simp] theorem State.setPc_diag (s : State) (v : Word) : (s.setPc v).diag = s.diag := rfl
@[simp] theorem State.setPc_hostMoves (s : State) (v : Word) : (s.setPc v).hostMoves = s.hostMoves := rfl

/-! `setSr` -/

@[simp] theorem State.setSr_a (s : State) (v : Byte) : (s.setSr v).a = s.a := rfl
@[simp] theorem State.setSr_x (s : State) (v : Byte) : (s.setSr v).x = s.x := rfl
@[simp] theorem State.setSr_y (s : State) (v : Byte) : (s.setSr v).y = s.y := rfl
@[simp] theorem State.setSr_sp (s : State) (v : Byte) : (s.setSr v).sp = s.sp := rfl
@[simp] theorem State.setSr_pc (s : State) (v : Byte) : (s.setSr v).pc = s.pc := rfl
@[simp] theorem State.setSr_sr (s : State) (v : Byte) : (s.setSr v).sr = v := rfl
@[simp] theorem State.setSr_prgSize (s : State) (v : Byte) : (s.setSr v).prgSize = s.prgSize := rfl
@[simp] theorem State.setSr_mem (s : State) (v : Byte) : (s.setSr v).mem = s.mem := rfl
@[simp] theorem State.setSr_diag (s : State) (v : Byte) : (s.setSr v).diag = s.diag := rfl
@[simp] theorem State.setSr_hostMoves (s : State) (v : Byte) : (s.setSr v).hostMoves = s.hostMoves := rfl

/-! `setMem` -/

@[simp] theorem State.setMem_a (s : State) (v : Memory) : (s.setMem v).a = s.a := rfl
@[simp] theorem State.setMem_x (s : State) (v : Memory) : (s.setMem v).x = s.x := rfl
@[simp] theorem State.setMem_y (s : State) (v : Memory) : (s.setMem v).y = s.y := rfl
@[simp] theorem State.setMem_sp (s : State) (v : Memory) : (s.setMem v).sp = s.sp := rfl
@[simp] theorem State.setMem_pc (s : State) (v : Memory) : (s.setMem v).pc = s.pc := rfl
@[simp] theorem State.setMem_sr (s : State) (v : Memory) : (s.setMem v).sr = s.sr := rfl
@[simp] theorem State.setMem_prgSize (s : State) (v : Memory) : (s.setMem v).prgSize = s.prgSize := rfl
@[simp] theorem State.setMem_mem (s : State) (v : Memory) : (s.setMem v).mem = v := rfl
@[simp] theorem State.setMem_diag (s : State) (v : Memory) : (s.setMem v).diag = s.diag := rfl
@[simp] theorem State.setMem_hostMoves (s : State) (v : Memory) : (s.setMem v).hostMoves = s.hostMoves := rfl

/-! `note` -/

@[simp] theorem State.note_a (s : State) (v : Diagnostic) : (s.note v).a = s.a := rfl
@[simp] theorem State.note_x (s : State) (v : Diagnostic) : (s.note v).x = s.x := rfl
@[simp] theorem State.note_y (s : State) (v : Diagnostic) : (s.note v).y = s.y := rfl
@[simp] theorem State.note_sp (s : State) (v : Diagnostic) : (s.note v).sp = s.sp := rfl
@[simp] theorem State.note_pc (s : State) (v : Diagnostic) : (s.note v).pc = s.pc := rfl
@[simp] theorem State.note_sr (s : State) (v : Diagnostic) : (s.note v).sr = s.sr := rfl
@[simp] theorem State.note_prgSize (s : State) (v : Diagnostic) : (s.note v).prgSize = s.prgSize := rfl
@[simp] theorem State.note_mem (s : State) (v : Diagnostic) : (s.note v).mem = s.mem := rfl
@[simp] theorem State.note_diag (s : State) (v : Diagnostic) : (s.note v).diag = v :: s.diag := rfl
@[simp] theorem State.note_hostMoves (s : State) (v : Diagnostic) : (s.note v).hostMoves = s.hostMoves := rfl

/-! `setHostMoves` -/

@[simp] theorem State.setHostMoves_a (s : State) (v : List HostMove) : (s.setHostMoves v).a = s.a := rfl
@[simp] theorem State.setHostMoves_x (s : State) (v : List HostMove) : (s.setHostMoves v).x = s.x := rfl
@[simp] theorem State.setHostMoves_y (s : State) (v : List HostMove) : (s.setHostMoves v).y = s.y := rfl
@[simp] theorem State.setHostMoves_sp (s : State) (v : List HostMove) : (s.setHostMoves v).sp = s.sp := rfl
@[simp] theorem State.setHostMoves_pc (s : State) (v : List HostMove) : (s.setHostMoves v).pc = s.pc := rfl
@[simp] theorem State.setHostMoves_sr (s : State) (v : List HostMove) : (s.setHostMoves v).sr = s.sr := rfl
@[simp] theorem State.setHostMoves_prgSize (s : State) (v : List HostMove) : (s.setHostMoves v).prgSize = s.prgSize := rfl
@[simp] theorem State.setHostMoves_mem (s : State) (v : List HostMove) : (s.setHostMoves v).mem = s.mem := rfl
@[simp] theorem State.setHostMoves_diag (s : State) (v : List HostMove) : (s.setHostMoves v).diag = s.diag := rfl
@[simp] theorem State.setHostMoves_hostMoves (s : State) (v : List HostMove) : (s.setHostMoves v).hostMoves = v := rfl

/-! `State.setFlag` -/

@[simp] theorem State.setFlag_a (f : Flag) (v : Bool) (s : State) : (s.setFlag f v).a = s.a := rfl
@[simp] theorem State.setFlag_x (f : Flag) (v : Bool) (s : State) : (s.setFlag f v).x = s.x := rfl
@[simp] theorem State.setFlag_y (f : Flag) (v : Bool) (s : State) : (s.setFlag f v).y = s.y := rfl
@[simp] theorem State.setFlag_sp (f : Flag) (v : Bool) (s : State) : (s.setFlag f v).sp = s.sp := rfl
@[simp] theorem State.setFlag_pc (f : Flag) (v : Bool) (s : State) : (s.setFlag f v).pc = s.pc := rfl
@[simp] theorem State.setFlag_sr (f : Flag) (v : Bool) (s : State) : (s.setFlag f v).sr = writeFlag s.sr f v := rfl
@[simp] theorem State.setFlag_prgSize (f : Flag) (v : Bool) (s : State) : (s.setFlag f v).prgSize = s.prgSize := rfl
@[simp] theorem State.setFlag_mem (f : Flag) (v : Bool) (s : State) : (s.setFlag f v).mem = s.mem := rfl
@[simp] theorem State.setFlag_diag (f : Flag) (v : Bool) (s : State) : (s.setFlag f v).diag = s.diag := rfl
@[simp] theorem State.setFlag_hostMoves (f : Flag) (v : Bool) (s : State) : (s.setFlag f v).hostMoves = s.hostMoves := rfl

/-! `State.advance` -/

@[simp] theorem State.advance_a (mode : Mode) (s : State) : (s.advance mode).a = s.a := rfl
@[simp] theorem State.advance_x (mode : Mode) (s : State) : (s.advance mode).x = s.x := rfl
@[simp] theorem State.advance_y (mode : Mode) (s : State) : (s.advance mode).y = s.y := rfl
@[simp] theorem State.advance_sp (mode : Mode) (s : State) : (s.advance mode).sp = s.sp := rfl
@[simp] theorem State.advance_pc (mode : Mode) (s : State) : (s.advance mode).pc = s.pc + BitVec.ofNat 16 mode.byteSize := rfl
@[simp] theorem State.advance_sr (mode : Mode) (s : State) : (s.advance mode).sr = s.sr := rfl
@[simp] theorem State.advance_prgSize (mode : Mode) (s : State) : (s.advance mode).prgSize = s.prgSize := rfl
@[simp] theorem State.advance_mem (mode : Mode) (s : State) : (s.advance mode).mem = s.mem := rfl
@[simp] theorem State.advance_diag (mode : Mode) (s : State) : (s.advance mode).diag = s.diag := rfl
@[simp] theorem State.advance_hostMoves (mode : Mode) (s : State) : (s.advance mode).hostMoves = s.hostMoves := rfl

/-! `setZN` -/

@[simp] theorem setZN_a (v : Byte) (s : State) : (setZN v s).a = s.a := rfl
@[simp] theorem setZN_x (v : Byte) (s : State) : (setZN v s).x = s.x := rfl
@[simp] theorem setZN_y (v : Byte) (s : State) : (setZN v s).y = s.y := rfl
@[simp] theorem setZN_sp (v : Byte) (s : State) : (setZN v s).sp = s.sp := rfl
@[simp] theorem setZN_pc (v : Byte) (s : State) : (setZN v s).pc = s.pc := rfl
@[simp] theorem setZN_sr (v : Byte) (s : State) : (setZN v s).sr = writeFlag (writeFlag s.sr .z (v == 0)) .n (v.getLsbD 7) := rfl
@[simp] theorem setZN_prgSize (v : Byte) (s : State) : (setZN v s).prgSize = s.prgSize := rfl
@[simp] theorem setZN_mem (v : Byte) (s : State) : (setZN v s).mem = s.mem := rfl
@[simp] theorem setZN_diag (v : Byte) (s : State) : (setZN v s).diag = s.diag := rfl
@[simp] theorem setZN_hostMoves (v : Byte) (s : State) : (setZN v s).hostMoves = s.hostMoves := rfl

/-! `loadA` -/

@[simp] theorem loadA_a (v : Byte) (s : State) : (loadA v s).a = v := rfl
@[simp] theorem loadA_x (v : Byte) (s : State) : (loadA v s).x = s.x := rfl
@[simp] theorem loadA_y (v : Byte) (s : State) : (loadA v s).y = s.y := rfl
@[simp] theorem loadA_sp (v : Byte) (s : State) : (loadA v s).sp = s.sp := rfl
@[simp] theorem loadA_pc (v : Byte) (s : State) : (loadA v s).pc = s.pc := rfl
@[simp] theorem loadA_sr (v : Byte) (s : State) : (loadA v s).sr = writeFlag (writeFlag s.sr .z (v == 0)) .n (v.getLsbD 7) := rfl
@[simp] theorem loadA_prgSize (v : Byte) (s : State) : (loadA v s).prgSize = s.prgSize := rfl
@[simp] theorem loadA_mem (v : Byte) (s : State) : (loadA v s).mem = s.mem := rfl
@[simp] theorem loadA_diag (v : Byte) (s : State) : (loadA v s).diag = s.diag := rfl
@[simp] theorem loadA_hostMoves (v : Byte) (s : State) : (loadA v s).hostMoves = s.hostMoves := rfl

/-! `loadX` -/

@[simp] theorem loadX_a (v : Byte) (s : State) : (loadX v s).a = s.a := rfl
@[simp] theorem loadX_x (v : Byte) (s : State) : (loadX v s).x = v := rfl
@[simp] theorem loadX_y (v : Byte) (s : State) : (loadX v s).y = s.y := rfl
@[simp] theorem loadX_sp (v : Byte) (s : State) : (loadX v s).sp = s.sp := rfl
@[simp] theorem loadX_pc (v : Byte) (s : State) : (loadX v s).pc = s.pc := rfl
@[simp] theorem loadX_sr (v : Byte) (s : State) : (loadX v s).sr = writeFlag (writeFlag s.sr .z (v == 0)) .n (v.getLsbD 7) := rfl
@[simp] theorem loadX_prgSize (v : Byte) (s : State) : (loadX v s).prgSize = s.prgSize := rfl
@[simp] theorem loadX_mem (v : Byte) (s : State) : (loadX v s).mem = s.mem := rfl
@[simp] theorem loadX_diag (v : Byte) (s : State) : (loadX v s).diag = s.diag := rfl
@[simp] theorem loadX_hostMoves (v : Byte) (s : State) : (loadX v s).hostMoves = s.hostMoves := rfl

/-! `loadY` -/

@[simp] theorem loadY_a (v : Byte) (s : State) : (loadY v s).a = s.a := rfl
@[simp] theorem loadY_x (v : Byte) (s : State) : (loadY v s).x = s.x := rfl
@[simp] theorem loadY_y (v : Byte) (s : State) : (loadY v s).y = v := rfl
@[simp] theorem loadY_sp (v : Byte) (s : State) : (loadY v s).sp = s.sp := rfl
@[simp] theorem loadY_pc (v : Byte) (s : State) : (loadY v s).pc = s.pc := rfl
@[simp] theorem loadY_sr (v : Byte) (s : State) : (loadY v s).sr = writeFlag (writeFlag s.sr .z (v == 0)) .n (v.getLsbD 7) := rfl
@[simp] theorem loadY_prgSize (v : Byte) (s : State) : (loadY v s).prgSize = s.prgSize := rfl
@[simp] theorem loadY_mem (v : Byte) (s : State) : (loadY v s).mem = s.mem := rfl
@[simp] theorem loadY_diag (v : Byte) (s : State) : (loadY v s).diag = s.diag := rfl
@[simp] theorem loadY_hostMoves (v : Byte) (s : State) : (loadY v s).hostMoves = s.hostMoves := rfl

/-! `compare8` -/

@[simp] theorem compare8_a (r m : Byte) (s : State) : (compare8 r m s).a = s.a := rfl
@[simp] theorem compare8_x (r m : Byte) (s : State) : (compare8 r m s).x = s.x := rfl
@[simp] theorem compare8_y (r m : Byte) (s : State) : (compare8 r m s).y = s.y := rfl
@[simp] theorem compare8_sp (r m : Byte) (s : State) : (compare8 r m s).sp = s.sp := rfl
@[simp] theorem compare8_pc (r m : Byte) (s : State) : (compare8 r m s).pc = s.pc := rfl
@[simp] theorem compare8_sr (r m : Byte) (s : State) : (compare8 r m s).sr = (setZN (r - m) (s.setFlag .c (decide (m.toNat ≤ r.toNat)))).sr := rfl
@[simp] theorem compare8_prgSize (r m : Byte) (s : State) : (compare8 r m s).prgSize = s.prgSize := rfl
@[simp] theorem compare8_mem (r m : Byte) (s : State) : (compare8 r m s).mem = s.mem := rfl
@[simp] theorem compare8_diag (r m : Byte) (s : State) : (compare8 r m s).diag = s.diag := rfl
@[simp] theorem compare8_hostMoves (r m : Byte) (s : State) : (compare8 r m s).hostMoves = s.hostMoves := rfl

/-! `writeSum` -/

@[simp] theorem writeSum_a (r : AddResult) (s : State) : (writeSum r s).a = r.sum := rfl
@[simp] theorem writeSum_x (r : AddResult) (s : State) : (writeSum r s).x = s.x := rfl
@[simp] theorem writeSum_y (r : AddResult) (s : State) : (writeSum r s).y = s.y := rfl
@[simp] theorem writeSum_sp (r : AddResult) (s : State) : (writeSum r s).sp = s.sp := rfl
@[simp] theorem writeSum_pc (r : AddResult) (s : State) : (writeSum r s).pc = s.pc := rfl
@[simp] theorem writeSum_sr (r : AddResult) (s : State) : (writeSum r s).sr = (setZN r.sum ((s.setFlag .c r.carry).setFlag .v r.overflow)).sr := rfl
@[simp] theorem writeSum_prgSize (r : AddResult) (s : State) : (writeSum r s).prgSize = s.prgSize := rfl
@[simp] theorem writeSum_mem (r : AddResult) (s : State) : (writeSum r s).mem = s.mem := rfl
@[simp] theorem writeSum_diag (r : AddResult) (s : State) : (writeSum r s).diag = s.diag := rfl
@[simp] theorem writeSum_hostMoves (r : AddResult) (s : State) : (writeSum r s).hostMoves = s.hostMoves := rfl

/-! `bitFlags` -/

@[simp] theorem bitFlags_a (m : Byte) (s : State) : (bitFlags m s).a = s.a := rfl
@[simp] theorem bitFlags_x (m : Byte) (s : State) : (bitFlags m s).x = s.x := rfl
@[simp] theorem bitFlags_y (m : Byte) (s : State) : (bitFlags m s).y = s.y := rfl
@[simp] theorem bitFlags_sp (m : Byte) (s : State) : (bitFlags m s).sp = s.sp := rfl
@[simp] theorem bitFlags_pc (m : Byte) (s : State) : (bitFlags m s).pc = s.pc := rfl
@[simp] theorem bitFlags_sr (m : Byte) (s : State) : (bitFlags m s).sr = writeFlag (writeFlag (writeFlag s.sr .z ((s.a &&& m) == 0)) .n (m.getLsbD 7)) .v (m.getLsbD 6) := rfl
@[simp] theorem bitFlags_prgSize (m : Byte) (s : State) : (bitFlags m s).prgSize = s.prgSize := rfl
@[simp] theorem bitFlags_mem (m : Byte) (s : State) : (bitFlags m s).mem = s.mem := rfl
@[simp] theorem bitFlags_diag (m : Byte) (s : State) : (bitFlags m s).diag = s.diag := rfl
@[simp] theorem bitFlags_hostMoves (m : Byte) (s : State) : (bitFlags m s).hostMoves = s.hostMoves := rfl

/-! `shiftFlags` -/

@[simp] theorem shiftFlags_a (out : Bool) (r : Byte) (s : State) : (shiftFlags out r s).a = s.a := rfl
@[simp] theorem shiftFlags_x (out : Bool) (r : Byte) (s : State) : (shiftFlags out r s).x = s.x := rfl
@[simp] theorem shiftFlags_y (out : Bool) (r : Byte) (s : State) : (shiftFlags out r s).y = s.y := rfl
@[simp] theorem shiftFlags_sp (out : Bool) (r : Byte) (s : State) : (shiftFlags out r s).sp = s.sp := rfl
@[simp] theorem shiftFlags_pc (out : Bool) (r : Byte) (s : State) : (shiftFlags out r s).pc = s.pc := rfl
@[simp] theorem shiftFlags_sr (out : Bool) (r : Byte) (s : State) : (shiftFlags out r s).sr = (setZN r (s.setFlag .c out)).sr := rfl
@[simp] theorem shiftFlags_prgSize (out : Bool) (r : Byte) (s : State) : (shiftFlags out r s).prgSize = s.prgSize := rfl
@[simp] theorem shiftFlags_mem (out : Bool) (r : Byte) (s : State) : (shiftFlags out r s).mem = s.mem := rfl
@[simp] theorem shiftFlags_diag (out : Bool) (r : Byte) (s : State) : (shiftFlags out r s).diag = s.diag := rfl
@[simp] theorem shiftFlags_hostMoves (out : Bool) (r : Byte) (s : State) : (shiftFlags out r s).hostMoves = s.hostMoves := rfl

/-! Views of the state that read only some fields. -/

theorem State.flag_eq (s : State) (f : Flag) : s.flag f = readFlag s.sr f := rfl

/-- What an address reads as depends on the memory and the image size alone. -/
theorem State.peek_congr {s t : State} (hm : t.mem = s.mem) (hp : t.prgSize = s.prgSize) (addr : Word) :
    t.peek addr = s.peek addr := by
  simp [State.peek, hm, hp]

end Sys2Proof.Machine
end

