-- ==== Sys2Proof/Laws/Flags.lean ====
section
/-! SUPPORT. What each flag computation leaves in each flag, and the arithmetic laws of the ALU. -/

namespace Sys2Proof.Machine

/-- A flag read after a flag written: the one written has the value, the other seven keep theirs. -/
theorem readFlag_writeFlag (sr : Byte) (f g : Flag) (v : Bool) :
    readFlag (writeFlag sr f v) g = if g = f then v else readFlag sr g := by
  cases v <;> cases f <;> cases g <;> simp [readFlag, writeFlag, flagMask, flagBit]

@[simp] theorem readFlag_writeFlag_same (sr : Byte) (f : Flag) (v : Bool) : readFlag (writeFlag sr f v) f = v := by
  simp [readFlag_writeFlag]

theorem readFlag_writeFlag_other (sr : Byte) {f g : Flag} (v : Bool) (h : g ≠ f) :
    readFlag (writeFlag sr f v) g = readFlag sr g := by
  simp [readFlag_writeFlag, h]

theorem State.flag_setFlag (s : State) (f g : Flag) (v : Bool) :
    (s.setFlag f v).flag g = if g = f then v else s.flag g := readFlag_writeFlag _ _ _ _

@[simp] theorem State.flag_setFlag_same (s : State) (f : Flag) (v : Bool) : (s.setFlag f v).flag f = v := by
  simp [State.flag_setFlag]

theorem State.flag_setFlag_other (s : State) {f g : Flag} (v : Bool) (h : g ≠ f) :
    (s.setFlag f v).flag g = s.flag g := by
  simp [State.flag_setFlag, h]

/-- Two status bytes with the same eight flags are equal. -/
theorem status_ext {p q : Byte} (h : ∀ f, readFlag p f = readFlag q f) : p = q := by
  apply BitVec.eq_of_getLsbD_eq
  intro k hk
  have h0 := h .c; have h1 := h .z; have h2 := h .i; have h3 := h .d
  have h4 := h .b; have h5 := h .u; have h6 := h .v; have h7 := h .n
  simp only [readFlag, flagBit] at *
  interval_cases k <;> assumption

/-- ZN writes Z and N from the byte and no other flag (R140). -/
theorem flag_setZN (v : Byte) (s : State) (f : Flag) :
    (setZN v s).flag f = if f = .n then v.getLsbD 7 else if f = .z then v == 0 else s.flag f := by
  simp only [setZN, State.flag_setFlag]

/-- The flags a pulled status byte leaves: B clear, U set, the other six as pulled (R263, R283). -/
theorem readFlag_pulledStatus (p : Byte) (f : Flag) :
    readFlag (pulledStatus p) f = if f = .b then false else if f = .u then true else readFlag p f := by
  cases f <;> simp [readFlag, pulledStatus, flagBit]

/-- The flags of the byte PHP pushes: B and U set, the other six as in SR (R281). -/
theorem readFlag_pushedStatus (sr : Byte) (f : Flag) :
    readFlag (pushedStatus sr) f = if f = .b ∨ f = .u then true else readFlag sr f := by
  cases f <;> simp [readFlag, pushedStatus, flagBit]

/-- A status with B clear and U set survives a push and a pull (R283). -/
theorem pulledStatus_pushedStatus {sr : Byte} (hb : readFlag sr .b = false) (hu : readFlag sr .u = true) :
    pulledStatus (pushedStatus sr) = sr := by
  apply status_ext
  intro f
  cases f <;> simp [readFlag_pulledStatus, readFlag_pushedStatus, hb, hu]

/-- The flags of a comparison (R147). -/
theorem flag_compare8 (r m : Byte) (s : State) (f : Flag) :
    (compare8 r m s).flag f =
      if f = .n then (r - m).getLsbD 7 else if f = .z then decide (r = m)
      else if f = .c then decide (m.toNat ≤ r.toNat) else s.flag f := by
  have h : (r - m == 0) = decide (r = m) := by
    rw [Bool.eq_iff_iff, beq_iff_eq, decide_eq_true_iff]
    exact sub_eq_zero
  simp only [compare8, flag_setZN, State.flag_setFlag, h]

/-- The flags of a written sum (R190). -/
theorem flag_writeSum (r : AddResult) (s : State) (f : Flag) :
    (writeSum r s).flag f =
      if f = .n then r.sum.getLsbD 7 else if f = .z then r.sum == 0
      else if f = .v then r.overflow else if f = .c then r.carry else s.flag f := by
  simp only [writeSum, flag_setZN, State.flag_setFlag]
  rfl

/-- The flags of BIT (R195). -/
theorem flag_bitFlags (m : Byte) (s : State) (f : Flag) :
    (bitFlags m s).flag f =
      if f = .v then m.getLsbD 6 else if f = .n then m.getLsbD 7
      else if f = .z then (s.a &&& m) == 0 else s.flag f := by
  simp only [bitFlags, State.flag_setFlag]

/-- The flags of a shift (R210 to R213). -/
theorem flag_shiftFlags (out : Bool) (r : Byte) (s : State) (f : Flag) :
    (shiftFlags out r s).flag f =
      if f = .n then r.getLsbD 7 else if f = .z then r == 0 else if f = .c then out else s.flag f := by
  simp only [shiftFlags, flag_setZN, State.flag_setFlag]

@[simp] theorem flag_loadA (v : Byte) (s : State) (f : Flag) : (loadA v s).flag f = (setZN v s).flag f := rfl
@[simp] theorem flag_loadX (v : Byte) (s : State) (f : Flag) : (loadX v s).flag f = (setZN v s).flag f := rfl
@[simp] theorem flag_loadY (v : Byte) (s : State) (f : Flag) : (loadY v s).flag f = (setZN v s).flag f := rfl
@[simp] theorem flag_setA (s : State) (v : Byte) (f : Flag) : (s.setA v).flag f = s.flag f := rfl
@[simp] theorem flag_setX (s : State) (v : Byte) (f : Flag) : (s.setX v).flag f = s.flag f := rfl
@[simp] theorem flag_setY (s : State) (v : Byte) (f : Flag) : (s.setY v).flag f = s.flag f := rfl
@[simp] theorem flag_setSp (s : State) (v : Byte) (f : Flag) : (s.setSp v).flag f = s.flag f := rfl
@[simp] theorem flag_setPc (s : State) (v : Word) (f : Flag) : (s.setPc v).flag f = s.flag f := rfl
@[simp] theorem flag_setMem (s : State) (v : Memory) (f : Flag) : (s.setMem v).flag f = s.flag f := rfl
@[simp] theorem flag_setHostMoves (s : State) (v : List HostMove) (f : Flag) :
    (s.setHostMoves v).flag f = s.flag f := rfl
@[simp] theorem flag_note (s : State) (v : Diagnostic) (f : Flag) : (s.note v).flag f = s.flag f := rfl
@[simp] theorem flag_advance (s : State) (m : Mode) (f : Flag) : (s.advance m).flag f = s.flag f := rfl
@[simp] theorem flag_setSr (s : State) (v : Byte) (f : Flag) : (s.setSr v).flag f = readFlag v f := rfl

/-! ### Arithmetic -/

/-- The adder's sum is the exact sum mod 256 (R141). -/
theorem add8_sum (a m : Byte) (c : Bool) : (add8 a m c).sum = a + m + BitVec.ofNat 8 c.toNat := by
  apply BitVec.eq_of_toNat_eq
  simp [add8]

/-- The adder's carry: the exact sum exceeds 255 (R141). -/
theorem add8_carry (a m : Byte) (c : Bool) : (add8 a m c).carry = decide (a.toNat + m.toNat + c.toNat > 255) := rfl

/-- SBC's difference (R191): `A - m - (1 - C)`, mod 256. -/
theorem sub8_sum (a m : Byte) (c : Bool) :
    (sub8 a m c).sum = a - m - BitVec.ofNat 8 (!c).toNat := by
  rw [sub8, add8_sum]
  cases c <;> apply BitVec.eq_of_toNat_eq <;> simp <;> omega

/-- SBC's carry (R191): set exactly when `A ≥ m + (1 - C)` as unsigned numbers. -/
theorem sub8_carry (a m : Byte) (c : Bool) :
    (sub8 a m c).carry = decide (m.toNat + (!c).toNat ≤ a.toNat) := by
  rw [sub8, add8_carry, decide_eq_decide]
  cases c <;> simp <;> omega

end Sys2Proof.Machine
end

