-- ==== Sys2Proof/Laws/Memory.lean ====
section
/-! SUPPORT. The memory list: a read after a write, the canonical form every operation keeps, and what the byte
strings of a launch read as. -/

namespace Sys2Proof.Machine

@[simp] theorem Memory.read_nil (c : Nat) : Memory.read [] c = Config.unlisted := rfl

theorem Memory.read_cons (k : Nat) (w : Byte) (m : Memory) (c : Nat) :
    Memory.read ((k, w) :: m) c = if k = c then w else Memory.read m c := rfl

theorem Memory.read_cell (e : Host.Cell) (m : Memory) (c : Nat) :
    Memory.read (e :: m) c = if e.1 = c then e.2 else Memory.read m c := by
  cases e; rfl

@[simp] theorem Memory.read_erase_same (m : Memory) (c : Nat) : Memory.read (Memory.erase m c) c = Config.unlisted := by
  induction m with
  | nil => rfl
  | cons e m ih =>
    obtain ⟨k, w⟩ := e
    by_cases h : k = c
    · simpa [Memory.erase, h] using ih
    · simpa [Memory.erase, h, Memory.read_cons] using ih

theorem Memory.read_erase_other (m : Memory) {c d : Nat} (h : d ≠ c) :
    Memory.read (Memory.erase m c) d = Memory.read m d := by
  induction m with
  | nil => rfl
  | cons e m ih =>
    obtain ⟨k, w⟩ := e
    by_cases hk : k = c
    · simpa [Memory.erase, hk, Memory.read_cons, Ne.symm h] using ih
    · by_cases hd : k = d
      · simp [Memory.erase, Memory.read_cons, hd, h]
      · simpa [Memory.erase, hk, hd, Memory.read_cons] using ih

theorem Memory.read_insert_same {m : Memory} {c : Nat} (v : Byte) (h : ∀ e ∈ m, e.1 ≠ c) :
    Memory.read (Memory.insert m c v) c = v := by
  induction m with
  | nil => simp [Memory.insert, Memory.read_cons]
  | cons e m ih =>
    obtain ⟨k, w⟩ := e
    have hk : k ≠ c := h (k, w) (by simp)
    by_cases hlt : c < k
    · simp [Memory.insert, hlt, Memory.read_cons]
    · simpa [Memory.insert, hlt, hk, Memory.read_cons] using ih fun e he => h e (by simp [he])

theorem Memory.read_insert_other (m : Memory) {c d : Nat} (v : Byte) (h : d ≠ c) :
    Memory.read (Memory.insert m c v) d = Memory.read m d := by
  induction m with
  | nil => simp [Memory.insert, Memory.read_cons, Ne.symm h]
  | cons e m ih =>
    obtain ⟨k, w⟩ := e
    by_cases hlt : c < k
    · simp [Memory.insert, hlt, Memory.read_cons, Ne.symm h]
    · simp [Memory.insert, hlt, Memory.read_cons, ih]

theorem Memory.ne_of_mem_erase {m : Memory} {c : Nat} {e : Host.Cell} (h : e ∈ Memory.erase m c) : e.1 ≠ c := by
  simpa using (List.mem_filter.mp h).2

theorem Memory.mem_of_mem_erase {m : Memory} {c : Nat} {e : Host.Cell} (h : e ∈ Memory.erase m c) : e ∈ m :=
  (List.mem_filter.mp h).1

/-- A read after a write to the same cell gives the byte written. -/
@[simp] theorem Memory.read_write_same (m : Memory) (c : Nat) (v : Byte) :
    Memory.read (Memory.write m c v) c = v := by
  by_cases h : v = Config.unlisted
  · simp [Memory.write, h]
  · simpa [Memory.write, h] using Memory.read_insert_same v fun _ => Memory.ne_of_mem_erase

/-- A write leaves every other cell alone. -/
theorem Memory.read_write_other (m : Memory) {c d : Nat} (v : Byte) (h : d ≠ c) :
    Memory.read (Memory.write m c v) d = Memory.read m d := by
  by_cases hv : v = Config.unlisted
  · simp [Memory.write, hv, Memory.read_erase_other m h]
  · simp [Memory.write, hv, Memory.read_insert_other _ v h, Memory.read_erase_other m h]

/-- Both cases of a read after a write. -/
theorem Memory.read_write (m : Memory) (c d : Nat) (v : Byte) :
    Memory.read (Memory.write m c v) d = if d = c then v else Memory.read m d := by
  by_cases h : d = c
  · simp [h]
  · simp [h, Memory.read_write_other m v h]

theorem Memory.mem_insert {m : Memory} {c : Nat} {v : Byte} {e : Host.Cell} (h : e ∈ Memory.insert m c v) :
    e = (c, v) ∨ e ∈ m := by
  induction m with
  | nil => simpa [Memory.insert] using h
  | cons f m ih =>
    obtain ⟨k, w⟩ := f
    by_cases hlt : c < k
    · simpa [Memory.insert, hlt] using h
    · simp only [Memory.insert, hlt, if_false, List.mem_cons] at h ⊢
      tauto

theorem Memory.mem_write {m : Memory} {c : Nat} {v : Byte} {e : Host.Cell} (h : e ∈ Memory.write m c v) :
    (e = (c, v) ∧ v ≠ Config.unlisted) ∨ e ∈ m := by
  by_cases hv : v = Config.unlisted
  · exact .inr (Memory.mem_of_mem_erase (by simpa [Memory.write, hv] using h))
  · rcases Memory.mem_insert (by simpa [Memory.write, hv] using h) with h | h
    · exact .inl ⟨h, hv⟩
    · exact .inr (Memory.mem_of_mem_erase h)

theorem Memory.rising_erase {m : Memory} (h : Memory.Rising m) (c : Nat) : Memory.Rising (Memory.erase m c) :=
  List.Pairwise.filter _ h

theorem Memory.rising_insert {m : Memory} {c : Nat} (v : Byte) (h : Memory.Rising m) (hc : ∀ e ∈ m, e.1 ≠ c) :
    Memory.Rising (Memory.insert m c v) := by
  induction m with
  | nil => simp [Memory.insert, Memory.Rising]
  | cons e m ih =>
    obtain ⟨k, w⟩ := e
    have hkm := List.pairwise_cons.mp h
    have hk : k ≠ c := hc (k, w) (by simp)
    by_cases hlt : c < k
    · simp only [Memory.insert, hlt, if_true]
      refine List.pairwise_cons.mpr ⟨fun e he => ?_, h⟩
      rcases List.mem_cons.mp he with rfl | he
      · exact hlt
      · exact lt_trans hlt (hkm.1 e he)
    · simp only [Memory.insert, hlt, if_false]
      refine List.pairwise_cons.mpr ⟨fun e he => ?_, ih hkm.2 fun e he => hc e (by simp [he])⟩
      rcases Memory.mem_insert he with rfl | he
      · show k < c
        omega
      · exact hkm.1 e he

/-- A write keeps the canonical form. -/
theorem Memory.wf_write {m : Memory} (h : Memory.wf m) (c : Nat) (v : Byte) : Memory.wf (Memory.write m c v) := by
  refine ⟨?_, fun e he => ?_⟩
  · by_cases hv : v = Config.unlisted
    · simpa [Memory.write, hv] using Memory.rising_erase h.1 c
    · simpa [Memory.write, hv] using
        Memory.rising_insert v (Memory.rising_erase h.1 c) fun _ => Memory.ne_of_mem_erase
  · rcases Memory.mem_write he with ⟨rfl, hv⟩ | he
    · exact hv
    · exact h.2 e he

theorem Memory.wf_nil : Memory.wf [] := ⟨List.Pairwise.nil, by simp⟩

/-- Every write of a byte string keeps the canonical form. -/
theorem Memory.wf_writeBytes {m : Memory} (h : Memory.wf m) (c : Nat) (l : List Byte) :
    Memory.wf (Memory.writeBytes m c l) := by
  induction l generalizing m c with
  | nil => exact h
  | cons v l ih => exact ih (Memory.wf_write h c v) (c + 1)

theorem Memory.mem_ofBytes {c : Nat} {l : List Byte} {e : Host.Cell} (h : e ∈ Memory.ofBytes c l) :
    c ≤ e.1 ∧ e.1 < c + l.length ∧ e.2 ≠ Config.unlisted := by
  induction l generalizing c with
  | nil => simp [Memory.ofBytes] at h
  | cons v l ih =>
    by_cases hv : v = Config.unlisted
    · obtain ⟨h1, h2, h3⟩ := ih (by simpa [Memory.ofBytes, hv] using h)
      exact ⟨by omega, by simp; omega, h3⟩
    · rcases List.mem_cons.mp (by simpa [Memory.ofBytes, hv] using h) with rfl | h
      · exact ⟨le_refl _, by simp, hv⟩
      · obtain ⟨h1, h2, h3⟩ := ih h
        exact ⟨by omega, by simp; omega, h3⟩

/-- The memory made from a byte string is canonical. -/
theorem Memory.wf_ofBytes (c : Nat) (l : List Byte) : Memory.wf (Memory.ofBytes c l) := by
  refine ⟨?_, fun e he => (Memory.mem_ofBytes he).2.2⟩
  induction l generalizing c with
  | nil => exact List.Pairwise.nil
  | cons v l ih =>
    by_cases hv : v = Config.unlisted
    · simpa [Memory.ofBytes, hv] using ih (c + 1)
    · simp only [Memory.ofBytes, hv, if_false]
      exact List.pairwise_cons.mpr ⟨fun e he => (Memory.mem_ofBytes he).1, ih (c + 1)⟩

/-- The memory made from a byte string reads as the string. -/
theorem Memory.read_ofBytes (c : Nat) (l : List Byte) (d : Nat) :
    Memory.read (Memory.ofBytes c l) d = if c ≤ d then l.getD (d - c) Config.unlisted else Config.unlisted := by
  induction l generalizing c with
  | nil => simp [Memory.ofBytes]
  | cons v l ih =>
    rcases lt_trichotomy c d with h | rfl | h
    · have h1 : d - c = (d - (c + 1)) + 1 := by omega
      have h2 : c + 1 ≤ d := h
      by_cases hv : v = Config.unlisted
      · simp [Memory.ofBytes, hv, ih, h2, h.le, h1]
      · simp [Memory.ofBytes, hv, Memory.read_cons, ih, h2, h.le, h1, h.ne]
    · by_cases hv : v = Config.unlisted
      · simp [Memory.ofBytes, hv, ih]
      · simp [Memory.ofBytes, hv, Memory.read_cons]
    · have h1 : ¬ c ≤ d := by omega
      have h2 : ¬ c + 1 ≤ d := by omega
      by_cases hv : v = Config.unlisted
      · simp [Memory.ofBytes, hv, ih, h1, h2]
      · simp [Memory.ofBytes, hv, Memory.read_cons, ih, h1, h2, h.ne']

theorem Memory.read_append (m n : Memory) (c : Nat) (h : ∀ e ∈ m, e.1 ≠ c) :
    Memory.read (m ++ n) c = Memory.read n c := by
  induction m with
  | nil => rfl
  | cons e m ih =>
    obtain ⟨k, w⟩ := e
    have hk : k ≠ c := h (k, w) (by simp)
    simpa [Memory.read_cons, hk] using ih fun e he => h e (by simp [he])

/-- Memory at launch is canonical when RAM_INIT has at most 0x8000 bytes, as its 2048 do. -/
theorem wf_launchMemory (ramInit prg : List Byte) (h : ramInit.length ≤ Config.romBase) :
    Memory.wf (launchMemory ramInit prg) := by
  refine ⟨List.pairwise_append.mpr ⟨(Memory.wf_ofBytes _ _).1, (Memory.wf_ofBytes _ _).1, fun e he f hf => ?_⟩,
    fun e he => ?_⟩
  · have h1 := (Memory.mem_ofBytes he).2.1
    have h2 := (Memory.mem_ofBytes hf).1
    omega
  · rcases List.mem_append.mp he with he | he <;> exact (Memory.mem_ofBytes he).2.2

/-- Two canonical memories that read alike are equal. -/
theorem Memory.ext_of_read {m n : Memory} (hm : Memory.wf m) (hn : Memory.wf n)
    (h : ∀ c, Memory.read m c = Memory.read n c) : m = n := by
  have low : ∀ {l : Memory} {k : Nat}, (∀ e ∈ l, k < e.1) → ∀ c, c ≤ k → Memory.read l c = Config.unlisted := by
    intro l k hl c hc
    induction l with
    | nil => rfl
    | cons e l ih =>
      have := hl e (by simp)
      simp only [Memory.read_cell, show e.1 ≠ c by omega, if_false]
      exact ih fun e he => hl e (by simp [he])
  have tail : ∀ {e : Host.Cell} {l : Memory}, Memory.wf (e :: l) → Memory.wf l := fun hw =>
    ⟨(List.pairwise_cons.mp hw.1).2, fun e he => hw.2 e (by simp [he])⟩
  induction m generalizing n with
  | nil =>
    cases n with
    | nil => rfl
    | cons e n =>
      have := h e.1
      simp [Memory.read_cell] at this
      exact absurd this.symm (hn.2 e (by simp))
  | cons e m ih =>
    have hem := (List.pairwise_cons.mp hm.1).1
    cases n with
    | nil =>
      have := h e.1
      simp [Memory.read_cell] at this
      exact absurd this (hm.2 e (by simp))
    | cons f n =>
      have hfn := (List.pairwise_cons.mp hn.1).1
      have heq : e.1 = f.1 := by
        rcases lt_trichotomy e.1 f.1 with hlt | heq | hlt
        · have := h e.1
          simp only [Memory.read_cell, if_true, hlt.ne', if_false] at this
          rw [low hfn _ hlt.le] at this
          exact absurd this (hm.2 e (by simp))
        · exact heq
        · have := h f.1
          simp only [Memory.read_cell, if_true, hlt.ne', if_false] at this
          rw [low hem _ hlt.le] at this
          exact absurd this.symm (hn.2 f (by simp))
      have hval : e.2 = f.2 := by
        have := h e.1
        simpa [Memory.read_cell, heq] using this
      have hrest : m = n := by
        refine ih (tail hm) (tail hn) fun c => ?_
        by_cases hc : e.1 = c
        · rw [low hem c hc.ge, low hfn c (heq ▸ hc.ge)]
        · have := h c
          simpa [Memory.read_cell, hc, show f.1 ≠ c from heq ▸ hc] using this
      rw [hrest, show e = f from Prod.ext heq hval]

end Sys2Proof.Machine
end

