-- ==== Sys2Proof/Laws/Bus.lean ====
section
/-! SUPPORT. The bus and the stack: one lemma per operation that says everything it can do, and what an address reads
as afterwards. -/

namespace Sys2Proof.Machine

/-! ### The address map -/

theorem region_ram {addr : Word} (size : PrgSize) (h : addr.toNat ≤ 0x1FFF) :
    region size addr = .ram (addr.toNat % 0x0800) := by
  have : (addr &&& 0x07FF#16).toNat = addr.toNat % 0x0800 := by
    rw [BitVec.toNat_and]
    exact Nat.and_two_pow_sub_one_eq_mod addr.toNat 11
  simp [region, h, this]

theorem region_reserved {addr : Word} (size : PrgSize) (h : ¬ Readable addr) : region size addr = .reserved := by
  unfold Readable at h
  push Not at h
  rw [region, if_neg (by omega), if_pos (by omega)]

theorem region_unmapped {addr : Word} (size : PrgSize) (h : Unmapped addr) : region size addr = .unmapped := by
  obtain ⟨h1, h2⟩ := h
  rw [region, if_neg (by omega), if_neg (by omega), if_pos (by omega)]

theorem region_rom {addr : Word} (size : PrgSize) (h : 0x8000 ≤ addr.toNat) :
    region size addr = .rom (0x8000 + romOffset size addr) := by
  rw [region, if_neg (by omega), if_neg (by omega), if_neg (by omega), Config.romBase]

theorem romOffset_lt (size : PrgSize) (addr : Word) : romOffset size addr < size.bytes := by
  have h : addr.toNat < 0x10000 := addr.isLt
  cases size
  · show (addr.toNat - 0x8000) % 0x4000 < 0x4000
    exact Nat.mod_lt _ (by norm_num)
  · show addr.toNat - 0x8000 < 0x8000
    omega

/-- The four regions cover the address space. -/
theorem region_cases (addr : Word) :
    addr.toNat ≤ 0x1FFF ∨ ¬ Readable addr ∨ Unmapped addr ∨ 0x8000 ≤ addr.toNat := by
  unfold Readable Unmapped
  omega

/-! ### Reading -/

/-- A bus read answers what `peek` says, logging a read of the unmapped region; it faults where there is nothing. -/
theorem busRead_eq (addr : Word) (s : State) :
    busRead addr s =
      match s.peek addr with
      | some v => .ok (v, s.afterRead addr)
      | none => .error (.reservedWindow addr .read) := by
  rcases region_cases addr with h | h | h | h
  · have : ¬ Unmapped addr := fun hu => absurd hu.1 (by omega)
    simp [busRead, State.peek, State.afterRead, region_ram _ h, this]
  · simp [busRead, State.peek, region_reserved _ h]
  · simp [busRead, State.peek, State.afterRead, region_unmapped _ h, h]
  · have : ¬ Unmapped addr := fun hu => absurd hu.2 (by omega)
    simp [busRead, State.peek, State.afterRead, region_rom _ h, this]

theorem busRead_some {addr : Word} {s : State} {v : Byte} (h : s.peek addr = some v) :
    busRead addr s = .ok (v, s.afterRead addr) := by
  rw [busRead_eq, h]

theorem busRead_none {addr : Word} {s : State} (h : s.peek addr = none) :
    busRead addr s = .error (.reservedWindow addr .read) := by
  rw [busRead_eq, h]

theorem busRead_ok {addr : Word} {s t : State} {v : Byte} (h : busRead addr s = .ok (v, t)) :
    s.peek addr = some v ∧ t = s.afterRead addr := by
  rw [busRead_eq] at h
  cases hp : s.peek addr with
  | none => simp [hp] at h
  | some w =>
    simp only [hp, Except.ok.injEq, Prod.mk.injEq] at h
    exact ⟨by rw [h.1], h.2.symm⟩

theorem busRead_error {addr : Word} {s : State} {f : Fault} (h : busRead addr s = .error f) :
    s.peek addr = none ∧ f = .reservedWindow addr .read := by
  rw [busRead_eq] at h
  cases hp : s.peek addr with
  | some w => simp [hp] at h
  | none =>
    simp only [hp, Except.error.injEq] at h
    exact ⟨rfl, h.symm⟩

theorem peek_ram {addr : Word} (s : State) (h : addr.toNat ≤ 0x1FFF) :
    s.peek addr = some (Memory.read s.mem (addr.toNat % 0x0800)) := by
  simp [State.peek, region_ram _ h]

theorem peek_unmapped {addr : Word} (s : State) (h : Unmapped addr) : s.peek addr = some 0x00 := by
  simp [State.peek, region_unmapped _ h]

theorem peek_rom {addr : Word} (s : State) (h : 0x8000 ≤ addr.toNat) :
    s.peek addr = some (Memory.read s.mem (0x8000 + romOffset s.prgSize addr)) := by
  simp [State.peek, region_rom _ h]

theorem peek_eq_none {addr : Word} (s : State) : s.peek addr = none ↔ ¬ Readable addr := by
  rcases region_cases addr with h | h | h | h
  · simp [peek_ram s h, Readable, h]
  · simp [State.peek, region_reserved _ h, h]
  · simp [peek_unmapped s h, Readable, h.1]
  · have : 0x4000 ≤ addr.toNat := by omega
    simp [peek_rom s h, Readable, this]

/-! ### The state after reads -/

theorem OnlyLog.refl (s : State) : OnlyLog s s := ⟨[], rfl⟩

theorem OnlyLog.trans {s t u : State} (h : OnlyLog s t) (k : OnlyLog t u) : OnlyLog s u := by
  obtain ⟨d, rfl⟩ := h
  obtain ⟨e, rfl⟩ := k
  exact ⟨e ++ d, by simp⟩

theorem OnlyLog.note (s : State) (e : Diagnostic) : OnlyLog s (s.note e) := ⟨[e], rfl⟩

theorem OnlyLog.afterRead (s : State) (addr : Word) : OnlyLog s (s.afterRead addr) := by
  unfold State.afterRead
  split
  · exact OnlyLog.note s _
  · exact OnlyLog.refl s

theorem OnlyLog.peek {s t : State} (h : OnlyLog s t) (addr : Word) : t.peek addr = s.peek addr := by
  obtain ⟨d, rfl⟩ := h
  rfl

theorem OnlyLog.flag {s t : State} (h : OnlyLog s t) (f : Flag) : t.flag f = s.flag f := by
  obtain ⟨d, rfl⟩ := h
  rfl

theorem OnlyLog.of_busRead {addr : Word} {s t : State} {v : Byte} (h : busRead addr s = .ok (v, t)) : OnlyLog s t :=
  (busRead_ok h).2 ▸ OnlyLog.afterRead s addr

/-! `afterRead` -/

@[simp] theorem State.afterRead_a (s : State) (addr : Word) : (s.afterRead addr).a = s.a := by
  unfold State.afterRead; split <;> rfl
@[simp] theorem State.afterRead_x (s : State) (addr : Word) : (s.afterRead addr).x = s.x := by
  unfold State.afterRead; split <;> rfl
@[simp] theorem State.afterRead_y (s : State) (addr : Word) : (s.afterRead addr).y = s.y := by
  unfold State.afterRead; split <;> rfl
@[simp] theorem State.afterRead_sp (s : State) (addr : Word) : (s.afterRead addr).sp = s.sp := by
  unfold State.afterRead; split <;> rfl
@[simp] theorem State.afterRead_pc (s : State) (addr : Word) : (s.afterRead addr).pc = s.pc := by
  unfold State.afterRead; split <;> rfl
@[simp] theorem State.afterRead_sr (s : State) (addr : Word) : (s.afterRead addr).sr = s.sr := by
  unfold State.afterRead; split <;> rfl
@[simp] theorem State.afterRead_prgSize (s : State) (addr : Word) : (s.afterRead addr).prgSize = s.prgSize := by
  unfold State.afterRead; split <;> rfl
@[simp] theorem State.afterRead_mem (s : State) (addr : Word) : (s.afterRead addr).mem = s.mem := by
  unfold State.afterRead; split <;> rfl
@[simp] theorem State.afterRead_hostMoves (s : State) (addr : Word) : (s.afterRead addr).hostMoves = s.hostMoves := by
  unfold State.afterRead; split <;> rfl
@[simp] theorem State.afterRead_peek (s : State) (addr q : Word) : (s.afterRead addr).peek q = s.peek q :=
  (OnlyLog.afterRead s addr).peek q
@[simp] theorem State.afterRead_flag (s : State) (addr : Word) (f : Flag) : (s.afterRead addr).flag f = s.flag f :=
  (OnlyLog.afterRead s addr).flag f

/-- A read outside the unmapped region leaves the state as it is (R74). -/
theorem State.afterRead_eq {s : State} {addr : Word} (h : ¬ Unmapped addr) : s.afterRead addr = s := by
  simp [State.afterRead, h]

/-- The 16-bit read: two byte reads, low byte first (R66). -/
theorem busRead16_some {addr : Word} {s : State} {lo hi : Byte} (hl : s.peek addr = some lo)
    (hh : s.peek (addr + 1) = some hi) :
    busRead16 addr s = .ok (wordOf hi lo, (s.afterRead addr).afterRead (addr + 1)) := by
  simp only [busRead16, busRead_some hl, busRead_some ((State.afterRead_peek s addr (addr + 1)).trans hh), bind,
    Except.bind]

theorem busRead16_ok {addr : Word} {s t : State} {w : Word} (h : busRead16 addr s = .ok (w, t)) :
    ∃ lo hi, s.peek addr = some lo ∧ s.peek (addr + 1) = some hi ∧ w = wordOf hi lo ∧
      t = (s.afterRead addr).afterRead (addr + 1) := by
  cases h1 : s.peek addr with
  | none => simp only [busRead16, busRead_none h1, bind, Except.bind, reduceCtorEq] at h
  | some lo =>
    cases h2 : s.peek (addr + 1) with
    | none =>
      have : (s.afterRead addr).peek (addr + 1) = none := (State.afterRead_peek s addr (addr + 1)).trans h2
      simp only [busRead16, busRead_some h1, busRead_none this, bind, Except.bind, reduceCtorEq] at h
    | some hi =>
      rw [busRead16_some h1 h2] at h
      simp only [Except.ok.injEq, Prod.mk.injEq] at h
      exact ⟨lo, hi, rfl, rfl, h.1.symm, h.2.symm⟩

/-! ### Writing -/

theorem busWrite_ram {addr : Word} (v : Byte) (s : State) (h : addr.toNat ≤ 0x1FFF) :
    busWrite addr v s = .ok (s.setMem (Memory.write s.mem (addr.toNat % 0x0800) v)) := by
  simp [busWrite, region_ram _ h]

/-- Where both bytes lie in RAM the 16-bit write is the two cell writes, low byte first, and never faults (R67). -/
theorem busWrite16_ram {addr : Word} (v : Word) (s : State) (h : addr.toNat ≤ 0x1FFF) (h' : (addr + 1).toNat ≤ 0x1FFF) :
    busWrite16 addr v s =
      .ok (s.setMem (Memory.write (Memory.write s.mem (addr.toNat % 0x0800) (lowByte v)) ((addr + 1).toNat % 0x0800)
        (highByte v))) := by
  simp only [busWrite16, busWrite_ram _ _ h, busWrite_ram _ _ h', bind, Except.bind]
  rfl

theorem busWrite_reserved {addr : Word} (v : Byte) (s : State) (h : ¬ Readable addr) :
    busWrite addr v s = .error (.reservedWindow addr (.write v)) := by
  simp [busWrite, region_reserved _ h]

theorem busWrite_unmapped {addr : Word} (v : Byte) (s : State) (h : Unmapped addr) :
    busWrite addr v s = .ok (s.note (.unmappedWrite addr v)) := by
  simp [busWrite, region_unmapped _ h]

theorem busWrite_rom {addr : Word} (v : Byte) (s : State) (h : 0x8000 ≤ addr.toNat) :
    busWrite addr v s = .error (.romWrite addr v) := by
  simp [busWrite, region_rom _ h]

/-- A bus write that answers a state wrote one byte of RAM, or logged a write of the unmapped region. -/
theorem busWrite_ok {addr : Word} {v : Byte} {s t : State} (h : busWrite addr v s = .ok t) :
    (addr.toNat ≤ 0x1FFF ∧ t = s.setMem (Memory.write s.mem (addr.toNat % 0x0800) v)) ∨
      (Unmapped addr ∧ t = s.note (.unmappedWrite addr v)) := by
  rcases region_cases addr with hr | hr | hr | hr
  · rw [busWrite_ram v s hr] at h
    exact .inl ⟨hr, (Except.ok.inj h).symm⟩
  · simp [busWrite_reserved v s hr] at h
  · rw [busWrite_unmapped v s hr] at h
    exact .inr ⟨hr, (Except.ok.inj h).symm⟩
  · simp [busWrite_rom v s hr] at h

/-- What an address reads as after a RAM byte is written, through any mirror (R64). -/
theorem peek_setMem_ram {c : Nat} (hc : c < 0x0800) (v : Byte) (s : State) (q : Word) :
    (s.setMem (Memory.write s.mem c v)).peek q =
      if q.toNat ≤ 0x1FFF ∧ q.toNat % 0x0800 = c then some v else s.peek q := by
  rcases region_cases q with h | h | h | h
  · by_cases hq : q.toNat % 0x0800 = c
    · simp [peek_ram _ h, hq, h]
    · simp [peek_ram _ h, hq, Memory.read_write_other s.mem v hq]
  · have : ¬ q.toNat ≤ 0x1FFF := fun h' => h (.inl h')
    simp [this, (peek_eq_none _).mpr h]
  · have : ¬ q.toNat ≤ 0x1FFF := fun h' => absurd h.1 (by omega)
    simp [this, peek_unmapped _ h]
  · have h1 : ¬ q.toNat ≤ 0x1FFF := by omega
    have h2 : 0x8000 + romOffset s.prgSize q ≠ c := by omega
    simp [h1, peek_rom _ h, Memory.read_write_other s.mem v h2]

/-- A bus write leaves every byte but the one written as it was. -/
theorem peek_busWrite_other {addr q : Word} {v : Byte} {s t : State} (h : busWrite addr v s = .ok t)
    (hq : ¬ SameRamByte addr q) : t.peek q = s.peek q := by
  rcases busWrite_ok h with ⟨hr, rfl⟩ | ⟨_, rfl⟩
  · rw [peek_setMem_ram (Nat.mod_lt _ (by norm_num)), if_neg]
    exact fun hh => hq ⟨hr, hh.1, hh.2.symm⟩
  · rfl

/-- A bus write to RAM is read back through every mirror (R64). -/
theorem peek_busWrite_same {addr q : Word} {v : Byte} {s t : State} (h : busWrite addr v s = .ok t)
    (hq : SameRamByte addr q) : t.peek q = some v := by
  rcases busWrite_ok h with ⟨_, rfl⟩ | ⟨hu, _⟩
  · rw [peek_setMem_ram (Nat.mod_lt _ (by norm_num)), if_pos ⟨hq.2.1, hq.2.2.symm⟩]
  · exact absurd hq.1 (by have := hu.1; omega)

/-! ### The stack -/

theorem stackAddr_toNat (sp : Byte) : (stackAddr sp).toNat = 0x0100 + sp.toNat := by
  have := sp.isLt
  simp only [stackAddr, Config.stackBase, zext, BitVec.toNat_add, BitVec.toNat_setWidth]
  simp
  omega

theorem stackAddr_le (sp : Byte) : (stackAddr sp).toNat ≤ 0x1FFF := by
  have := sp.isLt
  rw [stackAddr_toNat]
  omega

theorem stackAddr_mod (sp : Byte) : (stackAddr sp).toNat % 0x0800 = 0x0100 + sp.toNat := by
  have := sp.isLt
  rw [stackAddr_toNat]
  omega

theorem not_unmapped_stackAddr (sp : Byte) : ¬ Unmapped (stackAddr sp) := fun h =>
  absurd h.1 (by have := stackAddr_le sp; omega)

/-- The stack byte a stack-pointer value designates. -/
def State.stackByte (s : State) (sp : Byte) : Byte := Memory.read s.mem (0x0100 + sp.toNat)

theorem peek_stackAddr (s : State) (sp : Byte) : s.peek (stackAddr sp) = some (s.stackByte sp) := by
  rw [peek_ram s (stackAddr_le sp), stackAddr_mod, State.stackByte]

/-- What an address reads as after a stack byte is written, through any mirror (R144). -/
theorem peek_setMem_stack (sp v : Byte) (s : State) (q : Word) :
    (s.setMem (Memory.write s.mem (0x0100 + sp.toNat) v)).peek q =
      if SameRamByte (stackAddr sp) q then some v else s.peek q := by
  have h : (q.toNat ≤ 0x1FFF ∧ q.toNat % 0x0800 = 0x0100 + sp.toNat) ↔ SameRamByte (stackAddr sp) q := by
    have hm := stackAddr_mod sp
    have hl := stackAddr_le sp
    exact ⟨fun h => ⟨hl, h.1, hm.trans h.2.symm⟩, fun h => ⟨h.2.1, h.2.2.symm.trans hm⟩⟩
  rw [peek_setMem_ram (by have := sp.isLt; omega)]
  exact if_congr h rfl rfl

/-- Push: one RAM byte written, SP decremented; it never faults (R144, R145). -/
theorem push_eq (v : Byte) (s : State) :
    push v s = .ok ((s.setMem (Memory.write s.mem (0x0100 + s.sp.toNat) v)).setSp (s.sp - 1)) := by
  simp only [push, busWrite_ram v s (stackAddr_le s.sp), stackAddr_mod, bind, Except.bind]
  rfl

/-- Pull: SP incremented, then the byte there read; it never faults (R145). -/
theorem pull_eq (s : State) : pull s = .ok (s.stackByte (s.sp + 1), s.setSp (s.sp + 1)) := by
  have h : (s.setSp (s.sp + 1)).peek (stackAddr (s.sp + 1)) = some (s.stackByte (s.sp + 1)) := peek_stackAddr _ _
  simp only [pull, State.setSp_sp, busRead_some h, State.afterRead_eq (not_unmapped_stackAddr _)]

/-- Two pulls, low byte first (R146). -/
theorem pull16_eq (s : State) :
    pull16 s = .ok (wordOf (s.stackByte (s.sp + 2)) (s.stackByte (s.sp + 1)), s.setSp (s.sp + 2)) := by
  have h : s.sp + 1 + 1 = s.sp + 2 := by rw [add_assoc]; rfl
  simp only [pull16, pull_eq, bind, Except.bind, State.setSp_sp, h]
  rfl

/-- Return from interrupt: SR, then PC, from the three bytes above SP (R263). -/
theorem returnFromInterrupt_eq (s : State) :
    returnFromInterrupt s =
      .ok (((s.setSp (s.sp + 3)).setSr (pulledStatus (s.stackByte (s.sp + 1)))).setPc
        (wordOf (s.stackByte (s.sp + 3)) (s.stackByte (s.sp + 2)))) := by
  have h2 : s.sp + 1 + 1 = s.sp + 2 := by rw [add_assoc]; rfl
  have h3 : s.sp + 1 + 2 = s.sp + 3 := by rw [add_assoc]; rfl
  simp only [returnFromInterrupt, pull_eq, pull16_eq, bind, Except.bind, State.setSp_sp, State.setSr_sp, h2, h3]
  rfl

end Sys2Proof.Machine
end

