-- ==== Sys2Proof/Laws/PerInstr.lean ====
section
/-! SUPPORT. The family Encoding: what holds of every row of the opcode table, proved row by row. -/

namespace Sys2Proof.Laws.Encoding

/-- The opcode byte of the row decodes to the row, and the row's byteSize is that of its mode (R104, R105, R106). -/
def Statement (i : Instr) : Prop := decode (opcode i) = .ok i ∧ i.info.byteSize = i.mode.byteSize

theorem adcImmediate : Statement .adcImmediate := ⟨rfl, rfl⟩
theorem adcZeroPage : Statement .adcZeroPage := ⟨rfl, rfl⟩
theorem adcZeroPageX : Statement .adcZeroPageX := ⟨rfl, rfl⟩
theorem adcAbsolute : Statement .adcAbsolute := ⟨rfl, rfl⟩
theorem adcAbsoluteX : Statement .adcAbsoluteX := ⟨rfl, rfl⟩
theorem adcAbsoluteY : Statement .adcAbsoluteY := ⟨rfl, rfl⟩
theorem adcIndexedIndirect : Statement .adcIndexedIndirect := ⟨rfl, rfl⟩
theorem adcIndirectIndexed : Statement .adcIndirectIndexed := ⟨rfl, rfl⟩
theorem andImmediate : Statement .andImmediate := ⟨rfl, rfl⟩
theorem andZeroPage : Statement .andZeroPage := ⟨rfl, rfl⟩
theorem andZeroPageX : Statement .andZeroPageX := ⟨rfl, rfl⟩
theorem andAbsolute : Statement .andAbsolute := ⟨rfl, rfl⟩
theorem andAbsoluteX : Statement .andAbsoluteX := ⟨rfl, rfl⟩
theorem andAbsoluteY : Statement .andAbsoluteY := ⟨rfl, rfl⟩
theorem andIndexedIndirect : Statement .andIndexedIndirect := ⟨rfl, rfl⟩
theorem andIndirectIndexed : Statement .andIndirectIndexed := ⟨rfl, rfl⟩
theorem aslAccumulator : Statement .aslAccumulator := ⟨rfl, rfl⟩
theorem aslZeroPage : Statement .aslZeroPage := ⟨rfl, rfl⟩
theorem aslZeroPageX : Statement .aslZeroPageX := ⟨rfl, rfl⟩
theorem aslAbsolute : Statement .aslAbsolute := ⟨rfl, rfl⟩
theorem aslAbsoluteX : Statement .aslAbsoluteX := ⟨rfl, rfl⟩
theorem bcc : Statement .bcc := ⟨rfl, rfl⟩
theorem bcs : Statement .bcs := ⟨rfl, rfl⟩
theorem beq : Statement .beq := ⟨rfl, rfl⟩
theorem bitZeroPage : Statement .bitZeroPage := ⟨rfl, rfl⟩
theorem bitAbsolute : Statement .bitAbsolute := ⟨rfl, rfl⟩
theorem bmi : Statement .bmi := ⟨rfl, rfl⟩
theorem bne : Statement .bne := ⟨rfl, rfl⟩
theorem bpl : Statement .bpl := ⟨rfl, rfl⟩
theorem brk : Statement .brk := ⟨rfl, rfl⟩
theorem bvc : Statement .bvc := ⟨rfl, rfl⟩
theorem bvs : Statement .bvs := ⟨rfl, rfl⟩
theorem clc : Statement .clc := ⟨rfl, rfl⟩
theorem cld : Statement .cld := ⟨rfl, rfl⟩
theorem cli : Statement .cli := ⟨rfl, rfl⟩
theorem clv : Statement .clv := ⟨rfl, rfl⟩
theorem cmpImmediate : Statement .cmpImmediate := ⟨rfl, rfl⟩
theorem cmpZeroPage : Statement .cmpZeroPage := ⟨rfl, rfl⟩
theorem cmpZeroPageX : Statement .cmpZeroPageX := ⟨rfl, rfl⟩
theorem cmpAbsolute : Statement .cmpAbsolute := ⟨rfl, rfl⟩
theorem cmpAbsoluteX : Statement .cmpAbsoluteX := ⟨rfl, rfl⟩
theorem cmpAbsoluteY : Statement .cmpAbsoluteY := ⟨rfl, rfl⟩
theorem cmpIndexedIndirect : Statement .cmpIndexedIndirect := ⟨rfl, rfl⟩
theorem cmpIndirectIndexed : Statement .cmpIndirectIndexed := ⟨rfl, rfl⟩
theorem cpxImmediate : Statement .cpxImmediate := ⟨rfl, rfl⟩
theorem cpxZeroPage : Statement .cpxZeroPage := ⟨rfl, rfl⟩
theorem cpxAbsolute : Statement .cpxAbsolute := ⟨rfl, rfl⟩
theorem cpyImmediate : Statement .cpyImmediate := ⟨rfl, rfl⟩
theorem cpyZeroPage : Statement .cpyZeroPage := ⟨rfl, rfl⟩
theorem cpyAbsolute : Statement .cpyAbsolute := ⟨rfl, rfl⟩
theorem decZeroPage : Statement .decZeroPage := ⟨rfl, rfl⟩
theorem decZeroPageX : Statement .decZeroPageX := ⟨rfl, rfl⟩
theorem decAbsolute : Statement .decAbsolute := ⟨rfl, rfl⟩
theorem decAbsoluteX : Statement .decAbsoluteX := ⟨rfl, rfl⟩
theorem dex : Statement .dex := ⟨rfl, rfl⟩
theorem dey : Statement .dey := ⟨rfl, rfl⟩
theorem eorImmediate : Statement .eorImmediate := ⟨rfl, rfl⟩
theorem eorZeroPage : Statement .eorZeroPage := ⟨rfl, rfl⟩
theorem eorZeroPageX : Statement .eorZeroPageX := ⟨rfl, rfl⟩
theorem eorAbsolute : Statement .eorAbsolute := ⟨rfl, rfl⟩
theorem eorAbsoluteX : Statement .eorAbsoluteX := ⟨rfl, rfl⟩
theorem eorAbsoluteY : Statement .eorAbsoluteY := ⟨rfl, rfl⟩
theorem eorIndexedIndirect : Statement .eorIndexedIndirect := ⟨rfl, rfl⟩
theorem eorIndirectIndexed : Statement .eorIndirectIndexed := ⟨rfl, rfl⟩
theorem incZeroPage : Statement .incZeroPage := ⟨rfl, rfl⟩
theorem incZeroPageX : Statement .incZeroPageX := ⟨rfl, rfl⟩
theorem incAbsolute : Statement .incAbsolute := ⟨rfl, rfl⟩
theorem incAbsoluteX : Statement .incAbsoluteX := ⟨rfl, rfl⟩
theorem inx : Statement .inx := ⟨rfl, rfl⟩
theorem iny : Statement .iny := ⟨rfl, rfl⟩
theorem jmpAbsolute : Statement .jmpAbsolute := ⟨rfl, rfl⟩
theorem jmpIndirect : Statement .jmpIndirect := ⟨rfl, rfl⟩
theorem jsr : Statement .jsr := ⟨rfl, rfl⟩
theorem ldaImmediate : Statement .ldaImmediate := ⟨rfl, rfl⟩
theorem ldaZeroPage : Statement .ldaZeroPage := ⟨rfl, rfl⟩
theorem ldaZeroPageX : Statement .ldaZeroPageX := ⟨rfl, rfl⟩
theorem ldaAbsolute : Statement .ldaAbsolute := ⟨rfl, rfl⟩
theorem ldaAbsoluteX : Statement .ldaAbsoluteX := ⟨rfl, rfl⟩
theorem ldaAbsoluteY : Statement .ldaAbsoluteY := ⟨rfl, rfl⟩
theorem ldaIndexedIndirect : Statement .ldaIndexedIndirect := ⟨rfl, rfl⟩
theorem ldaIndirectIndexed : Statement .ldaIndirectIndexed := ⟨rfl, rfl⟩
theorem ldxImmediate : Statement .ldxImmediate := ⟨rfl, rfl⟩
theorem ldxZeroPage : Statement .ldxZeroPage := ⟨rfl, rfl⟩
theorem ldxZeroPageY : Statement .ldxZeroPageY := ⟨rfl, rfl⟩
theorem ldxAbsolute : Statement .ldxAbsolute := ⟨rfl, rfl⟩
theorem ldxAbsoluteY : Statement .ldxAbsoluteY := ⟨rfl, rfl⟩
theorem ldyImmediate : Statement .ldyImmediate := ⟨rfl, rfl⟩
theorem ldyZeroPage : Statement .ldyZeroPage := ⟨rfl, rfl⟩
theorem ldyZeroPageX : Statement .ldyZeroPageX := ⟨rfl, rfl⟩
theorem ldyAbsolute : Statement .ldyAbsolute := ⟨rfl, rfl⟩
theorem ldyAbsoluteX : Statement .ldyAbsoluteX := ⟨rfl, rfl⟩
theorem lsrAccumulator : Statement .lsrAccumulator := ⟨rfl, rfl⟩
theorem lsrZeroPage : Statement .lsrZeroPage := ⟨rfl, rfl⟩
theorem lsrZeroPageX : Statement .lsrZeroPageX := ⟨rfl, rfl⟩
theorem lsrAbsolute : Statement .lsrAbsolute := ⟨rfl, rfl⟩
theorem lsrAbsoluteX : Statement .lsrAbsoluteX := ⟨rfl, rfl⟩
theorem nop : Statement .nop := ⟨rfl, rfl⟩
theorem oraImmediate : Statement .oraImmediate := ⟨rfl, rfl⟩
theorem oraZeroPage : Statement .oraZeroPage := ⟨rfl, rfl⟩
theorem oraZeroPageX : Statement .oraZeroPageX := ⟨rfl, rfl⟩
theorem oraAbsolute : Statement .oraAbsolute := ⟨rfl, rfl⟩
theorem oraAbsoluteX : Statement .oraAbsoluteX := ⟨rfl, rfl⟩
theorem oraAbsoluteY : Statement .oraAbsoluteY := ⟨rfl, rfl⟩
theorem oraIndexedIndirect : Statement .oraIndexedIndirect := ⟨rfl, rfl⟩
theorem oraIndirectIndexed : Statement .oraIndirectIndexed := ⟨rfl, rfl⟩
theorem pha : Statement .pha := ⟨rfl, rfl⟩
theorem php : Statement .php := ⟨rfl, rfl⟩
theorem pla : Statement .pla := ⟨rfl, rfl⟩
theorem plp : Statement .plp := ⟨rfl, rfl⟩
theorem rolAccumulator : Statement .rolAccumulator := ⟨rfl, rfl⟩
theorem rolZeroPage : Statement .rolZeroPage := ⟨rfl, rfl⟩
theorem rolZeroPageX : Statement .rolZeroPageX := ⟨rfl, rfl⟩
theorem rolAbsolute : Statement .rolAbsolute := ⟨rfl, rfl⟩
theorem rolAbsoluteX : Statement .rolAbsoluteX := ⟨rfl, rfl⟩
theorem rorAccumulator : Statement .rorAccumulator := ⟨rfl, rfl⟩
theorem rorZeroPage : Statement .rorZeroPage := ⟨rfl, rfl⟩
theorem rorZeroPageX : Statement .rorZeroPageX := ⟨rfl, rfl⟩
theorem rorAbsolute : Statement .rorAbsolute := ⟨rfl, rfl⟩
theorem rorAbsoluteX : Statement .rorAbsoluteX := ⟨rfl, rfl⟩
theorem rti : Statement .rti := ⟨rfl, rfl⟩
theorem rts : Statement .rts := ⟨rfl, rfl⟩
theorem sbcImmediate : Statement .sbcImmediate := ⟨rfl, rfl⟩
theorem sbcZeroPage : Statement .sbcZeroPage := ⟨rfl, rfl⟩
theorem sbcZeroPageX : Statement .sbcZeroPageX := ⟨rfl, rfl⟩
theorem sbcAbsolute : Statement .sbcAbsolute := ⟨rfl, rfl⟩
theorem sbcAbsoluteX : Statement .sbcAbsoluteX := ⟨rfl, rfl⟩
theorem sbcAbsoluteY : Statement .sbcAbsoluteY := ⟨rfl, rfl⟩
theorem sbcIndexedIndirect : Statement .sbcIndexedIndirect := ⟨rfl, rfl⟩
theorem sbcIndirectIndexed : Statement .sbcIndirectIndexed := ⟨rfl, rfl⟩
theorem sec : Statement .sec := ⟨rfl, rfl⟩
theorem sed : Statement .sed := ⟨rfl, rfl⟩
theorem sei : Statement .sei := ⟨rfl, rfl⟩
theorem staZeroPage : Statement .staZeroPage := ⟨rfl, rfl⟩
theorem staZeroPageX : Statement .staZeroPageX := ⟨rfl, rfl⟩
theorem staAbsolute : Statement .staAbsolute := ⟨rfl, rfl⟩
theorem staAbsoluteX : Statement .staAbsoluteX := ⟨rfl, rfl⟩
theorem staAbsoluteY : Statement .staAbsoluteY := ⟨rfl, rfl⟩
theorem staIndexedIndirect : Statement .staIndexedIndirect := ⟨rfl, rfl⟩
theorem staIndirectIndexed : Statement .staIndirectIndexed := ⟨rfl, rfl⟩
theorem stxZeroPage : Statement .stxZeroPage := ⟨rfl, rfl⟩
theorem stxZeroPageY : Statement .stxZeroPageY := ⟨rfl, rfl⟩
theorem stxAbsolute : Statement .stxAbsolute := ⟨rfl, rfl⟩
theorem styZeroPage : Statement .styZeroPage := ⟨rfl, rfl⟩
theorem styZeroPageX : Statement .styZeroPageX := ⟨rfl, rfl⟩
theorem styAbsolute : Statement .styAbsolute := ⟨rfl, rfl⟩
theorem tax : Statement .tax := ⟨rfl, rfl⟩
theorem tay : Statement .tay := ⟨rfl, rfl⟩
theorem tsx : Statement .tsx := ⟨rfl, rfl⟩
theorem txa : Statement .txa := ⟨rfl, rfl⟩
theorem txs : Statement .txs := ⟨rfl, rfl⟩
theorem tya : Statement .tya := ⟨rfl, rfl⟩

/-- Every row decodes from its own opcode byte. -/
theorem all (i : Instr) : Statement i := by
  cases i <;> exact ⟨rfl, rfl⟩

end Sys2Proof.Laws.Encoding
end

