-- ==== Sys2Proof/Laws/Decode.lean ====
section
/-! SUPPORT. The decoder against the encoder's table, byte by byte: the opcode map of R109 and the table of R110 agree
in both directions. -/

namespace Sys2Proof

/-- Whether the decoder's answer for a byte is either a row with that opcode byte, or the rejection of that byte. -/
def decodeAgrees (b : Byte) : Bool :=
  match decode b with
  | .ok i => opcode i == b
  | .error e => e == .illegalOpcode b

theorem decodeAgrees_nibbles (h l : Fin 16) : decodeAgrees (BitVec.ofNat 8 (16 * h + l)) = true := by
  revert h l
  decide

theorem decodeAgrees_all (b : Byte) : decodeAgrees b = true := by
  have hb := b.isLt
  have := decodeAgrees_nibbles ⟨b.toNat / 16, by omega⟩ ⟨b.toNat % 16, by omega⟩
  rwa [show 16 * (b.toNat / 16) + b.toNat % 16 = b.toNat by omega, BitVec.ofNat_toNat, BitVec.setWidth_eq] at this

/-- A byte decodes only to the row whose opcode byte it is (R105, R109, R110). -/
theorem opcode_of_decode {b : Byte} {i : Instr} (h : decode b = .ok i) : opcode i = b := by
  have := decodeAgrees_all b
  simpa [decodeAgrees, h] using this

/-- A byte that does not decode is rejected as that illegal byte (R112). -/
theorem decode_error {b : Byte} {e : DecodeError} (h : decode b = .error e) : e = .illegalOpcode b := by
  have := decodeAgrees_all b
  simpa [decodeAgrees, h] using this

theorem decode_opcode (i : Instr) : decode (opcode i) = .ok i := (Laws.Encoding.all i).1

/-- Two rows never share an opcode byte. -/
theorem opcode_injective {i j : Instr} (h : opcode i = opcode j) : i = j := by
  have hi := decode_opcode i
  rw [h, decode_opcode j] at hi
  exact (Except.ok.inj hi).symm

end Sys2Proof
end

