-- ==== Sys2Proof/Laws/Operands.lean ====
section
/-! SUPPORT. The resolver mode by mode, operand access, and what each shape of operand-using instruction can answer:
one equation for the case that completes, and one lemma that says everything the shape can do. -/

namespace Sys2Proof.Machine

/-! ### Bytes and words -/

@[simp] theorem lowByte_wordOf (hi lo : Byte) : lowByte (wordOf hi lo) = lo := by
  apply BitVec.eq_of_getLsbD_eq
  intro k hk
  simp only [lowByte, wordOf, zext, BitVec.getLsbD_extractLsb', BitVec.getLsbD_or, BitVec.getLsbD_shiftLeft,
    BitVec.getLsbD_setWidth]
  simp [hk, show k < 16 by omega]

@[simp] theorem highByte_wordOf (hi lo : Byte) : highByte (wordOf hi lo) = hi := by
  apply BitVec.eq_of_getLsbD_eq
  intro k hk
  simp only [highByte, wordOf, zext, BitVec.getLsbD_extractLsb', BitVec.getLsbD_or, BitVec.getLsbD_shiftLeft,
    BitVec.getLsbD_setWidth]
  simp [hk, show 8 + k < 16 by omega]
  intro _
  omega

/-- A word is its two bytes. -/
theorem wordOf_highByte_lowByte (w : Word) : wordOf (highByte w) (lowByte w) = w := by
  apply BitVec.eq_of_getLsbD_eq
  intro k hk
  simp only [lowByte, highByte, wordOf, zext, BitVec.getLsbD_extractLsb', BitVec.getLsbD_or, BitVec.getLsbD_shiftLeft,
    BitVec.getLsbD_setWidth]
  by_cases h : k < 8
  · simp [h, hk]
  · have e : 8 + (k - 8) = k := by omega
    have h1 : k - 8 < 16 := by omega
    have h2 : k - 8 < 8 := by omega
    simp [h, hk, e, h1, h2]

theorem zext_toNat (b : Byte) : (zext b).toNat = b.toNat := by
  have := b.isLt
  simp [zext]
  omega

/-- The value of two bytes read as a little-endian word (R16, R69). -/
theorem wordOf_toNat (hi lo : Byte) : (wordOf hi lo).toNat = hi.toNat * 256 + lo.toNat := by
  have h1 := hi.isLt
  have h2 := lo.isLt
  simp only [wordOf, zext, BitVec.toNat_or, BitVec.toNat_shiftLeft, BitVec.toNat_setWidth]
  rw [Nat.mod_eq_of_lt (show hi.toNat < 2^16 by omega), Nat.mod_eq_of_lt (show lo.toNat < 2^16 by omega), Nat.mod_eq_of_lt (by rw [Nat.shiftLeft_eq]; omega),
   ← Nat.shiftLeft_add_eq_or_of_lt (by omega), Nat.shiftLeft_eq]

theorem zext_le (b : Byte) : (zext b).toNat ≤ 0x1FFF := by
  have := b.isLt
  rw [zext_toNat]
  omega

theorem not_unmapped_zext (b : Byte) : ¬ Unmapped (zext b) := fun h =>
  absurd h.1 (by have := zext_le b; omega)

/-- A byte of the zero page. -/
def State.zeroPageByte (s : State) (z : Byte) : Byte := Memory.read s.mem z.toNat

theorem peek_zext (s : State) (z : Byte) : s.peek (zext z) = some (s.zeroPageByte z) := by
  have h : (zext z).toNat % 0x0800 = z.toNat := by
    have := z.isLt
    rw [zext_toNat]
    omega
  rw [peek_ram s (zext_le z), h, State.zeroPageByte]

/-- A zero-page pointer read never faults and never logs (R173, R174). -/
theorem readZeroPagePointer_eq (z : Byte) (s : State) :
    readZeroPagePointer z s = .ok (wordOf (s.zeroPageByte (z + 1)) (s.zeroPageByte z), s) := by
  simp only [readZeroPagePointer, busRead_some (peek_zext s _), State.afterRead_eq (not_unmapped_zext _), bind, Except.bind]

/-! ### The resolver -/

theorem resolve_zeroPage {s : State} {b : Byte} (h : s.peek (s.pc + 1) = some b) :
    resolve .zeroPage s = .ok (zext b, s.afterRead (s.pc + 1)) := by
  simp only [resolve, busRead_some h, bind, Except.bind]

theorem resolve_zeroPageX {s : State} {b : Byte} (h : s.peek (s.pc + 1) = some b) :
    resolve .zeroPageX s = .ok (zext (b + s.x), s.afterRead (s.pc + 1)) := by
  simp only [resolve, busRead_some h, bind, Except.bind, State.afterRead_x]

theorem resolve_zeroPageY {s : State} {b : Byte} (h : s.peek (s.pc + 1) = some b) :
    resolve .zeroPageY s = .ok (zext (b + s.y), s.afterRead (s.pc + 1)) := by
  simp only [resolve, busRead_some h, bind, Except.bind, State.afterRead_y]

theorem resolve_absolute {s : State} {lo hi : Byte} (hl : s.peek (s.pc + 1) = some lo)
    (hh : s.peek (s.pc + 1 + 1) = some hi) :
    resolve .absolute s = .ok (wordOf hi lo, (s.afterRead (s.pc + 1)).afterRead (s.pc + 1 + 1)) := by
  simp only [resolve, busRead16_some hl hh]

theorem resolve_absoluteX {s : State} {lo hi : Byte} (hl : s.peek (s.pc + 1) = some lo)
    (hh : s.peek (s.pc + 1 + 1) = some hi) :
    resolve .absoluteX s = .ok (wordOf hi lo + zext s.x, (s.afterRead (s.pc + 1)).afterRead (s.pc + 1 + 1)) := by
  simp only [resolve, busRead16_some hl hh, bind, Except.bind, State.afterRead_x]

theorem resolve_absoluteY {s : State} {lo hi : Byte} (hl : s.peek (s.pc + 1) = some lo)
    (hh : s.peek (s.pc + 1 + 1) = some hi) :
    resolve .absoluteY s = .ok (wordOf hi lo + zext s.y, (s.afterRead (s.pc + 1)).afterRead (s.pc + 1 + 1)) := by
  simp only [resolve, busRead16_some hl hh, bind, Except.bind, State.afterRead_y]

theorem resolve_indexedIndirect {s : State} {b : Byte} (h : s.peek (s.pc + 1) = some b) :
    resolve .indexedIndirect s =
      .ok (wordOf (s.zeroPageByte (b + s.x + 1)) (s.zeroPageByte (b + s.x)), s.afterRead (s.pc + 1)) := by
  simp only [resolve, busRead_some h, bind, Except.bind, readZeroPagePointer_eq, State.zeroPageByte,
    State.afterRead_mem, State.afterRead_x]

theorem resolve_indirectIndexed {s : State} {z : Byte} (h : s.peek (s.pc + 1) = some z) :
    resolve .indirectIndexed s =
      .ok (wordOf (s.zeroPageByte (z + 1)) (s.zeroPageByte z) + zext s.y, s.afterRead (s.pc + 1)) := by
  simp only [resolve, busRead_some h, bind, Except.bind, readZeroPagePointer_eq, State.zeroPageByte,
    State.afterRead_mem, State.afterRead_y]

/-- The address the high byte of an indirect jump's target is read at (R172). -/
def indirectHighAddr (ptr : Word) : Word := if lowByte ptr = 0xFF then ptr &&& 0xFF00 else ptr + 1

theorem resolve_indirect {s : State} {pl ph lo hi : Byte} (h1 : s.peek (s.pc + 1) = some pl)
    (h2 : s.peek (s.pc + 1 + 1) = some ph) (h3 : s.peek (wordOf ph pl) = some lo)
    (h4 : s.peek (indirectHighAddr (wordOf ph pl)) = some hi) :
    resolve .indirect s =
      .ok (wordOf hi lo, (((s.afterRead (s.pc + 1)).afterRead (s.pc + 1 + 1)).afterRead (wordOf ph pl)).afterRead
        (indirectHighAddr (wordOf ph pl))) := by
  have h3' : ((s.afterRead (s.pc + 1)).afterRead (s.pc + 1 + 1)).peek (wordOf ph pl) = some lo := by
    simp only [State.afterRead_peek, h3]
  have h4' : (((s.afterRead (s.pc + 1)).afterRead (s.pc + 1 + 1)).afterRead (wordOf ph pl)).peek
      (if lowByte (wordOf ph pl) = 0xFF then wordOf ph pl &&& 0xFF00 else wordOf ph pl + 1) = some hi := by
    simp only [State.afterRead_peek]
    exact h4
  simp only [resolve, busRead16_some h1 h2, bind, Except.bind, busRead_some h3', busRead_some h4']
  rfl

/-! The resolver's inversion: what an answer of one step of it can be. -/

theorem bind_ok {α β : Type} {x : Except Fault α} {f : α → Except Fault β} {b : β} (h : (x >>= f) = .ok b) :
    ∃ a, x = .ok a ∧ f a = .ok b := by
  cases x with
  | error e => simp [bind, Except.bind] at h
  | ok a => exact ⟨a, rfl, h⟩

theorem bind_error {α β : Type} {x : Except Fault α} {f : α → Except Fault β} {e : Fault}
    (h : (x >>= f) = .error e) : x = .error e ∨ ∃ a, x = .ok a ∧ f a = .error e := by
  cases x with
  | error e' => exact .inl (by simpa [bind, Except.bind] using h)
  | ok a => exact .inr ⟨a, rfl, h⟩

theorem OnlyLog.of_busRead16 {addr : Word} {s t : State} {w : Word} (h : busRead16 addr s = .ok (w, t)) :
    OnlyLog s t := by
  obtain ⟨_, _, _, _, _, rfl⟩ := busRead16_ok h
  exact (OnlyLog.afterRead _ _).trans (OnlyLog.afterRead _ _)

theorem busRead16_error {addr : Word} {s : State} {f : Fault} (h : busRead16 addr s = .error f) :
    ∃ q, f = .reservedWindow q .read := by
  rcases bind_error h with h | ⟨⟨lo, s1⟩, _, h⟩
  · exact ⟨_, (busRead_error h).2⟩
  · rcases bind_error h with h | ⟨⟨hi, s2⟩, _, h⟩
    · exact ⟨_, (busRead_error h).2⟩
    · cases h

/-- The resolver changes nothing but the log (R160). -/
theorem OnlyLog.of_resolve {mode : Mode} {s t : State} {ea : Word} (h : resolve mode s = .ok (ea, t)) :
    OnlyLog s t := by
  cases mode <;> simp only [resolve] at h
  case implicit => cases h
  case accumulator => cases h
  case immediate => cases h; exact OnlyLog.refl s
  case relative => cases h; exact OnlyLog.refl s
  case zeroPage | zeroPageX | zeroPageY =>
    obtain ⟨⟨b, s1⟩, h1, h2⟩ := bind_ok h
    cases h2
    exact OnlyLog.of_busRead h1
  case absolute => exact OnlyLog.of_busRead16 h
  case absoluteX | absoluteY =>
    obtain ⟨⟨b, s1⟩, h1, h2⟩ := bind_ok h
    cases h2
    exact OnlyLog.of_busRead16 h1
  case indirect =>
    obtain ⟨⟨ptr, s1⟩, h1, h⟩ := bind_ok h
    obtain ⟨⟨lo, s2⟩, h2, h⟩ := bind_ok h
    obtain ⟨⟨hi, s3⟩, h3, h⟩ := bind_ok h
    cases h
    exact ((OnlyLog.of_busRead16 h1).trans (OnlyLog.of_busRead h2)).trans (OnlyLog.of_busRead h3)
  case indexedIndirect =>
    obtain ⟨⟨b, s1⟩, h1, h2⟩ := bind_ok h
    rw [readZeroPagePointer_eq] at h2
    cases h2
    exact OnlyLog.of_busRead h1
  case indirectIndexed =>
    obtain ⟨⟨b, s1⟩, h1, h2⟩ := bind_ok h
    rw [readZeroPagePointer_eq] at h2
    cases h2
    exact OnlyLog.of_busRead h1

/-- The resolver faults only by misuse or by a read of the reserved window (R161, R342, R344). -/
theorem resolve_error {mode : Mode} {s : State} {f : Fault} (h : resolve mode s = .error f) :
    ((mode = .implicit ∨ mode = .accumulator) ∧ f = .resolverMisuse mode) ∨ ∃ q, f = .reservedWindow q .read := by
  cases mode <;> simp only [resolve] at h
  case implicit => cases h; exact .inl ⟨.inl rfl, rfl⟩
  case accumulator => cases h; exact .inl ⟨.inr rfl, rfl⟩
  case immediate => cases h
  case relative => cases h
  case zeroPage | zeroPageX | zeroPageY =>
    rcases bind_error h with h | ⟨⟨b, s1⟩, _, h⟩
    · exact .inr ⟨_, (busRead_error h).2⟩
    · cases h
  case absolute => exact .inr (busRead16_error h)
  case absoluteX | absoluteY =>
    rcases bind_error h with h | ⟨⟨b, s1⟩, _, h⟩
    · exact .inr (busRead16_error h)
    · cases h
  case indirect =>
    rcases bind_error h with h | ⟨⟨ptr, s1⟩, _, h⟩
    · exact .inr (busRead16_error h)
    rcases bind_error h with h | ⟨⟨lo, s2⟩, _, h⟩
    · exact .inr ⟨_, (busRead_error h).2⟩
    rcases bind_error h with h | ⟨⟨hi, s3⟩, _, h⟩
    · exact .inr ⟨_, (busRead_error h).2⟩
    · cases h
  case indexedIndirect =>
    rcases bind_error h with h | ⟨⟨b, s1⟩, _, h⟩
    · exact .inr ⟨_, (busRead_error h).2⟩
    · rw [readZeroPagePointer_eq] at h
      cases h
  case indirectIndexed =>
    rcases bind_error h with h | ⟨⟨b, s1⟩, _, h⟩
    · exact .inr ⟨_, (busRead_error h).2⟩
    · rw [readZeroPagePointer_eq] at h
      cases h

/-! ### Operand access -/

theorem locate_of_resolve {mode : Mode} {s s1 : State} {ea : Word} (h : resolve mode s = .ok (ea, s1)) :
    locate mode s = .ok (.memory ea, s1) := by
  cases mode
  case accumulator => simp [resolve] at h
  all_goals simp only [locate, h, bind, Except.bind]

theorem locate_ok {mode : Mode} {s s1 : State} {op : Operand} (h : locate mode s = .ok (op, s1)) :
    (mode = .accumulator ∧ op = .accumulator ∧ s1 = s) ∨
      (mode ≠ .accumulator ∧ ∃ ea, op = .memory ea ∧ resolve mode s = .ok (ea, s1)) := by
  by_cases hm : mode = .accumulator
  · subst hm
    cases h
    exact .inl ⟨rfl, rfl, rfl⟩
  · have h' : (resolve mode s >>= fun p => Except.ok (Operand.memory p.1, p.2)) = .ok (op, s1) := by
      cases mode <;> first | exact absurd rfl hm | exact h
    obtain ⟨⟨ea, s2⟩, h1, h2⟩ := bind_ok h'
    cases h2
    exact .inr ⟨hm, ea, rfl, h1⟩

theorem locate_error {mode : Mode} {s : State} {f : Fault} (h : locate mode s = .error f) :
    (mode = .implicit ∧ f = .resolverMisuse mode) ∨ ∃ q, f = .reservedWindow q .read := by
  by_cases hm : mode = .accumulator
  · subst hm
    cases h
  · have h' : (resolve mode s >>= fun p => Except.ok (Operand.memory p.1, p.2)) = .error f := by
      cases mode <;> first | exact absurd rfl hm | exact h
    rcases bind_error h' with h1 | ⟨_, _, h1⟩
    · rcases resolve_error h1 with ⟨hi | ha, hf⟩ | hq
      · exact .inl ⟨hi, hf⟩
      · exact absurd ha hm
      · exact .inr hq
    · cases h1

theorem OnlyLog.of_locate {mode : Mode} {s s1 : State} {op : Operand} (h : locate mode s = .ok (op, s1)) :
    OnlyLog s s1 := by
  rcases locate_ok h with ⟨_, _, rfl⟩ | ⟨_, ea, _, hr⟩
  · exact OnlyLog.refl _
  · exact OnlyLog.of_resolve hr

theorem OnlyLog.of_load {op : Operand} {s s1 : State} {v : Byte} (h : load op s = .ok (v, s1)) : OnlyLog s s1 := by
  cases op with
  | accumulator => cases h; exact OnlyLog.refl _
  | memory ea => exact OnlyLog.of_busRead h

/-! ### Ending an instruction -/

theorem retire_next {mode : Mode} {r : Except Fault State} {t : State} (h : retire mode r = .next t) :
    ∃ u, r = .ok u ∧ t = u.advance mode := by
  cases r with
  | error f => cases h
  | ok u => cases h; exact ⟨u, rfl, rfl⟩

theorem retire_fault {mode : Mode} {r : Except Fault State} {f : Fault} (h : retire mode r = .fault f) :
    r = .error f := by
  cases r with
  | error g => cases h; rfl
  | ok u => cases h

theorem complete_next {r : Except Fault State} {t : State} (h : complete r = .next t) : r = .ok t := by
  cases r with
  | error f => cases h
  | ok u => cases h; rfl

theorem complete_fault {r : Except Fault State} {f : Fault} (h : complete r = .fault f) : r = .error f := by
  cases r with
  | error g => cases h; rfl
  | ok u => cases h

/-! ### The shapes -/

/-- An instruction that reads its operand completes when the address resolves and the byte there is readable. -/
theorem readOperand_eq {mode : Mode} {f : Byte → State → State} {s s1 : State} {ea : Word} {m : Byte}
    (hr : resolve mode s = .ok (ea, s1)) (hm : s.peek ea = some m) :
    readOperand mode f s = .next ((f m (s1.afterRead ea)).advance mode) := by
  have hm' : s1.peek ea = some m := ((OnlyLog.of_resolve hr).peek ea).trans hm
  simp only [readOperand, locate_of_resolve hr, load, busRead_some hm', bind, Except.bind, retire]

/-- Everything such an instruction can answer as a next state. -/
theorem readOperand_next {mode : Mode} {f : Byte → State → State} {s t : State}
    (h : readOperand mode f s = .next t) : ∃ m u, OnlyLog s u ∧ t = (f m u).advance mode := by
  obtain ⟨u, hu, rfl⟩ := retire_next (show retire mode _ = _ from h)
  obtain ⟨⟨op, s1⟩, h1, h⟩ := bind_ok hu
  obtain ⟨⟨m, s2⟩, h2, h⟩ := bind_ok h
  cases h
  exact ⟨m, s2, (OnlyLog.of_locate h1).trans (OnlyLog.of_load h2), rfl⟩

/-- The faults of such an instruction. -/
theorem readOperand_fault {mode : Mode} {f : Byte → State → State} {s : State} {e : Fault}
    (h : readOperand mode f s = .fault e) :
    (mode = .implicit ∧ e = .resolverMisuse mode) ∨ ∃ q, e = .reservedWindow q .read := by
  rcases bind_error (retire_fault (show retire mode _ = _ from h)) with h | ⟨⟨op, s1⟩, _, h⟩
  · exact locate_error h
  rcases bind_error h with h | ⟨⟨m, s2⟩, _, h⟩
  · cases op with
    | accumulator => cases h
    | memory ea => exact .inr ⟨ea, (busRead_error h).2⟩
  · cases h

/-- A read-modify-write of memory completes when the address resolves to RAM or to the unmapped region. -/
theorem modifyOperand_memory {mode : Mode} {result : Byte → State → Byte} {flags : Byte → Byte → State → State}
    {s s1 s2 : State} {ea : Word} {v : Byte} (hr : resolve mode s = .ok (ea, s1)) (hv : s.peek ea = some v)
    (hw : busWrite ea (result v (s1.afterRead ea)) (s1.afterRead ea) = .ok s2) :
    modifyOperand mode result flags s = .next ((flags v (result v (s1.afterRead ea)) s2).advance mode) := by
  have hv' : s1.peek ea = some v := ((OnlyLog.of_resolve hr).peek ea).trans hv
  simp only [modifyOperand, locate_of_resolve hr, load, busRead_some hv', store, hw, bind, Except.bind, retire]

/-- A read-modify-write of A always completes. -/
theorem modifyOperand_accumulator (result : Byte → State → Byte) (flags : Byte → Byte → State → State) (s : State) :
    modifyOperand .accumulator result flags s =
      .next ((flags s.a (result s.a s) (s.setA (result s.a s))).advance .accumulator) := rfl

/-- Everything a read-modify-write can answer as a next state. -/
theorem modifyOperand_next {mode : Mode} {result : Byte → State → Byte} {flags : Byte → Byte → State → State}
    {s t : State} (h : modifyOperand mode result flags s = .next t) :
    (mode = .accumulator ∧ t = (flags s.a (result s.a s) (s.setA (result s.a s))).advance mode) ∨
      (mode ≠ .accumulator ∧ ∃ ea s1 v u, resolve mode s = .ok (ea, s1) ∧ s.peek ea = some v ∧
        busWrite ea (result v (s1.afterRead ea)) (s1.afterRead ea) = .ok u ∧
        t = (flags v (result v (s1.afterRead ea)) u).advance mode) := by
  obtain ⟨w, hu, rfl⟩ := retire_next (show retire mode _ = _ from h)
  obtain ⟨⟨op, s1⟩, h1, h⟩ := bind_ok hu
  obtain ⟨⟨v, s2⟩, h2, h⟩ := bind_ok h
  obtain ⟨u, h3, h⟩ := bind_ok h
  cases h
  rcases locate_ok h1 with ⟨rfl, rfl, rfl⟩ | ⟨hm, ea, rfl, hr⟩
  · cases h2
    cases h3
    exact .inl ⟨rfl, rfl⟩
  · obtain ⟨hp, rfl⟩ := busRead_ok h2
    exact .inr ⟨hm, ea, s1, v, u, hr, ((OnlyLog.of_resolve hr).peek ea).symm.trans hp, h3, rfl⟩

/-- The faults of a read-modify-write: the resolver's, the read's, and a write to ROM. -/
theorem modifyOperand_fault {mode : Mode} {result : Byte → State → Byte} {flags : Byte → Byte → State → State}
    {s : State} {e : Fault} (h : modifyOperand mode result flags s = .fault e) :
    (mode = .implicit ∧ e = .resolverMisuse mode) ∨ (∃ q, e = .reservedWindow q .read) ∨
      (mode ≠ .accumulator ∧ ∃ q v, 0x8000 ≤ q.toNat ∧ e = .romWrite q v) := by
  rcases bind_error (retire_fault (show retire mode _ = _ from h)) with h | ⟨⟨op, s1⟩, h1, h⟩
  · exact (locate_error h).imp_right .inl
  rcases bind_error h with h | ⟨⟨v, s2⟩, h2, h⟩
  · cases op with
    | accumulator => cases h
    | memory ea => exact .inr (.inl ⟨ea, (busRead_error h).2⟩)
  rcases bind_error h with h | ⟨u, _, h⟩
  · cases op with
    | accumulator => cases h
    | memory ea =>
      rcases region_cases ea with hr | hr | hr | hr
      · simp [store, busWrite_ram _ _ hr] at h
      · exact absurd ((busRead_ok h2).1.symm.trans ((peek_eq_none s1).mpr hr)) (by simp)
      · simp [store, busWrite_unmapped _ _ hr] at h
      · simp only [store, busWrite_rom _ _ hr, Except.error.injEq] at h
        refine .inr (.inr ⟨?_, ea, _, hr, h.symm⟩)
        rcases locate_ok h1 with ⟨_, hc, _⟩ | ⟨hm, _⟩
        · cases hc
        · exact hm
  · cases h

/-- A store completes when the address resolves and the write there does not fault. -/
theorem writeOperand_eq {mode : Mode} {value : State → Byte} {s s1 u : State} {ea : Word}
    (hr : resolve mode s = .ok (ea, s1)) (hw : busWrite ea (value s1) s1 = .ok u) :
    writeOperand mode value s = .next (u.advance mode) := by
  simp only [writeOperand, locate_of_resolve hr, store, hw, bind, Except.bind, retire]

/-- Everything a store can answer as a next state (a store has no Accumulator form). -/
theorem writeOperand_next {mode : Mode} {value : State → Byte} {s t : State} (hm : mode ≠ .accumulator)
    (h : writeOperand mode value s = .next t) :
    ∃ ea s1 u, resolve mode s = .ok (ea, s1) ∧ busWrite ea (value s1) s1 = .ok u ∧ t = u.advance mode := by
  obtain ⟨u, hu, rfl⟩ := retire_next (show retire mode _ = _ from h)
  obtain ⟨⟨op, s1⟩, h1, h⟩ := bind_ok hu
  rcases locate_ok h1 with ⟨hc, _⟩ | ⟨_, ea, rfl, hr⟩
  · exact absurd hc hm
  · exact ⟨ea, s1, u, hr, h, rfl⟩

/-- The faults of a store. -/
theorem writeOperand_fault {mode : Mode} {value : State → Byte} {s : State} {e : Fault}
    (h : writeOperand mode value s = .fault e) :
    (mode = .implicit ∧ e = .resolverMisuse mode) ∨ (∃ q k, e = .reservedWindow q k) ∨
      (∃ q v, 0x8000 ≤ q.toNat ∧ e = .romWrite q v) := by
  rcases bind_error (retire_fault (show retire mode _ = _ from h)) with h | ⟨⟨op, s1⟩, _, h⟩
  · rcases locate_error h with h | ⟨q, h⟩
    · exact .inl h
    · exact .inr (.inl ⟨q, _, h⟩)
  · cases op with
    | accumulator => cases h
    | memory ea =>
      rcases region_cases ea with hr | hr | hr | hr
      · simp [store, busWrite_ram _ _ hr] at h
      · simp only [store, busWrite_reserved _ _ hr, Except.error.injEq] at h
        exact .inr (.inl ⟨ea, _, h.symm⟩)
      · simp [store, busWrite_unmapped _ _ hr] at h
      · simp only [store, busWrite_rom _ _ hr, Except.error.injEq] at h
        exact .inr (.inr ⟨ea, _, hr, h.symm⟩)

theorem implied_eq (f : State → State) (s : State) : implied f s = .next ((f s).advance .implicit) := rfl

end Sys2Proof.Machine
end

