-- ==== Sys2Proof/Laws/Exec.lean ====
section
/-! SUPPORT. The dispatcher as the spec's 56-way switch on the mnemonic (R133), so that a proof over all instructions
has 56 cases, and what each control-transfer and stack operation answers. -/

namespace Sys2Proof.Machine

/-- The arm of the 56-way switch: the mnemonic's meaning, given the addressing mode (R133). -/
def meaningOf (n : Mnemonic) (mode : Mode) (s : State) : Result :=
  match n with
  | .adc => adc mode s
  | .and => logicAnd mode s
  | .asl => shiftLeft mode s
  | .bcc => execBcc s
  | .bcs => execBcs s
  | .beq => execBeq s
  | .bit => testBits mode s
  | .bmi => execBmi s
  | .bne => execBne s
  | .bpl => execBpl s
  | .brk => execBrk s
  | .bvc => execBvc s
  | .bvs => execBvs s
  | .clc => execClc s
  | .cld => execCld s
  | .cli => execCli s
  | .clv => execClv s
  | .cmp => compareA mode s
  | .cpx => compareX mode s
  | .cpy => compareY mode s
  | .dec => decrement mode s
  | .dex => execDex s
  | .dey => execDey s
  | .eor => logicXor mode s
  | .inc => increment mode s
  | .inx => execInx s
  | .iny => execIny s
  | .jmp => jump mode s
  | .jsr => execJsr s
  | .lda => loadAcc mode s
  | .ldx => loadXReg mode s
  | .ldy => loadYReg mode s
  | .lsr => shiftRight mode s
  | .nop => execNop s
  | .ora => logicOr mode s
  | .pha => execPha s
  | .php => execPhp s
  | .pla => execPla s
  | .plp => execPlp s
  | .rol => rotateLeft mode s
  | .ror => rotateRight mode s
  | .rti => execRti s
  | .rts => execRts s
  | .sbc => sbc mode s
  | .sec => execSec s
  | .sed => execSed s
  | .sei => execSei s
  | .sta => storeA mode s
  | .stx => storeX mode s
  | .sty => storeY mode s
  | .tax => execTax s
  | .tay => execTay s
  | .tsx => execTsx s
  | .txa => execTxa s
  | .txs => execTxs s
  | .tya => execTya s

/-- `exec` is the 56-way switch on the entry's mnemonic and mode (R133). -/
theorem exec_eq (i : Instr) (s : State) : exec i s = meaningOf i.mnemonic i.mode s := by
  cases i <;> rfl

/-! ### Branches -/

/-- A branch whose condition fails only advances; its displacement is not read (R250, D31). -/
theorem branch_not_taken {f : Flag} {v : Bool} {s : State} (h : s.flag f ≠ v) :
    branch f v s = .next (s.advance .relative) := by
  simp only [branch, resolve, bind, Except.bind, h, if_false, retire]

/-- A taken branch adds the displacement and then advances (R250, C1). -/
theorem branch_taken {f : Flag} {v : Bool} {s : State} {d : Byte} (h : s.flag f = v)
    (hd : s.peek (s.pc + 1) = some d) :
    branch f v s =
      .next (((s.afterRead (s.pc + 1)).setPc (s.pc + sext d)).advance .relative) := by
  simp only [branch, resolve, bind, Except.bind, h, if_true, busRead_some hd, retire, State.afterRead_pc]

/-- A taken branch whose displacement lies in the reserved window faults (R250). -/
theorem branch_fault {f : Flag} {v : Bool} {s : State} (h : s.flag f = v) (hd : s.peek (s.pc + 1) = none) :
    branch f v s = .fault (.reservedWindow (s.pc + 1) .read) := by
  simp only [branch, resolve, bind, Except.bind, h, if_true, busRead_none hd, retire, raiseFault]

/-- A branch changes PC and the log only. -/
theorem branch_next {f : Flag} {v : Bool} {s t : State} (h : branch f v s = .next t) :
    ∃ u pc, OnlyLog s u ∧ t = u.setPc pc := by
  by_cases hf : s.flag f = v
  · cases hd : s.peek (s.pc + 1) with
    | none => rw [branch_fault hf hd] at h; cases h
    | some d =>
      rw [branch_taken hf hd] at h
      cases h
      exact ⟨s.afterRead (s.pc + 1), _, OnlyLog.afterRead _ _, rfl⟩
  · rw [branch_not_taken hf] at h
    cases h
    exact ⟨s, _, OnlyLog.refl s, rfl⟩

theorem branch_error {f : Flag} {v : Bool} {s : State} {e : Fault} (h : branch f v s = .fault e) :
    ∃ q, e = .reservedWindow q .read := by
  by_cases hf : s.flag f = v
  · cases hd : s.peek (s.pc + 1) with
    | none => rw [branch_fault hf hd] at h; cases h; exact ⟨_, rfl⟩
    | some d => rw [branch_taken hf hd] at h; cases h
  · rw [branch_not_taken hf] at h
    cases h

/-! ### Jumps, subroutines, the stack -/

theorem jump_eq {mode : Mode} {s s1 : State} {ea : Word} (h : resolve mode s = .ok (ea, s1)) :
    jump mode s = .next (s1.setPc ea) := by
  simp only [jump, h, bind, Except.bind, complete]

theorem jump_next {mode : Mode} {s t : State} (h : jump mode s = .next t) :
    ∃ ea s1, resolve mode s = .ok (ea, s1) ∧ t = s1.setPc ea := by
  obtain ⟨⟨ea, s1⟩, h1, h2⟩ := bind_ok (complete_next (show complete _ = _ from h))
  cases h2
  exact ⟨ea, s1, h1, rfl⟩

theorem jump_fault {mode : Mode} {s : State} {e : Fault} (h : jump mode s = .fault e) :
    ((mode = .implicit ∨ mode = .accumulator) ∧ e = .resolverMisuse mode) ∨ ∃ q, e = .reservedWindow q .read := by
  rcases bind_error (complete_fault (show complete _ = _ from h)) with h | ⟨_, _, h⟩
  · exact resolve_error h
  · cases h

/-- The state after JSR's two pushes, the return value's high byte first (R261). -/
def State.pushWord (s : State) (w : Word) : State :=
  (s.setMem (Memory.write (Memory.write s.mem (0x0100 + s.sp.toNat) (highByte w)) (0x0100 + (s.sp - 1).toNat)
    (lowByte w))).setSp (s.sp - 2)

/-- What an address reads as after a word is pushed: the low byte was written last (R261). -/
theorem peek_pushWord (s : State) (w q : Word) :
    (s.pushWord w).peek q =
      if SameRamByte (stackAddr (s.sp - 1)) q then some (lowByte w)
      else if SameRamByte (stackAddr s.sp) q then some (highByte w) else s.peek q := by
  have h := peek_setMem_stack (s.sp - 1) (lowByte w)
    (s.setMem (Memory.write s.mem (0x0100 + s.sp.toNat) (highByte w))) q
  exact (peek_setMem_stack s.sp (highByte w) s q) ▸ h

theorem jsr_eq {s s1 : State} {ea : Word} (h : resolve .absolute s = .ok (ea, s1)) :
    jumpSubroutine s = .next ((s1.pushWord (s.pc + 2)).setPc ea) := by
  have hs : s1.sp - 1 - 1 = s1.sp - 2 := by
    rw [BitVec.sub_sub]
    rfl
  obtain ⟨d, rfl⟩ := OnlyLog.of_resolve h
  simp only [jumpSubroutine, h, bind, Except.bind, push_eq, complete, State.setSp_sp, hs]
  rfl

theorem jsr_next {s t : State} (h : jumpSubroutine s = .next t) :
    ∃ ea s1, resolve .absolute s = .ok (ea, s1) ∧ t = (s1.pushWord (s.pc + 2)).setPc ea := by
  cases hr : resolve .absolute s with
  | error f => simp [jumpSubroutine, hr, bind, Except.bind, complete, raiseFault] at h
  | ok p =>
    obtain ⟨ea, s1⟩ := p
    rw [jsr_eq hr] at h
    cases h
    exact ⟨ea, s1, rfl, rfl⟩

theorem jsr_fault {s : State} {e : Fault} (h : jumpSubroutine s = .fault e) : ∃ q, e = .reservedWindow q .read := by
  cases hr : resolve .absolute s with
  | error f =>
    simp only [jumpSubroutine, hr, bind, Except.bind, complete, raiseFault, Host.Outcome.fault.injEq] at h
    rcases resolve_error hr with ⟨hc | hc, _⟩ | hq
    · cases hc
    · cases hc
    · exact h ▸ hq
  | ok p =>
    obtain ⟨ea, s1⟩ := p
    rw [jsr_eq hr] at h
    cases h

theorem rts_eq (s : State) :
    execRts s = .next ((s.setSp (s.sp + 2)).setPc (wordOf (s.stackByte (s.sp + 2)) (s.stackByte (s.sp + 1)) + 1)) := by
  simp only [execRts, returnSubroutine, pull16_eq, bind, Except.bind, complete]

theorem rti_eq (s : State) :
    execRti s =
      .next (((s.setSp (s.sp + 3)).setSr (pulledStatus (s.stackByte (s.sp + 1)))).setPc
        (wordOf (s.stackByte (s.sp + 3)) (s.stackByte (s.sp + 2)))) := by
  simp only [execRti, returnFromInterrupt_eq, complete]

theorem brk_eq (s : State) : execBrk s = .next (s.setFlag .b true) := rfl

theorem nop_eq (s : State) : execNop s = .next (s.advance .implicit) := rfl

theorem pha_eq (s : State) :
    execPha s =
      .next (((s.setMem (Memory.write s.mem (0x0100 + s.sp.toNat) s.a)).setSp (s.sp - 1)).advance .implicit) := by
  simp only [execPha, push_eq, retire]

theorem php_eq (s : State) :
    execPhp s =
      .next (((s.setMem (Memory.write s.mem (0x0100 + s.sp.toNat) (pushedStatus s.sr))).setSp (s.sp - 1)).advance
        .implicit) := by
  simp only [execPhp, push_eq, retire]

theorem pla_eq (s : State) :
    execPla s = .next ((loadA (s.stackByte (s.sp + 1)) (s.setSp (s.sp + 1))).advance .implicit) := by
  simp only [execPla, pull_eq, bind, Except.bind, retire]

theorem plp_eq (s : State) :
    execPlp s =
      .next (((s.setSp (s.sp + 1)).setSr (pulledStatus (s.stackByte (s.sp + 1)))).advance .implicit) := by
  simp only [execPlp, pull_eq, bind, Except.bind, retire]

/-! ### Faults and refusals -/

/-- The mnemonics whose meaning locates an operand. -/
def operandMnemonics : List Mnemonic :=
  [.adc, .sbc, .and, .ora, .eor, .bit, .asl, .lsr, .rol, .ror, .cmp, .cpx, .cpy, .inc, .dec, .jmp, .lda, .ldx, .ldy,
   .sta, .stx, .sty]

/-- No row gives such a mnemonic the Implicit mode (R110). -/
theorem mode_ne_implicit {i : Instr} (h : i.mnemonic ∈ operandMnemonics) : i.mode ≠ .implicit := by
  revert h
  cases i <;> decide

/-- No row gives a store or a jump the Accumulator mode (R110). -/
theorem mode_ne_accumulator {i : Instr} (h : i.mnemonic ∈ [.jmp, .sta, .stx, .sty]) : i.mode ≠ .accumulator := by
  revert h
  cases i <;> decide

/-- Every fault an instruction can raise: a read or a write of the reserved window, or a write to ROM (R347). -/
theorem exec_fault {i : Instr} {s : State} {e : Fault} (h : exec i s = .fault e) :
    (∃ q k, e = .reservedWindow q k) ∨ ∃ q v, 0x8000 ≤ q.toNat ∧ e = .romWrite q v := by
  have hm := @mode_ne_implicit i
  have ha := @mode_ne_accumulator i
  rw [exec_eq] at h
  cases hn : i.mnemonic <;> rw [hn] at h hm ha <;> simp only [meaningOf] at h
  case adc | sbc | and | ora | eor | bit | cmp | cpx | cpy | lda | ldx | ldy =>
    rcases readOperand_fault h with ⟨hc, _⟩ | ⟨q, hq⟩
    · exact absurd hc (hm (by decide))
    · exact .inl ⟨q, _, hq⟩
  case asl | lsr | rol | ror | inc | dec =>
    rcases modifyOperand_fault h with ⟨hc, _⟩ | ⟨q, hq⟩ | ⟨_, hr⟩
    · exact absurd hc (hm (by decide))
    · exact .inl ⟨q, _, hq⟩
    · exact .inr hr
  case sta | stx | sty =>
    rcases writeOperand_fault h with ⟨hc, _⟩ | hq | hr
    · exact absurd hc (hm (by decide))
    · exact .inl hq
    · exact .inr hr
  case bcc | bcs | beq | bne | bmi | bpl | bvc | bvs =>
    obtain ⟨q, hq⟩ := branch_error h
    exact .inl ⟨q, _, hq⟩
  case jmp =>
    rcases jump_fault h with ⟨hc | hc, _⟩ | ⟨q, hq⟩
    · exact absurd hc (hm (by decide))
    · exact absurd hc (ha (by decide))
    · exact .inl ⟨q, _, hq⟩
  case jsr =>
    obtain ⟨q, hq⟩ := jsr_fault h
    exact .inl ⟨q, _, hq⟩
  case rts => rw [rts_eq] at h; cases h
  case rti => rw [rti_eq] at h; cases h
  case pha => rw [pha_eq] at h; cases h
  case php => rw [php_eq] at h; cases h
  case pla => rw [pla_eq] at h; cases h
  case plp => rw [plp_eq] at h; cases h
  all_goals cases h

theorem retire_ne_refused (mode : Mode) (r : Except Fault State) (x : Refusal) : retire mode r ≠ .refused x := by
  cases r <;> simp [retire, raiseFault]

theorem complete_ne_refused (r : Except Fault State) (x : Refusal) : complete r ≠ .refused x := by
  cases r <;> simp [complete, raiseFault]

/-- No instruction is refused. -/
theorem exec_ne_refused (i : Instr) (s : State) (x : Refusal) : exec i s ≠ .refused x := by
  rw [exec_eq]
  cases i.mnemonic
  case jmp | jsr | rts | rti => exact complete_ne_refused _ x
  all_goals first | exact retire_ne_refused _ _ x | (intro h; cases h)

end Sys2Proof.Machine
end

