-- ==== Sys2Proof/Laws/Step.lean ====
section
/-! SUPPORT. What the callback, the fetch and a step can do, what an instruction can do to memory, and that every step
keeps the canonical form of memory and the cells it lists. -/

namespace Sys2Proof.Machine

/-! ### The callback -/

/-- The cells a callback may write. -/
theorem callback_eq (s : State) :
    callback s = s ∨ ∃ mv rest, s.hostMoves = mv :: rest ∧
      callback s = hostWrite Config.directionCell mv.direction
        (hostWrite Config.randomCell mv.random (s.setHostMoves rest)) := by
  cases h : s.hostMoves with
  | nil => exact .inl (by simp [callback, h])
  | cons mv rest => exact .inr ⟨mv, rest, rfl, by simp [callback, h]⟩

theorem hostWrite_eq (cell : Nat) (v : Option Byte) (s : State) :
    hostWrite cell v s = s.setMem (match v with | none => s.mem | some b => Memory.write s.mem cell b) := by
  cases v <;> rfl

/-- The callback touches memory and the list of coming moves only. -/
theorem callback_with (s : State) :
    callback s = { s with mem := (callback s).mem, hostMoves := s.hostMoves.tail } := by
  cases h : s.hostMoves with
  | nil =>
    have : callback s = s := by simp [callback, h]
    rw [this, ← h]
    cases s
    simp_all
  | cons mv rest =>
    have : callback s = hostWrite Config.directionCell mv.direction
        (hostWrite Config.randomCell mv.random (s.setHostMoves rest)) := by simp [callback, h]
    rw [this, hostWrite_eq, hostWrite_eq]
    rfl

@[simp] theorem callback_a (s : State) : (callback s).a = s.a := by rw [callback_with]
@[simp] theorem callback_x (s : State) : (callback s).x = s.x := by rw [callback_with]
@[simp] theorem callback_y (s : State) : (callback s).y = s.y := by rw [callback_with]
@[simp] theorem callback_sp (s : State) : (callback s).sp = s.sp := by rw [callback_with]
@[simp] theorem callback_pc (s : State) : (callback s).pc = s.pc := by rw [callback_with]
@[simp] theorem callback_sr (s : State) : (callback s).sr = s.sr := by rw [callback_with]
@[simp] theorem callback_prgSize (s : State) : (callback s).prgSize = s.prgSize := by rw [callback_with]
@[simp] theorem callback_diag (s : State) : (callback s).diag = s.diag := by rw [callback_with]
@[simp] theorem callback_hostMoves (s : State) : (callback s).hostMoves = s.hostMoves.tail := by rw [callback_with]

/-! ### Writes to RAM -/

/-- `n` is `m` after some writes to cells of RAM. -/
inductive RamWrites : Memory → Memory → Prop where
  | refl (m : Memory) : RamWrites m m
  | write {m n : Memory} (h : RamWrites m n) {c : Nat} (hc : c < 0x0800) (v : Byte) : RamWrites m (Memory.write n c v)

theorem RamWrites.trans {l m n : Memory} (h : RamWrites l m) (k : RamWrites m n) : RamWrites l n := by
  induction k with
  | refl => exact h
  | write _ hc v ih => exact ih.write hc v

theorem RamWrites.one (m : Memory) {c : Nat} (hc : c < 0x0800) (v : Byte) : RamWrites m (Memory.write m c v) :=
  (RamWrites.refl m).write hc v

/-- Writes to RAM keep the canonical form. -/
theorem RamWrites.wf {m n : Memory} (h : RamWrites m n) (hm : Memory.wf m) : Memory.wf n := by
  induction h with
  | refl => exact hm
  | write _ _ v ih => exact Memory.wf_write ih _ v

/-- Writes to RAM list no cell but those listed and RAM's. -/
theorem RamWrites.cells {size : PrgSize} {m n : Memory} (h : RamWrites m n) (hm : ∀ c ∈ m, IsCell size c.1) :
    ∀ c ∈ n, IsCell size c.1 := by
  induction h with
  | refl => exact hm
  | write _ hc v ih =>
    intro e he
    rcases Memory.mem_write he with ⟨rfl, _⟩ | he
    · exact .inl hc
    · exact ih e he

/-- Writes to RAM leave the image as it is. -/
theorem RamWrites.read_rom {m n : Memory} (h : RamWrites m n) {c : Nat} (hc : 0x8000 ≤ c) :
    Memory.read n c = Memory.read m c := by
  induction h with
  | refl => rfl
  | write _ hk v ih => rw [Memory.read_write_other _ v (by omega), ih]

theorem RamWrites.of_busWrite {addr : Word} {v : Byte} {s t : State} (h : busWrite addr v s = .ok t) :
    RamWrites s.mem t.mem := by
  rcases busWrite_ok h with ⟨_, rfl⟩ | ⟨_, rfl⟩
  · exact RamWrites.one _ (Nat.mod_lt _ (by norm_num)) v
  · exact RamWrites.refl _

theorem RamWrites.callback (s : State) : RamWrites s.mem (Machine.callback s).mem := by
  rcases callback_eq s with h | ⟨mv, rest, _, h⟩
  · rw [h]; exact RamWrites.refl _
  · rw [h, hostWrite_eq, hostWrite_eq]
    cases mv.random <;> cases mv.direction
    · exact RamWrites.refl _
    · exact RamWrites.one _ (show Config.directionCell < 0x0800 by decide) _
    · exact RamWrites.one _ (show Config.randomCell < 0x0800 by decide) _
    · exact (RamWrites.one _ (show Config.randomCell < 0x0800 by decide) _).write
        (show Config.directionCell < 0x0800 by decide) _

/-! ### What an instruction keeps -/

/-- What every instruction keeps: memory changes by RAM writes only, the image's size and the host's coming moves
stay, the log only grows, and SR.U is not cleared. -/
structure Keeps (s t : State) : Prop where
  mem : RamWrites s.mem t.mem
  prgSize : t.prgSize = s.prgSize
  hostMoves : t.hostMoves = s.hostMoves
  diag : s.diag <:+ t.diag
  unused : s.flag .u = true → t.flag .u = true

theorem Keeps.of_onlyLog {s t u : State} (h : OnlyLog s u) (k : Keeps u t) : Keeps s t := by
  obtain ⟨d, rfl⟩ := h
  exact ⟨k.mem, k.prgSize, k.hostMoves, (List.suffix_append d s.diag).trans k.diag, k.unused⟩

theorem Keeps.of_readOperand {mode : Mode} {f : Byte → State → State} {s t : State}
    (hf : ∀ m u, Keeps u (f m u)) (h : readOperand mode f s = .next t) : Keeps s t := by
  obtain ⟨m, u, hu, rfl⟩ := readOperand_next h
  have k := hf m u
  exact Keeps.of_onlyLog hu ⟨k.mem, k.prgSize, k.hostMoves, k.diag, k.unused⟩

theorem Keeps.of_busWrite {addr : Word} {v : Byte} {s t : State} (h : busWrite addr v s = .ok t) : Keeps s t := by
  have hm := RamWrites.of_busWrite h
  rcases busWrite_ok h with ⟨_, rfl⟩ | ⟨_, rfl⟩
  · exact ⟨hm, rfl, rfl, List.suffix_refl _, id⟩
  · exact ⟨hm, rfl, rfl, List.suffix_cons _ _, id⟩

theorem Keeps.trans {s t u : State} (h : Keeps s t) (k : Keeps t u) : Keeps s u :=
  ⟨h.mem.trans k.mem, k.prgSize.trans h.prgSize, k.hostMoves.trans h.hostMoves, h.diag.trans k.diag,
    fun hu => k.unused (h.unused hu)⟩

theorem Keeps.of_modifyOperand {mode : Mode} {result : Byte → State → Byte} {flags : Byte → Byte → State → State}
    {s t : State} (hf : ∀ v r u, Keeps u (flags v r u)) (h : modifyOperand mode result flags s = .next t) :
    Keeps s t := by
  rcases modifyOperand_next h with ⟨_, rfl⟩ | ⟨_, ea, s1, v, u, hr, _, hw, rfl⟩
  · have k := hf s.a (result s.a s) (s.setA (result s.a s))
    exact ⟨k.mem, k.prgSize, k.hostMoves, k.diag, k.unused⟩
  · have k := (Keeps.of_busWrite hw).trans (hf v (result v (s1.afterRead ea)) u)
    exact Keeps.of_onlyLog ((OnlyLog.of_resolve hr).trans (OnlyLog.afterRead _ _))
      ⟨k.mem, k.prgSize, k.hostMoves, k.diag, k.unused⟩

theorem Keeps.of_writeOperand {mode : Mode} {value : State → Byte} {s t : State}
    (h : writeOperand mode value s = .next t) : Keeps s t := by
  obtain ⟨u, hu, rfl⟩ := retire_next (show retire mode _ = _ from h)
  obtain ⟨⟨op, s1⟩, h1, h2⟩ := bind_ok hu
  have k : Keeps s1 u := by
    cases op with
    | accumulator => cases h2; exact ⟨RamWrites.refl _, rfl, rfl, List.suffix_refl _, id⟩
    | memory ea => exact Keeps.of_busWrite h2
  exact Keeps.of_onlyLog (OnlyLog.of_locate h1) ⟨k.mem, k.prgSize, k.hostMoves, k.diag, k.unused⟩

/-- A change of registers and flags that leaves SR.U set keeps the rest. -/
theorem Keeps.of_registers {s t : State} (hm : t.mem = s.mem) (hp : t.prgSize = s.prgSize)
    (hh : t.hostMoves = s.hostMoves) (hd : t.diag = s.diag) (hu : s.flag .u = true → t.flag .u = true) : Keeps s t :=
  ⟨hm ▸ RamWrites.refl _, hp, hh, hd ▸ List.suffix_refl _, hu⟩

theorem Keeps.setZN (v : Byte) (s : State) : Keeps s (setZN v s) :=
  Keeps.of_registers rfl rfl rfl rfl fun h => by simp [flag_setZN, h]

theorem Keeps.compare8 (r m : Byte) (s : State) : Keeps s (compare8 r m s) :=
  Keeps.of_registers rfl rfl rfl rfl fun h => by simp [flag_compare8, h]

theorem Keeps.writeSum (r : AddResult) (s : State) : Keeps s (writeSum r s) :=
  Keeps.of_registers rfl rfl rfl rfl fun h => by simp [flag_writeSum, h]

theorem Keeps.bitFlags (m : Byte) (s : State) : Keeps s (bitFlags m s) :=
  Keeps.of_registers rfl rfl rfl rfl fun h => by simp [flag_bitFlags, h]

theorem Keeps.shiftFlags (out : Bool) (r : Byte) (s : State) : Keeps s (shiftFlags out r s) :=
  Keeps.of_registers rfl rfl rfl rfl fun h => by simp [flag_shiftFlags, h]

theorem Keeps.loadA (v : Byte) (s : State) : Keeps s (loadA v s) :=
  Keeps.of_registers rfl rfl rfl rfl fun h => by simp [flag_setZN, h]

theorem Keeps.loadX (v : Byte) (s : State) : Keeps s (loadX v s) :=
  Keeps.of_registers rfl rfl rfl rfl fun h => by simp [flag_setZN, h]

theorem Keeps.loadY (v : Byte) (s : State) : Keeps s (loadY v s) :=
  Keeps.of_registers rfl rfl rfl rfl fun h => by simp [flag_setZN, h]

theorem Keeps.of_implied {f : State → State} {s t : State} (hf : ∀ u, Keeps u (f u)) (h : implied f s = .next t) :
    Keeps s t := by
  rw [implied_eq] at h
  cases h
  have k := hf s
  exact ⟨k.mem, k.prgSize, k.hostMoves, k.diag, k.unused⟩

theorem Keeps.setFlag (s : State) {f : Flag} (v : Bool) (hf : f ≠ .u) : Keeps s (s.setFlag f v) :=
  Keeps.of_registers rfl rfl rfl rfl fun h => by rw [State.flag_setFlag_other s v hf.symm]; exact h

theorem Keeps.of_branch {f : Flag} {v : Bool} {s t : State} (h : branch f v s = .next t) : Keeps s t := by
  obtain ⟨u, pc, hu, rfl⟩ := branch_next h
  exact Keeps.of_onlyLog hu (Keeps.of_registers rfl rfl rfl rfl id)

theorem Keeps.of_push {v : Byte} {s : State} :
    Keeps s ((s.setMem (Memory.write s.mem (0x0100 + s.sp.toNat) v)).setSp (s.sp - 1)) :=
  ⟨RamWrites.one _ (by have := s.sp.isLt; omega) v, rfl, rfl, List.suffix_refl _, id⟩

theorem Keeps.of_pushWord (s : State) (w : Word) : Keeps s (s.pushWord w) :=
  ⟨(RamWrites.one _ (by have := s.sp.isLt; omega) _).write (by have := (s.sp - 1).isLt; omega) _, rfl, rfl,
    List.suffix_refl _, id⟩

theorem Keeps.of_advance {s t : State} {mode : Mode} (k : Keeps s t) : Keeps s (t.advance mode) :=
  ⟨k.mem, k.prgSize, k.hostMoves, k.diag, k.unused⟩

/-- What every instruction keeps. -/
theorem exec_keeps {i : Instr} {s t : State} (h : exec i s = .next t) : Keeps s t := by
  rw [exec_eq] at h
  cases hn : i.mnemonic <;> rw [hn] at h <;> simp only [meaningOf] at h
  case adc | sbc => exact Keeps.of_readOperand (fun _ _ => Keeps.writeSum _ _) h
  case and | ora | eor => exact Keeps.of_readOperand (fun _ _ => Keeps.loadA _ _) h
  case bit => exact Keeps.of_readOperand Keeps.bitFlags h
  case asl | lsr | rol | ror => exact Keeps.of_modifyOperand (fun _ _ _ => Keeps.shiftFlags _ _ _) h
  case cmp | cpx | cpy => exact Keeps.of_readOperand (fun _ _ => Keeps.compare8 _ _ _) h
  case inc | dec => exact Keeps.of_modifyOperand (fun _ _ _ => Keeps.setZN _ _) h
  case inx | dex | tax | tsx => exact Keeps.of_implied (fun _ => Keeps.loadX _ _) h
  case iny | dey | tay => exact Keeps.of_implied (fun _ => Keeps.loadY _ _) h
  case txa | tya => exact Keeps.of_implied (fun _ => Keeps.loadA _ _) h
  case txs => exact Keeps.of_implied (f := fun u => u.setSp u.x) (fun _ => Keeps.of_registers rfl rfl rfl rfl id) h
  case nop => exact Keeps.of_implied (f := id) (fun _ => Keeps.of_registers rfl rfl rfl rfl id) h
  case bcc | bcs | beq | bne | bmi | bpl | bvc | bvs => exact Keeps.of_branch h
  case clc | sec | cli | sei | cld | sed | clv =>
    exact Keeps.of_implied (fun u => Keeps.setFlag u _ (by decide)) h
  case lda => exact Keeps.of_readOperand Keeps.loadA h
  case ldx => exact Keeps.of_readOperand Keeps.loadX h
  case ldy => exact Keeps.of_readOperand Keeps.loadY h
  case sta | stx | sty => exact Keeps.of_writeOperand h
  case jmp =>
    obtain ⟨ea, s1, hr, rfl⟩ := jump_next h
    exact Keeps.of_onlyLog (OnlyLog.of_resolve hr) (Keeps.of_registers rfl rfl rfl rfl id)
  case jsr =>
    obtain ⟨ea, s1, hr, rfl⟩ := jsr_next h
    have k := Keeps.of_pushWord s1 (s.pc + 2)
    exact Keeps.of_onlyLog (OnlyLog.of_resolve hr) ⟨k.mem, k.prgSize, k.hostMoves, k.diag, k.unused⟩
  case rts => rw [rts_eq] at h; cases h; exact Keeps.of_registers rfl rfl rfl rfl id
  case rti =>
    rw [rti_eq] at h
    cases h
    exact Keeps.of_registers rfl rfl rfl rfl fun _ => by simp [readFlag_pulledStatus]
  case brk => cases h; exact Keeps.setFlag s true (by decide)
  case pha => rw [pha_eq] at h; cases h; exact Keeps.of_push.of_advance
  case php => rw [php_eq] at h; cases h; exact Keeps.of_push.of_advance
  case pla =>
    rw [pla_eq] at h
    cases h
    exact Keeps.of_registers rfl rfl rfl rfl fun hu => by simpa [flag_setZN] using hu
  case plp =>
    rw [plp_eq] at h
    cases h
    exact Keeps.of_registers rfl rfl rfl rfl fun _ => by simp [readFlag_pulledStatus]

/-! ### A step -/

theorem fetch_eq {s : State} {b : Byte} (h : s.peek s.pc = some b) :
    fetch s = match decode b with
      | .ok i => .ok (i, s.afterRead s.pc)
      | .error _ => .error (.illegalOpcode b s.pc) := by
  cases hd : decode b <;> simp [fetch, busRead_some h, bind, Except.bind, hd]

theorem fetch_none {s : State} (h : s.peek s.pc = none) : fetch s = .error (.reservedWindow s.pc .read) := by
  simp only [fetch, busRead_none h, bind, Except.bind]

/-- A step of a Running state whose opcode byte decodes is the execution of that instruction (R130). -/
theorem step_of_decode {s : State} {b : Byte} {i : Instr} (hr : s.halted = false)
    (hb : (callback s).peek s.pc = some b) (hd : decode b = .ok i) :
    step s = exec i ((callback s).afterRead s.pc) := by
  have hb' : (callback s).peek (callback s).pc = some b := by rwa [callback_pc]
  rw [step, hr, if_neg (by simp), stepInstr, fetch_eq hb', hd]
  simp

/-- Everything a step can answer as a next state. -/
theorem step_next {s t : State} (h : step s = .next t) :
    s.halted = false ∧ ∃ i, exec i ((callback s).afterRead s.pc) = .next t := by
  cases hh : s.halted with
  | true => simp [step, hh] at h
  | false =>
    refine ⟨rfl, ?_⟩
    rw [step, hh, if_neg (by simp), stepInstr] at h
    cases hb : (callback s).peek (callback s).pc with
    | none => rw [fetch_none hb] at h; cases h
    | some b =>
      rw [fetch_eq hb] at h
      cases hd : decode b with
      | error e => rw [hd] at h; cases h
      | ok i =>
        rw [hd] at h
        exact ⟨i, by simpa using h⟩

/-- What every step keeps: memory changes by RAM writes only, and the image's size stays. -/
theorem step_ramWrites {s t : State} (h : step s = .next t) :
    RamWrites s.mem t.mem ∧ t.prgSize = s.prgSize ∧ (s.flag .u = true → t.flag .u = true) := by
  obtain ⟨_, i, hi⟩ := step_next h
  have k := Keeps.of_onlyLog (OnlyLog.afterRead _ _) (exec_keeps hi)
  refine ⟨(RamWrites.callback s).trans k.mem, k.prgSize.trans (callback_prgSize s), fun hu => k.unused ?_⟩
  simpa [State.flag] using hu

end Sys2Proof.Machine
end

