-- ==== Sys2Proof/Laws/Launch.lean ====
section
/-! SUPPORT. The reset procedure and the launch: the vector read goes through the bus, `State.reset` is the procedure at
the default parameters, and what the launched memory reads as. -/

namespace Sys2Proof.Machine

/-- The vector load is the bus's 16-bit read at 0xFFFC, which neither faults nor logs (R381). -/
theorem loadVector_eq_busRead16 (s : State) :
    ∃ w, busRead16 Config.resetVector s = .ok (w, s) ∧ s.loadVector = s.setPc w := by
  have h1 : 0x8000 ≤ Config.resetVector.toNat := by decide
  have h2 : 0x8000 ≤ (Config.resetVector + 1).toNat := by decide
  have n1 : ¬ Unmapped Config.resetVector := by decide
  have n2 : ¬ Unmapped (Config.resetVector + 1) := by decide
  have hb := busRead16_some (peek_rom s h1) (peek_rom s h2)
  rw [State.afterRead_eq n1, State.afterRead_eq n2] at hb
  exact ⟨_, hb, by simp only [State.loadVector, State.vectorByte, peek_rom s h1, peek_rom s h2, Option.getD_some]⟩

/-- `State.reset` is the reset procedure at the default parameters and an empty memory (R380). -/
theorem resetState_default : resetState .k32 [] Config.spReset [] = State.reset := by
  simp only [resetState, State.loadVector, State.vectorByte, State.setPc]
  rw [peek_rom _ (show 0x8000 ≤ Config.resetVector.toNat by decide),
    peek_rom _ (show 0x8000 ≤ (Config.resetVector + 1).toNat by decide)]
  rfl

theorem read_launchMemory_ram {ramInit prg : List Byte} {c : Nat} (hc : c < Config.romBase) :
    Memory.read (launchMemory ramInit prg) c = ramInit.getD c Config.unlisted := by
  have hp : Memory.read (Memory.ofBytes Config.romBase prg) c = Config.unlisted := by
    rw [Memory.read_ofBytes, if_neg (by omega)]
  have key : ∀ (m n : Memory), Memory.read n c = Config.unlisted → Memory.read (m ++ n) c = Memory.read m c := by
    intro m n hn
    induction m with
    | nil => simpa using hn
    | cons e m ih => rw [List.cons_append, Memory.read_cell, Memory.read_cell, ih]
  rw [launchMemory, key _ _ hp, Memory.read_ofBytes, if_pos (Nat.zero_le c), Nat.sub_zero]

theorem read_launchMemory_rom {ramInit prg : List Byte} (hr : ramInit.length ≤ Config.romBase) (k : Nat) :
    Memory.read (launchMemory ramInit prg) (Config.romBase + k) = prg.getD k Config.unlisted := by
  rw [launchMemory, Memory.read_append _ _ _ fun e he => by have := (Memory.mem_ofBytes he).2.1; omega,
    Memory.read_ofBytes, if_pos (Nat.le_add_right _ _), Nat.add_sub_cancel_left]

/-- Writes of a byte string read back as the string. -/
theorem Memory.read_writeBytes (l : List Byte) (m : Memory) (c d : Nat) :
    Memory.read (Memory.writeBytes m c l) d = if c ≤ d ∧ d < c + l.length then l.getD (d - c) 0 else Memory.read m d := by
  induction l generalizing m c with
  | nil => simp [Memory.writeBytes]
  | cons v l ih =>
    rw [Memory.writeBytes, ih, Memory.read_write]
    rcases lt_trichotomy c d with h | rfl | h
    · have h1 : d - c = (d - (c + 1)) + 1 := by omega
      have h2 : (c < d ∧ d < c + 1 + l.length) ↔ (c ≤ d ∧ d < c + (l.length + 1)) := by omega
      simp [h1, h.ne', ← h2]
    · simp
    · have h1 : ¬ (c + 1 ≤ d ∧ d < c + 1 + l.length) := by omega
      have h2 : ¬ (c ≤ d ∧ d < c + (v :: l).length) := by omega
      rw [if_neg h1, if_neg h2, if_neg (by omega)]

end Sys2Proof.Machine
end

