-- ==== Sys2Proof/Laws/Timing.lean ====
section
/-! SUPPORT. The timing contract against the machine: it tests the branch the machine takes, its page-cross base is the
word the resolver adds the index to, and the two penalty fields stand where R387 puts them. -/

namespace Sys2Proof.Machine

/-- The flag and value timing tests are those the branch itself tests (R251 to R258). -/
theorem exec_of_branchTest {i : Instr} {f : Flag} {v : Bool} (h : branchTest i.mnemonic = some (f, v)) (s : State) :
    exec i s = branch f v s := by
  rw [exec_eq]
  cases hn : i.mnemonic <;> rw [hn] at h <;> cases h <;> rfl

/-- Only branches carry the branch penalty (R387, R389). -/
theorem branchPenalty_field (i : Instr) :
    i.info.extraCycleOnBranchTaken = if (branchTest i.mnemonic).isSome then 1 else 0 := by
  cases i <;> rfl

/-- Where the resolver answers in a mode that can cross a page, the address is the timing base plus the index (R175). -/
theorem resolve_eq_indexBase {mode : Mode} {s s1 : State} {ea base : Word} (hb : indexBase mode s = some base)
    (hr : resolve mode s = .ok (ea, s1)) : ea = base + zext (indexRegister mode s) := by
  have e : s.pc + 2 = s.pc + 1 + 1 := by rw [add_assoc]; rfl
  cases mode <;> simp only [indexBase, reduceCtorEq, Option.some.injEq] at hb
  case absoluteX | absoluteY =>
    rw [resolve] at hr
    obtain ⟨⟨w, s2⟩, h1, h2⟩ := bind_ok hr
    obtain ⟨lo, hi, hl, hh, rfl, rfl⟩ := busRead16_ok h1
    rw [e] at hb
    simp only [State.timingByte, hl, hh, Option.getD_some] at hb
    subst hb
    cases h2
    simp only [State.afterRead_x, State.afterRead_y, indexRegister]
  case indirectIndexed =>
    cases hz : s.peek (s.pc + 1) with
    | none => simp only [resolve, busRead_none hz, bind, Except.bind, reduceCtorEq] at hr
    | some z =>
      rw [resolve_indirectIndexed hz] at hr
      simp only [State.timingByte, hz, peek_zext, Option.getD_some] at hb
      subst hb
      cases hr
      rfl

end Sys2Proof.Machine
end

