-- ==== Sys2Proof/Tests/Slice0.lean ====
section
/-! SUPPORT. The model's own tests. Expected values are the spec's: the vectors S1 to S7 and V1 to V172 of
95_test_vectors.md, whose numbers stand in the docstrings. At the end, for every obligation with hypotheses, a witness
that meets them. -/

namespace Sys2Proof.Tests

open Sys2Proof Sys2Proof.Machine Sys2Proof.Claims

/-- The state after reset with PC set, code placed there and further bytes placed, in RAM or in the image. -/
def mk (pc : Word) (code : List Byte) (cells : List (Word × Byte) := []) : State :=
  cells.foldl (fun s c => s.place c.1 c.2) (({ State.reset with pc := pc }).placeBytes pc code)

/-- What `f` sees after one step. -/
def after {α : Type} (f : State → α) (s : State) : Option α :=
  match step s with
  | .next t => some (f t)
  | .fault _ => none
  | .refused _ => none

/-- The fault one step ends in. -/
def faultOf (s : State) : Option Fault :=
  match step s with
  | .next _ => none
  | .fault e => some e
  | .refused _ => none

/-! ### Addressing modes, with LDA, LDX, LDY and JMP (95_test_vectors.md 2.3, 2.9) -/

/-- V22 (S6): the immediate byte is at PC + 1. -/
theorem test_lda_immediate :
    after (fun t => (t.a, t.sr, t.pc))
      (mk 0x8000 [0xA9, 0x05]) =
      some (0x05, 0x24, 0x8002) := by
  decide

/-- V23. -/
theorem test_lda_zeroPage :
    after (fun t => (t.a, t.pc))
      (mk 0x0600 [0xA5, 0x10] [(0x0010, 0x44)]) =
      some (0x44, 0x0602) := by
  decide

/-- V24 (S4): the index sum wraps at 256. -/
theorem test_lda_zeroPageX_wraps :
    after (fun t => (t.a, t.sr, t.pc))
      { mk 0x0600 [0xB5, 0x80] [(0x007F, 0x99)] with x := 0xFF } =
      some (0x99, 0xA4, 0x0602) := by
  decide

/-- V25. -/
theorem test_ldx_zeroPageY :
    after (fun t => (t.x, t.pc))
      { mk 0x0600 [0xB6, 0xF0] [(0x0010, 0x09)] with y := 0x20 } =
      some (0x09, 0x0602) := by
  decide

/-- V26. -/
theorem test_ldx_zeroPageY_wraps :
    after (fun t => t.x)
      { mk 0x0600 [0xB6, 0xFF] [(0x0000, 0x77)] with y := 0x01 } =
      some (0x77) := by
  decide

/-- V27. -/
theorem test_lda_absolute :
    after (fun t => (t.a, t.pc))
      (mk 0x0600 [0xAD, 0x00, 0x02] [(0x0200, 0x05)]) =
      some (0x05, 0x0603) := by
  decide

/-- V28: the sum wraps at 2^16. -/
theorem test_lda_absoluteX_wraps :
    after (fun t => t.a)
      { mk 0x0600 [0xBD, 0xFF, 0xFF] [(0x0001, 0x44)] with x := 0x02 } =
      some (0x44) := by
  decide

/-- V29: a page cross, no extra access. -/
theorem test_lda_absoluteY_crosses :
    after (fun t => (t.a, t.sr, t.diag))
      { mk 0x0600 [0xB9, 0xF0, 0x02] [(0x0310, 0xAB)] with y := 0x20 } =
      some (0xAB, 0xA4, []) := by
  decide

/-- V30. -/
theorem test_lda_indexedIndirect :
    after (fun t => t.a)
      { mk 0x0600 [0xA1, 0x20] [(0x0024, 0x74), (0x0025, 0x07), (0x0774, 0x5A)] with x := 0x04 } =
      some (0x5A) := by
  decide

/-- V31: the pointer wraps in the zero page. -/
theorem test_lda_indexedIndirect_wraps :
    after (fun t => t.a)
      (mk 0x0600 [0xA1, 0xFF] [(0x00FF, 0x10), (0x0000, 0x03), (0x0310, 0x66)]) =
      some (0x66) := by
  decide

/-- V32. -/
theorem test_lda_indirectIndexed :
    after (fun t => (t.a, t.sr))
      { mk 0x0600 [0xB1, 0x86] [(0x0086, 0x28), (0x0087, 0x04), (0x0438, 0xA5)] with y := 0x10 } =
      some (0xA5, 0xA4) := by
  decide

/-- V33: the pointer wraps in the zero page. -/
theorem test_lda_indirectIndexed_wraps :
    after (fun t => t.a)
      (mk 0x0600 [0xB1, 0xFF] [(0x00FF, 0x10), (0x0000, 0x03), (0x0310, 0x5C)]) =
      some (0x5C) := by
  decide

/-- V34: the pointer 0x10FF takes its high byte from 0x1000, both through mirrors. -/
theorem test_jmp_indirect_pageWrap :
    after (fun t => t.pc)
      (mk 0x0600 [0x6C, 0xFF, 0x10] [(0x00FF, 0x78), (0x0000, 0x56)]) =
      some (0x5678) := by
  decide

/-- V35. -/
theorem test_jmp_indirect :
    after (fun t => t.pc)
      (mk 0x0600 [0x6C, 0x80, 0x02] [(0x0280, 0x11), (0x0281, 0x22)]) =
      some (0x2211) := by
  decide

/-- V37: 0x00 with a diagnostic. -/
theorem test_lda_unmapped :
    after (fun t => (t.a, t.sr, t.diag))
      (mk 0x0600 [0xAD, 0x00, 0x50]) =
      some (0x00, 0x26, [.unmappedRead 0x5000]) := by
  decide

/-- V156. -/
theorem test_ldx_immediate :
    after (fun t => (t.x, t.sr))
      (mk 0x0600 [0xA2, 0xFF]) =
      some (0xFF, 0xA4) := by
  decide

/-- V157. -/
theorem test_ldy_immediate :
    after (fun t => (t.y, t.sr))
      (mk 0x0600 [0xA0, 0x80]) =
      some (0x80, 0xA4) := by
  decide

/-- V158. -/
theorem test_ldy_zero :
    after (fun t => (t.y, t.sr))
      { mk 0x0600 [0xA0, 0x00] with y := 0x01 } =
      some (0x00, 0x26) := by
  decide

/-! ### Arithmetic and logic (2.4) -/

/-- V38 (S1), the source's example. -/
theorem test_adc_source :
    after (fun t => (t.a, t.sr, t.pc))
      { mk 0x0600 [0x69, 0x50] with a := 0x50, sr := 0x24 } =
      some (0xA0, 0xE4, 0x0602) := by
  decide

/-- V42. -/
theorem test_adc_carries :
    after (fun t => (t.a, t.sr, t.pc))
      { mk 0x0600 [0x69, 0xFF] with a := 0x00, sr := 0x25 } =
      some (0x00, 0x27, 0x0602) := by
  decide

/-- V44: binary although D is set. -/
theorem test_adc_ignores_decimal :
    after (fun t => (t.a, t.sr))
      { mk 0x0600 [0x69, 0x01] with a := 0x09, sr := 0x2C } =
      some (0x0A, 0x2C) := by
  decide

/-- V46. -/
theorem test_sbc_borrows :
    after (fun t => (t.a, t.sr, t.pc))
      { mk 0x0600 [0xE9, 0x05] with a := 0x05, sr := 0x24 } =
      some (0xFF, 0xA4, 0x0602) := by
  decide

/-- V48. -/
theorem test_sbc_overflows :
    after (fun t => (t.a, t.sr, t.pc))
      { mk 0x0600 [0xE9, 0x01] with a := 0x80, sr := 0x25 } =
      some (0x7F, 0x65, 0x0602) := by
  decide

/-- V52. -/
theorem test_and :
    after (fun t => (t.a, t.sr))
      { mk 0x0600 [0x29, 0x0F] with a := 0xF0 } =
      some (0x00, 0x26) := by
  decide

/-- V54. -/
theorem test_ora :
    after (fun t => (t.a, t.sr))
      { mk 0x0600 [0x09, 0x01] with a := 0x80 } =
      some (0x81, 0xA4) := by
  decide

/-- V56. -/
theorem test_eor :
    after (fun t => (t.a, t.sr))
      { mk 0x0600 [0x49, 0xFF] with a := 0x0F } =
      some (0xF0, 0xA4) := by
  decide

/-- V58: N and V come from the operand, not from the AND. -/
theorem test_bit_sets_n :
    after (fun t => (t.a, t.sr))
      { mk 0x0600 [0x24, 0x10] [(0x0010, 0x8F)] with a := 0x0F } =
      some (0x0F, 0xA4) := by
  decide

/-- V61. -/
theorem test_bit_sets_v :
    after (fun t => (t.a, t.sr))
      { mk 0x0600 [0x24, 0x10] [(0x0010, 0x40)] with a := 0x01 } =
      some (0x01, 0x66) := by
  decide

/-! ### Shifts and rotates (2.5) -/

/-- V63. -/
theorem test_asl_accumulator :
    after (fun t => (t.a, t.sr, t.pc))
      { mk 0x0600 [0x0A] with a := 0x80 } =
      some (0x00, 0x27, 0x0601) := by
  decide

/-- V75: reads 0x00, the write is dropped, two diagnostics, flags from 0x00. -/
theorem test_asl_unmapped :
    after (fun t => (t.sr, t.diag))
      { mk 0x0600 [0x0E, 0x00, 0x40] with sr := 0x25 } =
      some (0x26, [.unmappedWrite 0x4000 0x00, .unmappedRead 0x4000]) := by
  decide

/-- V66: N is always 0. -/
theorem test_lsr_accumulator :
    after (fun t => (t.a, t.sr))
      { mk 0x0600 [0x4A] with a := 0xFF, sr := 0xA4 } =
      some (0x7F, 0x25) := by
  decide

/-- V67. -/
theorem test_lsr_zeroPage :
    after (fun t => (t.peek 0x0010, t.sr, t.pc))
      (mk 0x0600 [0x46, 0x10] [(0x0010, 0x03)]) =
      some (some 0x01, 0x25, 0x0602) := by
  decide

/-- V68: the prior C enters bit 0. -/
theorem test_rol_accumulator :
    after (fun t => (t.a, t.sr))
      { mk 0x0600 [0x2A] with a := 0x40, sr := 0x25 } =
      some (0x81, 0xA4) := by
  decide

/-- V69. -/
theorem test_rol_shifts_out :
    after (fun t => (t.a, t.sr))
      { mk 0x0600 [0x2A] with a := 0x80 } =
      some (0x00, 0x27) := by
  decide

/-- V71: the prior C enters bit 7. -/
theorem test_ror_accumulator :
    after (fun t => (t.a, t.sr))
      { mk 0x0600 [0x6A] with a := 0x02, sr := 0x25 } =
      some (0x81, 0xA4) := by
  decide

/-- V72. -/
theorem test_ror_shifts_out :
    after (fun t => (t.a, t.sr))
      { mk 0x0600 [0x6A] with a := 0x01 } =
      some (0x00, 0x27) := by
  decide

/-! ### Compare, increment, decrement (2.6) -/

/-- V76. -/
theorem test_cmp_equal :
    after (fun t => (t.a, t.sr))
      { mk 0x0600 [0xC9, 0x10] with a := 0x10 } =
      some (0x10, 0x27) := by
  decide

/-- V79. -/
theorem test_cmp_unsigned :
    after (fun t => (t.a, t.sr))
      { mk 0x0600 [0xC9, 0xFF] with a := 0x01 } =
      some (0x01, 0x24) := by
  decide

/-- V81. -/
theorem test_cpx :
    after (fun t => (t.x, t.sr))
      { mk 0x0600 [0xE0, 0x80] with x := 0x7F } =
      some (0x7F, 0xA4) := by
  decide

/-- V84. -/
theorem test_cpy :
    after (fun t => (t.y, t.sr))
      { mk 0x0600 [0xC0, 0x08] with y := 0x10 } =
      some (0x10, 0x25) := by
  decide

/-- V85. -/
theorem test_inc_wraps :
    after (fun t => (t.peek 0x0010, t.sr))
      (mk 0x0600 [0xE6, 0x10] [(0x0010, 0xFF)]) =
      some (some 0x00, 0x26) := by
  decide

/-- V90: reads 0 and writes 1, which is dropped; Z and N from 0x01. -/
theorem test_inc_unmapped :
    after (fun t => (t.sr, t.diag))
      { mk 0x0600 [0xFE, 0xFF, 0x3F] with x := 0x01 } =
      some (0x24, [.unmappedWrite 0x4000 0x01, .unmappedRead 0x4000]) := by
  decide

/-- V87. -/
theorem test_dec_wraps :
    after (fun t => (t.peek 0x0010, t.sr))
      (mk 0x0600 [0xC6, 0x10] [(0x0010, 0x00)]) =
      some (some 0xFF, 0xA4) := by
  decide

/-- V89. -/
theorem test_dec_absolute :
    after (fun t => (t.peek 0x0300, t.pc))
      (mk 0x0600 [0xCE, 0x00, 0x03] [(0x0300, 0x10)]) =
      some (some 0x0F, 0x0603) := by
  decide

/-- V92. -/
theorem test_inx :
    after (fun t => (t.x, t.sr))
      { mk 0x0600 [0xE8] with x := 0xFF } =
      some (0x00, 0x26) := by
  decide

/-- V94. -/
theorem test_iny :
    after (fun t => (t.y, t.sr))
      { mk 0x0600 [0xC8] with y := 0xFF } =
      some (0x00, 0x26) := by
  decide

/-- V95. -/
theorem test_dex :
    after (fun t => (t.x, t.sr))
      (mk 0x0600 [0xCA]) =
      some (0xFF, 0xA4) := by
  decide

/-- V97. -/
theorem test_dey :
    after (fun t => (t.y, t.sr))
      (mk 0x0600 [0x88]) =
      some (0xFF, 0xA4) := by
  decide

/-! ### Control transfer (2.7) -/

/-- V98. -/
theorem test_bcc_taken :
    after (fun t => t.pc)
      (mk 0x8000 [0x90, 0x05]) =
      some (0x8007) := by
  decide

/-- V100. -/
theorem test_bcs_to_itself :
    after (fun t => t.pc)
      { mk 0x8000 [0xB0, 0xFE] with sr := 0x25 } =
      some (0x8000) := by
  decide

/-- V101. -/
theorem test_bcs_not_taken :
    after (fun t => t.pc)
      (mk 0x0600 [0xB0, 0x05]) =
      some (0x0602) := by
  decide

/-- V103. -/
theorem test_beq_backward :
    after (fun t => t.pc)
      { mk 0x8000 [0xF0, 0x80] with sr := 0x26 } =
      some (0x7F82) := by
  decide

/-- V105. -/
theorem test_bne_wraps :
    after (fun t => t.pc)
      (mk 0xFFF0 [0xD0, 0x7F]) =
      some (0x0071) := by
  decide

/-- V106. -/
theorem test_bmi_wraps :
    after (fun t => t.pc)
      { mk 0x0010 [0x30, 0x80] with sr := 0xA4 } =
      some (0xFF92) := by
  decide

/-- V108. -/
theorem test_bpl_taken :
    after (fun t => t.pc)
      (mk 0x0600 [0x10, 0xFE]) =
      some (0x0600) := by
  decide

/-- V109. -/
theorem test_bpl_not_taken :
    after (fun t => t.pc)
      { mk 0x0600 [0x10, 0x05] with sr := 0xA4 } =
      some (0x0602) := by
  decide

/-- V110. -/
theorem test_bvc_taken :
    after (fun t => t.pc)
      (mk 0x8000 [0x50, 0x7F]) =
      some (0x8081) := by
  decide

/-- V112. -/
theorem test_bvs_taken :
    after (fun t => t.pc)
      { mk 0x8000 [0x70, 0x80] with sr := 0x64 } =
      some (0x7F82) := by
  decide

/-- D31 (R250): the displacement at 0x4000 is not read when the branch is not taken, and PC wraps nowhere. -/
theorem test_branch_untaken_reads_nothing :
    after (fun t => t.pc)
      { mk 0x1FFF [0x90] with sr := 0x25 } =
      some (0x2001) := by
  decide

/-- V115: no advance. -/
theorem test_jmp_to_itself :
    after (fun t => t.pc)
      (mk 0x8005 [0x4C, 0x05, 0x80]) =
      some (0x8005) := by
  decide

/-- V117. -/
theorem test_jsr :
    after (fun t => (t.pc, t.sp, t.peek 0x01FD, t.peek 0x01FC))
      (mk 0x8000 [0x20, 0x10, 0x80]) =
      some (0x8010, 0xFB, some 0x80, some 0x02) := by
  decide

/-- V118. -/
theorem test_jsr_wraps :
    after (fun t => (t.pc, t.sp, t.peek 0x0100, t.peek 0x01FF))
      { mk 0x8000 [0x20, 0x10, 0x80] with sp := 0x00 } =
      some (0x8010, 0xFE, some 0x80, some 0x02) := by
  decide

/-- V119. -/
theorem test_rts :
    after (fun t => (t.pc, t.sp))
      { mk 0x0600 [0x60] [(0x01FC, 0x02), (0x01FD, 0x80)] with sp := 0xFB } =
      some (0x8003, 0xFD) := by
  decide

/-- V120. -/
theorem test_rts_wraps :
    after (fun t => (t.pc, t.sp))
      { mk 0x0600 [0x60] [(0x0100, 0x34), (0x0101, 0x12)] with sp := 0xFF } =
      some (0x1235, 0x01) := by
  decide

/-- V122. -/
theorem test_rti :
    after (fun t => (t.pc, t.sr, t.sp))
      { mk 0x0600 [0x40] [(0x01FB, 0xC3), (0x01FC, 0x34), (0x01FD, 0x12)] with sp := 0xFA } =
      some (0x1234, 0xE3, 0xFD) := by
  decide

/-- V123. -/
theorem test_rti_clears_b :
    after (fun t => (t.pc, t.sr))
      { mk 0x0600 [0x40] [(0x01FB, 0xFF)] with sp := 0xFA } =
      some (0x0000, 0xEF) := by
  decide

/-- V125: PC is kept, SP is unchanged. -/
theorem test_brk :
    after (fun t => (t.pc, t.sr, t.sp))
      (mk 0x8003 [0x00]) =
      some (0x8003, 0x34, 0xFD) := by
  decide

/-- V172: an opcode fetch from the unmapped region reads 0x00, BRK. -/
theorem test_brk_from_unmapped :
    after (fun t => (t.pc, t.sr, t.diag))
      (mk 0x4000 []) =
      some (0x4000, 0x34, [.unmappedRead 0x4000]) := by
  decide

/-- V127: PC wraps to 0x0000. -/
theorem test_nop_wraps :
    after (fun t => (t.pc, t.sr))
      (mk 0xFFFF [0xEA]) =
      some (0x0000, 0x24) := by
  decide

/-! ### Stack, flags, transfers (2.8) -/

/-- V128. -/
theorem test_pha :
    after (fun t => (t.peek 0x01FD, t.sp, t.pc))
      { mk 0x0600 [0x48] with a := 0x42 } =
      some (some 0x42, 0xFC, 0x0601) := by
  decide

/-- V129. -/
theorem test_pha_wraps :
    after (fun t => (t.peek 0x0100, t.sp))
      { mk 0x0600 [0x48] with a := 0x42, sp := 0x00 } =
      some (some 0x42, 0xFF) := by
  decide

/-- V130: the pushed byte has B and U set, SR is kept. -/
theorem test_php :
    after (fun t => (t.peek 0x01FD, t.sp, t.sr))
      { mk 0x0600 [0x08] with sr := 0xE5 } =
      some (some 0xF5, 0xFC, 0xE5) := by
  decide

/-- V134. -/
theorem test_pla :
    after (fun t => (t.a, t.sp, t.sr))
      { mk 0x0600 [0x68] [(0x0100, 0x80)] with sp := 0xFF } =
      some (0x80, 0x00, 0xA4) := by
  decide

/-- V135. -/
theorem test_plp_clears_b :
    after (fun t => (t.sr, t.sp))
      { mk 0x0600 [0x28] [(0x01FD, 0xFF)] with sp := 0xFC } =
      some (0xEF, 0xFD) := by
  decide

/-- V136. -/
theorem test_plp_sets_u :
    after (fun t => t.sr)
      { mk 0x0600 [0x28] [(0x01FD, 0x00)] with sp := 0xFC } =
      some (0x20) := by
  decide

/-- V138. -/
theorem test_clc :
    after (fun t => (t.sr, t.pc))
      { mk 0x0600 [0x18] with sr := 0x25 } =
      some (0x24, 0x0601) := by
  decide

/-- V139. -/
theorem test_sec :
    after (fun t => (t.sr, t.pc))
      { mk 0x0600 [0x38] with sr := 0x24 } =
      some (0x25, 0x0601) := by
  decide

/-- V140. -/
theorem test_cli :
    after (fun t => (t.sr, t.pc))
      { mk 0x0600 [0x58] with sr := 0x24 } =
      some (0x20, 0x0601) := by
  decide

/-- V141. -/
theorem test_sei :
    after (fun t => (t.sr, t.pc))
      { mk 0x0600 [0x78] with sr := 0x20 } =
      some (0x24, 0x0601) := by
  decide

/-- V142. -/
theorem test_cld :
    after (fun t => (t.sr, t.pc))
      { mk 0x0600 [0xD8] with sr := 0x2C } =
      some (0x24, 0x0601) := by
  decide

/-- V143. -/
theorem test_sed :
    after (fun t => (t.sr, t.pc))
      { mk 0x0600 [0xF8] with sr := 0x24 } =
      some (0x2C, 0x0601) := by
  decide

/-- V144. -/
theorem test_clv :
    after (fun t => (t.sr, t.pc))
      { mk 0x0600 [0xB8] with sr := 0x64 } =
      some (0x24, 0x0601) := by
  decide

/-- V146. -/
theorem test_tax :
    after (fun t => (t.x, t.sr))
      { mk 0x0600 [0xAA] with x := 0x01 } =
      some (0x00, 0x26) := by
  decide

/-- V147. -/
theorem test_tay :
    after (fun t => (t.y, t.sr))
      { mk 0x0600 [0xA8] with a := 0xFF } =
      some (0xFF, 0xA4) := by
  decide

/-- V148. -/
theorem test_txa :
    after (fun t => (t.a, t.sr))
      { mk 0x0600 [0x8A] with x := 0x80 } =
      some (0x80, 0xA4) := by
  decide

/-- V149. -/
theorem test_tya :
    after (fun t => (t.a, t.sr))
      { mk 0x0600 [0x98] with a := 0x01 } =
      some (0x00, 0x26) := by
  decide

/-- V150. -/
theorem test_tsx :
    after (fun t => (t.x, t.sr))
      (mk 0x0600 [0xBA]) =
      some (0xFD, 0xA4) := by
  decide

/-- V152: no flags. -/
theorem test_txs :
    after (fun t => (t.sp, t.sr))
      (mk 0x0600 [0x9A]) =
      some (0x00, 0x24) := by
  decide

/-! ### Stores (2.9) -/

/-- V159 (S6). -/
theorem test_sta_source :
    after (fun t => (t.peek 0x0200, t.pc))
      { mk 0x8002 [0x8D, 0x00, 0x02] with a := 0x05 } =
      some (some 0x05, 0x8005) := by
  decide

/-- V160: a store through a mirror. -/
theorem test_sta_mirror :
    after (fun t => (t.peek 0x0000, t.peek 0x1800))
      { mk 0x0600 [0x8D, 0x00, 0x08] with a := 0x07 } =
      some (some 0x07, some 0x07) := by
  decide

/-- V162. -/
theorem test_stx :
    after (fun t => (t.peek 0x0020, t.sr))
      { mk 0x0600 [0x86, 0x20] with x := 0x07 } =
      some (some 0x07, 0x24) := by
  decide

/-- V164. -/
theorem test_sty_absolute :
    after (fun t => t.peek 0x0234)
      { mk 0x0600 [0x8C, 0x34, 0x12] with y := 0x09 } =
      some (some 0x09) := by
  decide

/-- V165. -/
theorem test_sty_zeroPageX_wraps :
    after (fun t => t.peek 0x0001)
      { mk 0x0600 [0x94, 0xFF] with x := 0x02, y := 0x03 } =
      some (some 0x03) := by
  decide

/-- R313: dropped, with a diagnostic. -/
theorem test_sta_unmapped :
    after (fun t => (t.pc, t.diag))
      { mk 0x0600 [0x8D, 0x17, 0x40] with a := 0x05 } =
      some (0x0603, [.unmappedWrite 0x4017 0x05]) := by
  decide

/-- R84, R386: an instruction that writes its own opcode byte has already run. -/
theorem test_store_is_fetched :
    after (fun t => (t.peek 0x0600, t.pc))
      { mk 0x0600 [0x8D, 0x00, 0x06] with a := 0xEA } =
      some (some 0xEA, 0x0603) := by
  decide

/-! ### Faults (2.10) -/

/-- V166. -/
theorem test_fault_illegal :
    faultOf (mk 0x8000 [0x02]) =
      some (.illegalOpcode 0x02 0x8000) := by
  decide

/-- V167. -/
theorem test_fault_read_window :
    faultOf (mk 0x0600 [0xAD, 0x02, 0x20]) =
      some (.reservedWindow 0x2002 .read) := by
  decide

/-- V168. -/
theorem test_fault_write_window :
    faultOf { mk 0x0600 [0x8D, 0x02, 0x20] with a := 0x33 } =
      some (.reservedWindow 0x2002 (.write 0x33)) := by
  decide

/-- V161. -/
theorem test_fault_rom_sta :
    faultOf { mk 0x0600 [0x8D, 0x00, 0x80] with a := 0x07 } =
      some (.romWrite 0x8000 0x07) := by
  decide

/-- V163. -/
theorem test_fault_rom_stx :
    faultOf { mk 0x0600 [0x8E, 0x00, 0x80] with x := 0x07 } =
      some (.romWrite 0x8000 0x07) := by
  decide

/-- V74: the read succeeds and the write of the shifted byte faults. -/
theorem test_fault_rom_asl :
    faultOf (mk 0x0600 [0x0E, 0x00, 0x80] [(0x8000, 0x41)]) =
      some (.romWrite 0x8000 0x82) := by
  decide

/-- V91. -/
theorem test_fault_inc_window :
    faultOf (mk 0x0600 [0xFE, 0xFF, 0x3F]) =
      some (.reservedWindow 0x3FFF .read) := by
  decide

/-- V170. -/
theorem test_fault_operand_fetch :
    faultOf (mk 0x1FFE [0xAD]) =
      some (.reservedWindow 0x2000 .read) := by
  decide

/-- V171. -/
theorem test_fault_opcode_fetch :
    faultOf (mk 0x3FFF []) =
      some (.reservedWindow 0x3FFF .read) := by
  decide

/-- R250: a taken branch whose displacement lies in the window. -/
theorem test_fault_displacement :
    faultOf (mk 0x1FFF [0x90]) =
      some (.reservedWindow 0x2000 .read) := by
  decide

/-! ### Decoding (R109, R110): every opcode byte, one theorem per column of R110's table -/

/-- The Implicit column of R110's table, 25 bytes. -/
theorem test_decode_implicit :
    ([0x00, 0x18, 0xD8, 0x58, 0xB8, 0xCA, 0x88, 0xE8, 0xC8, 0xEA, 0x48, 0x08, 0x68, 0x28, 0x40, 0x60,
       0x38, 0xF8, 0x78, 0xAA, 0xA8, 0xBA, 0x8A, 0x9A, 0x98] : List Byte).map decode =
      ([.brk, .clc, .cld, .cli, .clv, .dex, .dey, .inx, .iny, .nop, .pha, .php, .pla, .plp, .rti, .rts,
       .sec, .sed, .sei, .tax, .tay, .tsx, .txa, .txs, .tya] : List Instr).map .ok := by
  decide

/-- The Accumulator column of R110's table, 4 bytes. -/
theorem test_decode_accumulator :
    ([0x0A, 0x4A, 0x2A, 0x6A] : List Byte).map decode =
      ([.aslAccumulator, .lsrAccumulator, .rolAccumulator, .rorAccumulator] : List Instr).map .ok := by
  decide

/-- The Immediate column of R110's table, 11 bytes. -/
theorem test_decode_immediate :
    ([0x69, 0x29, 0xC9, 0xE0, 0xC0, 0x49, 0xA9, 0xA2, 0xA0, 0x09, 0xE9] : List Byte).map decode =
      ([.adcImmediate, .andImmediate, .cmpImmediate, .cpxImmediate, .cpyImmediate, .eorImmediate,
       .ldaImmediate, .ldxImmediate, .ldyImmediate, .oraImmediate, .sbcImmediate] : List Instr).map .ok := by
  decide

/-- The ZeroPage column of R110's table, 21 bytes. -/
theorem test_decode_zeroPage :
    ([0x65, 0x25, 0x06, 0x24, 0xC5, 0xE4, 0xC4, 0xC6, 0x45, 0xE6, 0xA5, 0xA6, 0xA4, 0x46, 0x05, 0x26,
       0x66, 0xE5, 0x85, 0x86, 0x84] : List Byte).map decode =
      ([.adcZeroPage, .andZeroPage, .aslZeroPage, .bitZeroPage, .cmpZeroPage, .cpxZeroPage, .cpyZeroPage,
       .decZeroPage, .eorZeroPage, .incZeroPage, .ldaZeroPage, .ldxZeroPage, .ldyZeroPage, .lsrZeroPage,
       .oraZeroPage, .rolZeroPage, .rorZeroPage, .sbcZeroPage, .staZeroPage, .stxZeroPage, .styZeroPage] : List Instr).map .ok := by
  decide

/-- The ZeroPageX column of R110's table, 16 bytes. -/
theorem test_decode_zeroPageX :
    ([0x75, 0x35, 0x16, 0xD5, 0xD6, 0x55, 0xF6, 0xB5, 0xB4, 0x56, 0x15, 0x36, 0x76, 0xF5, 0x95, 0x94] : List Byte).map decode =
      ([.adcZeroPageX, .andZeroPageX, .aslZeroPageX, .cmpZeroPageX, .decZeroPageX, .eorZeroPageX,
       .incZeroPageX, .ldaZeroPageX, .ldyZeroPageX, .lsrZeroPageX, .oraZeroPageX, .rolZeroPageX,
       .rorZeroPageX, .sbcZeroPageX, .staZeroPageX, .styZeroPageX] : List Instr).map .ok := by
  decide

/-- The ZeroPageY column of R110's table, 2 bytes. -/
theorem test_decode_zeroPageY :
    ([0xB6, 0x96] : List Byte).map decode =
      ([.ldxZeroPageY, .stxZeroPageY] : List Instr).map .ok := by
  decide

/-- The Relative column of R110's table, 8 bytes. -/
theorem test_decode_relative :
    ([0x90, 0xB0, 0xF0, 0x30, 0xD0, 0x10, 0x50, 0x70] : List Byte).map decode =
      ([.bcc, .bcs, .beq, .bmi, .bne, .bpl, .bvc, .bvs] : List Instr).map .ok := by
  decide

/-- The Absolute column of R110's table, 23 bytes. -/
theorem test_decode_absolute :
    ([0x6D, 0x2D, 0x0E, 0x2C, 0xCD, 0xEC, 0xCC, 0xCE, 0x4D, 0xEE, 0x4C, 0x20, 0xAD, 0xAE, 0xAC, 0x4E,
       0x0D, 0x2E, 0x6E, 0xED, 0x8D, 0x8E, 0x8C] : List Byte).map decode =
      ([.adcAbsolute, .andAbsolute, .aslAbsolute, .bitAbsolute, .cmpAbsolute, .cpxAbsolute, .cpyAbsolute,
       .decAbsolute, .eorAbsolute, .incAbsolute, .jmpAbsolute, .jsr, .ldaAbsolute, .ldxAbsolute,
       .ldyAbsolute, .lsrAbsolute, .oraAbsolute, .rolAbsolute, .rorAbsolute, .sbcAbsolute, .staAbsolute,
       .stxAbsolute, .styAbsolute] : List Instr).map .ok := by
  decide

/-- The AbsoluteX column of R110's table, 15 bytes. -/
theorem test_decode_absoluteX :
    ([0x7D, 0x3D, 0x1E, 0xDD, 0xDE, 0x5D, 0xFE, 0xBD, 0xBC, 0x5E, 0x1D, 0x3E, 0x7E, 0xFD, 0x9D] : List Byte).map decode =
      ([.adcAbsoluteX, .andAbsoluteX, .aslAbsoluteX, .cmpAbsoluteX, .decAbsoluteX, .eorAbsoluteX,
       .incAbsoluteX, .ldaAbsoluteX, .ldyAbsoluteX, .lsrAbsoluteX, .oraAbsoluteX, .rolAbsoluteX,
       .rorAbsoluteX, .sbcAbsoluteX, .staAbsoluteX] : List Instr).map .ok := by
  decide

/-- The AbsoluteY column of R110's table, 9 bytes. -/
theorem test_decode_absoluteY :
    ([0x79, 0x39, 0xD9, 0x59, 0xB9, 0xBE, 0x19, 0xF9, 0x99] : List Byte).map decode =
      ([.adcAbsoluteY, .andAbsoluteY, .cmpAbsoluteY, .eorAbsoluteY, .ldaAbsoluteY, .ldxAbsoluteY,
       .oraAbsoluteY, .sbcAbsoluteY, .staAbsoluteY] : List Instr).map .ok := by
  decide

/-- The Indirect column of R110's table, 1 bytes. -/
theorem test_decode_indirect :
    ([0x6C] : List Byte).map decode =
      ([.jmpIndirect] : List Instr).map .ok := by
  decide

/-- The IndexedIndirect column of R110's table, 8 bytes. -/
theorem test_decode_indexedIndirect :
    ([0x61, 0x21, 0xC1, 0x41, 0xA1, 0x01, 0xE1, 0x81] : List Byte).map decode =
      ([.adcIndexedIndirect, .andIndexedIndirect, .cmpIndexedIndirect, .eorIndexedIndirect,
       .ldaIndexedIndirect, .oraIndexedIndirect, .sbcIndexedIndirect, .staIndexedIndirect] : List Instr).map .ok := by
  decide

/-- The IndirectIndexed column of R110's table, 8 bytes. -/
theorem test_decode_indirectIndexed :
    ([0x71, 0x31, 0xD1, 0x51, 0xB1, 0x11, 0xF1, 0x91] : List Byte).map decode =
      ([.adcIndirectIndexed, .andIndirectIndexed, .cmpIndirectIndexed, .eorIndirectIndexed,
       .ldaIndirectIndexed, .oraIndirectIndexed, .sbcIndirectIndexed, .staIndirectIndexed] : List Instr).map .ok := by
  decide

/-- `ADC` Immediate, its opcode byte written out bit by bit. -/
theorem test_bits_arith_logic : decode 0b01101001 = .ok .adcImmediate := by decide

/-- `ROR` Accumulator, its opcode byte written out bit by bit. -/
theorem test_bits_shift : decode 0b01101010 = .ok .rorAccumulator := by decide

/-- `DEC` AbsoluteX, its opcode byte written out bit by bit. -/
theorem test_bits_compare_incdec : decode 0b11011110 = .ok .decAbsoluteX := by decide

/-- `BNE` Relative, its opcode byte written out bit by bit. -/
theorem test_bits_control : decode 0b11010000 = .ok .bne := by decide

/-- `JMP` Indirect, its opcode byte written out bit by bit. -/
theorem test_bits_control_indirect : decode 0b01101100 = .ok .jmpIndirect := by decide

/-- `TSX` Implicit, its opcode byte written out bit by bit. -/
theorem test_bits_stack_flags_transfer : decode 0b10111010 = .ok .tsx := by decide

/-- `LDX` ZeroPageY, its opcode byte written out bit by bit. -/
theorem test_bits_load_store : decode 0b10110110 = .ok .ldxZeroPageY := by decide

/-! ### Instructions in memory, well-formedness, words of the opcode table -/

/-- An instruction with its operand bytes: the opcode first, then the operand, low byte first (R103, R111). -/
theorem test_decodeBytes_absolute :
    decodeBytes [0x8D, 0x00, 0x02, 0x4C] = .ok (⟨.staAbsolute, [0x00, 0x02]⟩, [0x4C]) := by
  decide

/-- Too few bytes are refused by name (R104). -/
theorem test_decodeBytes_truncated : decodeBytes [0x8D, 0x00] = .error (.truncated .staAbsolute) := by decide

theorem test_decodeBytes_empty : decodeBytes [] = .error .noBytes := by decide

/-- S7: an illegal byte is refused by name; 0x1A is a NOP on some real parts and is not one here. -/
theorem test_decodeBytes_illegal : decodeBytes [0x1A, 0x00] = .error (.illegalOpcode 0x1A) := by decide

/-- The check refuses an operand one byte short. -/
theorem test_ill_formed_short : WellFormed ⟨.staAbsolute, [0x00]⟩ = false := by decide

/-- The check refuses an operand one byte long where none is asked for. -/
theorem test_ill_formed_long : WellFormed ⟨.inx, [0x00]⟩ = false := by decide

theorem test_encode : encode ⟨.ldaAbsolute, [0x34, 0x12]⟩ = [0xAD, 0x34, 0x12] := by decide

/-- A one-byte word of the opcode table, its operand bytes zero. -/
theorem test_decodeTableWord : decodeTableWord 8 0x6D = some .adcAbsolute := by decide

/-- A two-byte word: the second byte is bits 15 to 8. -/
theorem test_decodeTableWord_two : decodeTableWord 16 0x05A9 = some .ldaImmediate := by decide

theorem test_decodeTableWord_illegal : decodeTableWord 8 0x02 = none := by decide

/-- The placed instruction is the first one to run after reset (log 9). -/
theorem test_withFetchWord : after (fun t => (t.a, t.pc)) (State.reset.withFetchWord 16 0x05A9) = some (0x05, 0x0002) := by
  decide

/-- Where PC lies in the reserved window the instruction is placed at 0x0000 (log 9). -/
theorem test_withFetchWord_moved :
    after (fun t => t.x) ({ State.reset with pc := 0x2000, sr := 0x34 }.withFetchWord 8 0xE8) = some 0x01 := by
  decide

/-- With nothing placed, the first step after reset runs the BRK that an unlisted byte reads as (log 9). -/
theorem test_reset_runs_brk : after (fun t => (t.pc, t.runState)) State.reset = some (0x0000, .halted) := by decide

/-- R47: a Halted state has no step. -/
theorem test_halted_has_no_step : step { State.reset with sr := 0x34 } = .refused .halted := rfl

/-! ### The assembler syntax (R114) -/

/-- R114's own examples for Accumulator, Absolute, Indirect and the two indirect modes. -/
theorem test_assemblyText :
    assemblyText 0x8000 ⟨.aslAccumulator, []⟩ = some "ASL A" ∧
    assemblyText 0x8000 ⟨.staAbsolute, [0x00, 0x02]⟩ = some "STA $0200" ∧
    assemblyText 0x8000 ⟨.jmpIndirect, [0xFF, 0x10]⟩ = some "JMP ($10FF)" ∧
    assemblyText 0x8000 ⟨.ldaIndexedIndirect, [0x10]⟩ = some "LDA ($10,X)" ∧
    assemblyText 0x8000 ⟨.ldaIndirectIndexed, [0x10]⟩ = some "LDA ($10),Y" := by decide

/-- `rr = trunc_8(T - (addr + 2))` in range, and out of range by one on each side (R114). -/
theorem test_branchByte :
    branchByte 0x8003 0x8000 = some 0xFB ∧ branchByte 0x8000 0x8081 = some 0x7F ∧
    branchByte 0x8000 0x8082 = none ∧ branchByte 0x8000 0x7F82 = some 0x80 ∧ branchByte 0x8000 0x7F81 = none := by decide

/-! ### The bus (2.1) -/

/-- V1, V2: mirrors. -/
theorem test_bus_mirrors :
    (mk 0x0600 [] [(0x0000, 0x11), (0x07FF, 0x22)]).peek 0x0800 = some 0x11 ∧
      (mk 0x0600 [] [(0x0000, 0x11), (0x07FF, 0x22)]).peek 0x1FFF = some 0x22 := by
  decide

/-- V3: a write through a mirror. -/
theorem test_bus_write_mirror :
    (match busWrite 0x1800 0x33 State.reset with | .ok t => t.peek 0x0000 | .error _ => none) = some 0x33 := by
  decide

/-- V4, V5: both ends of the reserved window. -/
theorem test_bus_window :
    busRead 0x2000 State.reset = .error (.reservedWindow 0x2000 .read) ∧
      busWrite 0x3FFF 0x01 State.reset = .error (.reservedWindow 0x3FFF (.write 0x01)) := by
  decide

/-- V6, V7, V8: the unmapped region reads 0x00 and drops writes, with a diagnostic. -/
theorem test_bus_unmapped :
    busRead 0x4000 State.reset = .ok (0x00, State.reset.note (.unmappedRead 0x4000)) ∧
      busRead 0x7FFF State.reset = .ok (0x00, State.reset.note (.unmappedRead 0x7FFF)) ∧
      busWrite 0x4017 0x05 State.reset = .ok (State.reset.note (.unmappedWrite 0x4017 0x05)) := by
  decide

/-- V9, V11: a 16 KiB image is seen twice. -/
theorem test_bus_rom16 :
    State.peek { State.reset with prgSize := .k16, mem := [(0x8000, 0x41), (0xBFFF, 0x42)] } 0xC000 = some 0x41 ∧
      State.peek { State.reset with prgSize := .k16, mem := [(0x8000, 0x41), (0xBFFF, 0x42)] } 0xFFFF = some 0x42 := by
  decide

/-- V10: a 32 KiB image is seen once. -/
theorem test_bus_rom32 : State.peek { State.reset with mem := [(0x8000, 0x41), (0xC000, 0x42)] } 0xC000 = some 0x42 := by
  decide

/-- V12: a write to ROM faults. -/
theorem test_bus_rom_write : busWrite 0x8000 0x01 State.reset = .error (.romWrite 0x8000 0x01) := by decide

/-- V13: the 16-bit read at 0xFFFF takes its high byte from 0x0000. -/
theorem test_bus_word_wraps :
    (match busRead16 0xFFFF (mk 0x0600 [] [(0xFFFF, 0xFF), (0x0000, 0x11)]) with
      | .ok (w, _) => some w
      | .error _ => none) = some 0x11FF := by
  decide

/-- V14: the second byte of a 16-bit read faults by itself. -/
theorem test_bus_word_faults : busRead16 0x1FFF State.reset = .error (.reservedWindow 0x2000 .read) := by decide

/-- R67: low byte first, the high byte's address wrapping in 16 bits; the first byte that cannot be written faults. -/
theorem test_bus_write16 :
    (match busWrite16 0x0010 0x1234 State.reset with | .ok t => (t.peek 0x0010, t.peek 0x0011) | .error _ => (none, none)) =
        (some 0x34, some 0x12) ∧
      busWrite16 0x1FFF 0x1234 State.reset = .error (.reservedWindow 0x2000 (.write 0x12)) ∧
      busWrite16 0xFFFF 0x1234 State.reset = .error (.romWrite 0xFFFF 0x34) := by
  decide

/-- A write of the byte an unlisted cell reads as removes the entry: equal memories are equal data. -/
theorem test_memory_canonical : Memory.write (Memory.write [] 5 7) 5 0 = [] ∧ Memory.write [(3, 1)] 2 9 = [(2, 9), (3, 1)] := by
  decide

/-! ### The host, the launch, the run loop -/

/-- R361: the callback writes the two bytes before the step, and takes one move. -/
theorem test_callback :
    (callback { State.reset with hostMoves := [⟨some 0x5A, none⟩, ⟨none, none⟩] }).mem = [(0x00FE, 0x5A)] ∧
      (callback { State.reset with hostMoves := [⟨none, some 0x77⟩] }).mem = [(0x00FF, 0x77)] := by
  decide

/-- R362: a program sees the byte written just before its step. -/
theorem test_program_reads_host_byte :
    after (fun t => t.a) { mk 0x0600 [0xA5, 0xFE] with hostMoves := [⟨some 0x5A, none⟩] } = some 0x5A := by
  decide

/-- V18, V21: staging, and its refusal past the end of RAM. -/
theorem test_loadRam :
    (match loadRam ⟨0x0600, [0xA9, 0x05]⟩ State.reset with | .ok t => t.mem | .error _ => []) = [(0x0600, 0xA9), (0x0601, 0x05)] ∧
      loadRam ⟨0x07FF, [1, 2]⟩ State.reset = .error (.loadRamPastEnd 0x07FF 2) := by
  decide

/-- V17: the reset vector of a 32 KiB image, on an image that lists its vector bytes only. -/
theorem test_reset_vector : (resetState .k32 [(0xFFFC, 0x00), (0xFFFD, 0x80)] 0xFD []).pc = 0x8000 := by decide

/-- V16: the reset vector of a 16 KiB image is at its offsets 0x3FFC and 0x3FFD. -/
theorem test_reset_vector16 :
    (resetState .k16 [(0xBFFC, 0x01), (0xBFFD, 0xC0)] 0x42 []).pc = 0xC001 ∧
      (resetState .k16 [(0xBFFC, 0x01), (0xBFFD, 0xC0)] 0x42 []).sp = 0x42 := by
  decide

/-- V20: an image of 0x2000 bytes is refused. -/
theorem test_prg_length (prg : List Byte) (h : prg.length = 0x2000) : prgSizeOf prg = .error (.prgLength 0x2000) := by
  simp [prgSizeOf, h]

/-- R362: the loop ends Halted after the step that ran BRK, before any callback. -/
theorem test_run_halts :
    runLoop 5 (mk 0x8000 [0xE8, 0x00]) =
      .halted { mk 0x8000 [0xE8, 0x00] with x := 0x01, pc := 0x8001, sr := 0x34 } := by
  decide

/-! ### Timing (R387 to R389), which nothing in the machine reads -/

/-- R388: one cycle more on a page cross, in a form that reads. -/
theorem test_cycles_page_cross :
    stepCycles .ldaAbsoluteX { mk 0x0600 [0xBD, 0xF0, 0x02] with x := 0x20 } = 5 ∧
      stepCycles .ldaAbsoluteX { mk 0x0600 [0xBD, 0x00, 0x02] with x := 0x20 } = 4 ∧
      stepCycles .staAbsoluteX { mk 0x0600 [0x9D, 0xF0, 0x02] with x := 0x20 } = 5 := by
  decide

/-- R389: a branch not taken, taken, and taken to another page. -/
theorem test_cycles_branch :
    stepCycles .bcc { mk 0x8000 [0x90, 0x05] with sr := 0x25 } = 2 ∧
      stepCycles .bcc (mk 0x8000 [0x90, 0x05]) = 3 ∧
      stepCycles .bcc (mk 0x8000 [0x90, 0x80]) = 4 := by
  decide

/-! ### Witnesses: for every obligation with hypotheses, states and operands that meet all of them together -/

/-- The step answers a next state. -/
def isNext (r : Result) : Bool :=
  match r with
  | .next _ => true
  | .fault _ => false
  | .refused _ => false

/-- A state whose operand bytes are `lo hi`, X = 1, Y = 2, a zero-page pointer to 0x0310 at 0x0012 and at 0x0011. -/
def operands (lo hi : Byte) : State :=
  { mk 0x0600 [0xEA, lo, hi] [(0x0010, 0x21), (0x0011, 0x10), (0x0012, 0x03), (0x0013, 0x03)] with x := 0x01, y := 0x02 }

/-- What `resolve` answers as an address. -/
def resolved (mode : Mode) (s : State) : Option Word :=
  match resolve mode s with
  | .ok (ea, _) => some ea
  | .error _ => none

theorem witness_DecodeOfEncodeIsIdentity :
    WellFormed ⟨.inx, []⟩ = true ∧ WellFormed ⟨.ldaImmediate, [0xFF]⟩ = true ∧ WellFormed ⟨.jsr, [0x00, 0xFF]⟩ = true := by
  decide

theorem witness_DecodedBytesAreTheEncoding :
    decodeBytes [0xE8] = .ok (⟨.inx, []⟩, []) ∧ decodeBytes [0x20, 0x10, 0x80, 0xEA] = .ok (⟨.jsr, [0x10, 0x80]⟩, [0xEA]) := by
  decide

/-- An illegal byte, a legal byte, and both ends of the reserved window with the addresses beside them. -/
theorem witness_FetchFaults :
    (mk 0x8000 [0xFF]).halted = false ∧ (callback (mk 0x8000 [0xFF])).peek 0x8000 = some 0xFF ∧ 0xFF ∈ illegalBytes ∧
      (callback (mk 0x8000 [0xEA])).peek 0x8000 = some 0xEA ∧ 0xEA ∉ illegalBytes ∧
      Readable 0x1FFF ∧ ¬ Readable 0x2000 ∧ ¬ Readable 0x3FFF ∧ Readable 0x4000 := by
  decide

theorem witness_StepRunsTheDecodedInstr :
    (mk 0x8000 [0xE8]).halted = false ∧ (callback (mk 0x8000 [0xE8])).peek 0x8000 = some 0xE8 ∧ decode 0xE8 = .ok .inx := by
  decide

theorem witness_OnlyHaltedStatesAreRefused : State.flag { State.reset with sr := 0x34 } .b = true := by decide

/-- Every clause at both ends of its range. -/
theorem witness_BusReadByRegion :
    (0x1FFF : Word).toNat ≤ 0x1FFF ∧ 0x2000 ≤ (0x2000 : Word).toNat ∧ (0x3FFF : Word).toNat ≤ 0x3FFF ∧
      0x4000 ≤ (0x4000 : Word).toNat ∧ (0x7FFF : Word).toNat ≤ 0x7FFF ∧ 0x8000 ≤ (0x8000 : Word).toNat ∧
      State.reset.prgSize = .k32 ∧ State.prgSize { State.reset with prgSize := .k16 } = .k16 := by
  decide

theorem witness_BusWriteByRegion :
    isNext (complete (busWrite 0x1FFF 0x01 State.reset)) = true ∧ 0x2000 ≤ (0x2000 : Word).toNat ∧
      (0x3FFF : Word).toNat ≤ 0x3FFF ∧ 0x4000 ≤ (0x4000 : Word).toNat ∧ (0x7FFF : Word).toNat ≤ 0x7FFF ∧
      0x8000 ≤ (0x8000 : Word).toNat := by
  decide

/-- The highest offset, through the last mirror: address 0x1FFF. -/
theorem witness_RamMirrorsAgree : (0x07FF : Nat) ≤ 0x07FF ∧ BitVec.ofNat 16 (0x07FF + 0x0800 * 3) = (0x1FFF : Word) := by
  decide

/-- At the top of the address space; where the first byte and where only the second lies in the window. -/
theorem witness_WordReadIsLowByteFirst :
    (mk 0x0600 [] [(0xFFFF, 0xFF)]).peek 0xFFFF = some 0xFF ∧ (mk 0x0600 []).peek (0xFFFF + 1) = some 0x00 ∧
      ¬ Readable 0x3FFF ∧ Readable 0x1FFF ∧ ¬ Readable (0x1FFF + 1) := by
  decide

theorem witness_RomIsImmutable : isNext (step (mk 0x8000 [0x8D, 0x00, 0x02])) = true ∧ 0x8000 ≤ (0x8000 : Word).toNat := by
  decide

/-- 256 bytes, the most the window holds. -/
theorem witness_StackIsLastInFirstOut : (List.replicate 256 (0x01 : Byte)).length ≤ 256 := by
  rw [List.length_replicate]

/-- A sum that wraps, and an operand byte in the window. -/
theorem witness_ZeroPageModesWrapInThePage :
    (operands 0xFF 0x00).peek 0x0601 = some 0xFF ∧ ¬ Readable ((mk 0x1FFF []).pc + 1) := by
  decide

/-- Operand bytes found; the first operand byte in the window, and only the second. -/
theorem witness_AbsoluteModesAddTheIndex :
    (operands 0xFF 0xFF).peek 0x0601 = some 0xFF ∧ (operands 0xFF 0xFF).peek 0x0602 = some 0xFF ∧
      FirstUnreadable [(mk 0x1FFF []).pc + 1, (mk 0x1FFF []).pc + 2] 0x2000 ∧
      FirstUnreadable [(mk 0x1FFE []).pc + 1, (mk 0x1FFE []).pc + 2] 0x2000 := by
  unfold FirstUnreadable
  decide

/-- A pointer that ends in 0xFF, one that does not, and one in the window. -/
theorem witness_IndirectHasThePageWrapBug :
    (operands 0xFF 0x02).peek 0x02FF = some 0x00 ∧ (operands 0xFF 0x02).peek (0x02FF &&& 0xFF00) = some 0x00 ∧
      (operands 0x00 0x02).peek 0x0200 = some 0x00 ∧ (operands 0x00 0x02).peek 0x0201 = some 0x00 ∧
      FirstUnreadable [(mk 0x1FFE []).pc + 1, (mk 0x1FFE []).pc + 2] 0x2000 ∧
      FirstUnreadable [(0x2000 : Word), 0x2001] 0x2000 := by
  unfold FirstUnreadable
  decide

/-- A pointer at 0x00FF, whose high byte is at 0x0000. -/
theorem witness_ZeroPagePointersStayInThePage :
    (operands 0xFE 0x00).peek 0x0601 = some 0xFE ∧ (operands 0xFE 0x00).peek (zext (0xFE + 0x01)) = some 0x00 ∧
      (operands 0xFE 0x00).peek (zext (0xFE + 0x01 + 1)) = some 0x00 ∧
      (operands 0xFF 0x00).peek (zext 0xFF) = some 0x00 ∧ (operands 0xFF 0x00).peek (zext (0xFF + 1)) = some 0x00 ∧
      ¬ Readable ((mk 0x1FFF []).pc + 1) := by
  decide

theorem witness_ResolverOnlyReads : resolved .absolute (operands 0x00 0x50) = some 0x5000 := by decide

theorem witness_ResolverFaultEndsTheInstruction :
    Instr.mode .ldaAbsolute ∉ [Mode.implicit, .accumulator] ∧
      resolve (Instr.mode .ldaAbsolute) (mk 0x1FFE [0xAD]) = .error (.reservedWindow 0x2000 .read) := by
  decide

/-- The operand of each mode a reading form has, resolved to a readable byte. -/
def readingModes : List (Mode × Word) :=
  [(.immediate, 0x0601), (.zeroPage, 0x0010), (.zeroPageX, 0x0011), (.zeroPageY, 0x0012), (.absolute, 0x0310),
   (.absoluteX, 0x0311), (.absoluteY, 0x0312), (.indexedIndirect, 0x0310), (.indirectIndexed, 0x1023)]

/-- For every form of every mnemonic that reads: a state where the operand resolves and reads, and, in the modes whose
address can lie there, one where it lies in the reserved window. -/
theorem witness_ReadsOperand :
    (∀ p ∈ readingModes,
      resolved p.1 (operands 0x10 0x03) = some p.2 ∧ ((operands 0x10 0x03).peek p.2).isSome = true) ∧
      (∀ f ∈ adcForms ++ sbcForms ++ andForms ++ oraForms ++ eorForms ++ bitForms ++ cmpForms ++ cpxForms ++ cpyForms ++
        ldaForms ++ ldxForms ++ ldyForms, f.2 ∈ readingModes.map Prod.fst) ∧
      resolved .immediate (mk 0x1FFF []) = some 0x2000 ∧ resolved .absolute (operands 0xFF 0x3F) = some 0x3FFF ∧
      resolved .absoluteX (operands 0xFF 0x1F) = some 0x2000 ∧ resolved .absoluteY (operands 0xFE 0x1F) = some 0x2000 ∧
      resolved .indexedIndirect (mk 0x0600 [0xA1, 0x10] [(0x0011, 0x20)]) = some 0x2000 ∧
      resolved .indirectIndexed (mk 0x0600 [0xB1, 0x10] [(0x0011, 0x20)]) = some 0x2000 := by
  decide

/-- Effective addresses at the ends of RAM, the unmapped region, ROM and the window, for the forms that write memory. -/
theorem witness_ModifiesMemory_StoresRegister :
    resolved .absolute (operands 0xFF 0x1F) = some 0x1FFF ∧ resolved .absolute (operands 0x00 0x20) = some 0x2000 ∧
      resolved .absolute (operands 0x00 0x40) = some 0x4000 ∧ Unmapped 0x4000 ∧ Unmapped 0x7FFF ∧
      resolved .absolute (operands 0x00 0x80) = some 0x8000 ∧ (operands 0x00 0x80).peek 0x8000 = some 0x00 ∧
      resolved .zeroPage (operands 0x10 0x00) = some 0x0010 ∧ resolved .zeroPageX (operands 0xFF 0x00) = some 0x0000 ∧
      resolved .zeroPageY (operands 0xFE 0x00) = some 0x0000 ∧ resolved .absoluteX (operands 0xFF 0xFF) = some 0x0000 ∧
      resolved .indexedIndirect (operands 0x10 0x00) = some 0x0310 ∧ resolved .indirectIndexed (operands 0x11 0x00) = some 0x0312 := by
  decide

/-- Each branch with its condition met and not met; a displacement read, and one in the window. -/
theorem witness_BranchesAddTheDisplacementThenAdvance :
    (∀ b ∈ branchForms, State.flag { State.reset with sr := 0xE7 } b.2.1 = true ∧
      State.flag { State.reset with sr := 0x24 } b.2.1 = false) ∧
      (mk 0x8000 [0x90, 0x80]).peek 0x8001 = some 0x80 ∧ ¬ Readable ((mk 0x1FFF []).pc + 1) := by
  decide

theorem witness_JumpSetsPcToTheTarget :
    resolved .absolute (operands 0x00 0x80) = some 0x8000 ∧ resolved .indirect (operands 0x11 0x00) = some 0x0310 ∧
      FirstUnreadable [(mk 0x1FFE []).pc + 1, (mk 0x1FFE []).pc + 2] 0x2000 ∧
      (operands 0x11 0x00).peek 0x0601 = some 0x11 ∧ (operands 0x11 0x00).peek 0x0602 = some 0x00 ∧
      (operands 0x11 0x00).peek 0x0011 = some 0x10 ∧ (operands 0x11 0x00).peek 0x0012 = some 0x03 ∧
      FirstUnreadable [(0x20FF : Word), 0x2000] 0x20FF := by
  unfold FirstUnreadable
  decide

theorem witness_JsrPushesTheReturnAddressLessOne :
    (operands 0x10 0x80).peek 0x0601 = some 0x10 ∧ (operands 0x10 0x80).peek 0x0602 = some 0x80 ∧
      FirstUnreadable [(mk 0x1FFF []).pc + 1, (mk 0x1FFF []).pc + 2] 0x2000 := by
  unfold FirstUnreadable
  decide

/-- SP = 0xFF, from where the stack wraps. -/
theorem witness_RtsReturnsPastThePulledAddress :
    (mk 0x0600 [] [(0x0100, 0x34), (0x0101, 0x12)]).peek (0x0100 + zext (0xFF + 1)) = some 0x34 ∧
      (mk 0x0600 [] [(0x0100, 0x34), (0x0101, 0x12)]).peek (0x0100 + zext (0xFF + 2)) = some 0x12 := by
  decide

theorem witness_RtiRestoresStatusThenPc :
    (mk 0x0600 [] [(0x01FE, 0xFF), (0x01FF, 0x34), (0x0100, 0x12)]).peek (0x0100 + zext (0xFD + 1)) = some 0xFF ∧
      (mk 0x0600 [] [(0x01FE, 0xFF), (0x01FF, 0x34), (0x0100, 0x12)]).peek (0x0100 + zext (0xFD + 2)) = some 0x34 ∧
      (mk 0x0600 [] [(0x01FE, 0xFF), (0x01FF, 0x34), (0x0100, 0x12)]).peek (0x0100 + zext (0xFD + 3)) = some 0x12 := by
  decide

theorem witness_RtsUndoesJsr : isNext (exec .jsr (operands 0x10 0x80)) = true := by decide

theorem witness_PullInstructionsLoadOneByte :
    (mk 0x0600 [] [(0x0100, 0x80)]).peek (0x0100 + zext (0xFF + 1)) = some 0x80 := by
  decide

/-- An instruction of each kind the whole-machine rules tell apart answers a next state. -/
theorem witness_OnlyNamedInstructionsWriteARegister :
    isNext (exec .nop (operands 0x10 0x03)) = true ∧ isNext (exec .aslAbsolute (operands 0x10 0x03)) = true ∧
      writesA .nop = false ∧ writesX .nop = false ∧ writesY .nop = false ∧ writesSp .nop = false ∧ writesPc .nop = false ∧
      writesA .aslAbsolute = false ∧ flagsOf (Instr.mnemonic .nop) = [] := by
  decide

theorem witness_FlagsAreWrittenAsTabled :
    isNext (exec .lsrAccumulator (operands 0x10 0x03)) = true ∧ Flag.v ∉ flagsOf (Instr.mnemonic .lsrAccumulator) ∧
      (Flag.n, false) ∈ constantFlags (Instr.mnemonic .lsrAccumulator) := by
  decide

theorem witness_NonStoringFormsKeepMemory :
    Instr.cmpAbsolute ∉ storingForms.map Prod.fst ∧ Instr.cmpAbsolute ∉ pushingInstrs ∧
      isNext (exec .cmpAbsolute (operands 0x10 0x03)) = true := by
  decide

theorem witness_StoringFormsWriteOnlyTheirByte :
    (Instr.staAbsolute, Mode.absolute) ∈ storingForms ∧ isNext (exec .staAbsolute (operands 0x10 0x03)) = true ∧
      resolved .absolute (operands 0x10 0x03) = some 0x0310 ∧ ¬ SameRamByte 0x0310 0x0311 ∧ SameRamByte 0x0310 0x1B10 := by
  decide

theorem witness_PushesWriteOnlyTheStackSlots :
    (∀ i ∈ pushingInstrs, isNext (exec i (operands 0x10 0x03)) = true) ∧ ¬ SameRamByte (stackAddr 0xFD) 0x01FB ∧
      ¬ SameRamByte (stackAddr (0xFD - 1)) 0x01FB := by
  decide

theorem witness_ExecKeepsTheRest : isNext (exec .ldaAbsolute (operands 0x00 0x50)) = true := by decide

theorem witness_OnlyBrkSetsBreak :
    (operands 0x00 0x00).flag .b = false ∧
      (match exec .brk (operands 0x00 0x00) with
        | .next t => t.flag .b
        | .fault _ => false
        | .refused _ => false) = true := by
  decide

theorem witness_OnlyStoringFormsFaultOnRom : exec .staAbsolute (operands 0x00 0x80) = .fault (.romWrite 0x8000 0x00) := rfl

theorem witness_ImplicitInstructionsNeverFault :
    Instr.mode .rts ∈ [Mode.implicit, .accumulator] ∧ Instr.mode .rorAccumulator ∈ [Mode.implicit, .accumulator] := by
  decide

theorem witness_DecimalFlagChangesNoSum :
    (Instr.sbcAbsolute, Mode.absolute) ∈ adcForms ++ sbcForms ∧ isNext (exec .sbcAbsolute (operands 0x10 0x03)) = true := by
  decide

theorem witness_StepKeepsTheInvariant :
    (operands 0x10 0x03).Inv ∧ isNext (step (operands 0x10 0x03)) = true ∧ isNext (step (mk 0x8000 [0x8D, 0x00, 0x02])) = true := by
  decide

/-- A launch with an image of the given length, all NOPs, and RAM cleared. -/
def nopLaunch (n : Nat) (staged : Option StagedProgram) : Launch :=
  { prg := List.replicate n 0xEA, ramInit := Vector.replicate 0x0800 0x00, staged := staged }

theorem witness_LaunchGivesTheResetState :
    (nopLaunch 0x4000 none).staged = none ∧ (nopLaunch 0x4000 none).prg.length = 0x4000 ∧
      (nopLaunch 0x8000 none).prg.length = 0x8000 :=
  ⟨rfl, List.length_replicate, List.length_replicate⟩

theorem launch_nop {n : Nat} (h : n = 0x4000) : ∃ r, launch (nopLaunch n none) = .ok r :=
  ⟨_, by simp only [launch, nopLaunch, prgSizeOf, List.length_replicate, if_pos h, stage, bind, Except.bind]; rfl⟩

/-- One load that ends at the end of RAM. -/
theorem witness_StagedLaunchLoadsRamAndEnters :
    (nopLaunch 0x4000 (some ⟨[⟨0x07FF, [0xEA]⟩], 0x07FF⟩)).staged = some ⟨[⟨0x07FF, [0xEA]⟩], 0x07FF⟩ ∧
      (∃ r, launch { nopLaunch 0x4000 (some ⟨[⟨0x07FF, [0xEA]⟩], 0x07FF⟩) with staged := none } = .ok r) ∧
      (∀ st ∈ [(⟨0x07FF, [0xEA]⟩ : Staging)], st.offset + st.bytes.length ≤ 0x0800) :=
  ⟨rfl, launch_nop rfl, by decide⟩

/-- An image one byte short, and a load that passes the end of RAM by one byte after one that does not. -/
theorem witness_LaunchRefusesBadImagesAndLoads :
    (nopLaunch 0x3FFF none).prg.length ≠ 0x4000 ∧ (nopLaunch 0x3FFF none).prg.length ≠ 0x8000 ∧
      (nopLaunch 0x8000 (some ⟨[⟨0, [1]⟩] ++ ⟨0x07FF, [1, 2]⟩ :: [], 0⟩)).prg.length = 0x8000 ∧
      (∀ b ∈ [(⟨0, [1]⟩ : Staging)], b.offset + b.bytes.length ≤ 0x0800) ∧ (0x07FF + [1, 2].length) > 0x0800 := by
  simp only [nopLaunch, List.length_replicate]
  decide

theorem witness_CallbackWritesOnlyTheHostCells :
    State.reset.hostMoves = [] ∧ State.hostMoves { State.reset with hostMoves := [⟨some 1, none⟩] } = [⟨some 1, none⟩] := by
  decide

/-- A Halted state, a step that goes on, and a step that faults. -/
theorem witness_RunLoopStopsAtBreakAndFault :
    State.flag { State.reset with sr := 0x34 } .b = true ∧ isNext (step (mk 0x8000 [0xEA])) = true ∧
      faultOf (mk 0x8000 [0x02]) = some (.illegalOpcode 0x02 0x8000) := by
  decide

end Sys2Proof.Tests
end

section
/-! PROOFS. The statements of 00_scope.md: the image is immutable (O12), a resolver fault ends the instruction (O21),
and what every instruction keeps (O49). -/

namespace Sys2Proof.Machine

/-! ### The image, and what an instruction keeps -/

/-- Writes to RAM change no address of ROM, at either image size (R61, R65). -/
theorem RamWrites.peek_rom {s t : State} (h : RamWrites s.mem t.mem) (hp : t.prgSize = s.prgSize) {q : Word}
    (hq : 0x8000 ≤ q.toNat) : t.peek q = s.peek q := by
  rw [Machine.peek_rom t hq, Machine.peek_rom s hq, hp, h.read_rom (Nat.le_add_right _ _)]

/-- Settles O12: a step writes cells of RAM only, and no cell of RAM is one of the image. -/
theorem romIsImmutable : Obligations.RomIsImmutable := by
  intro s t h
  obtain ⟨hmem, hsize, -⟩ := step_ramWrites h
  exact ⟨hsize, fun _ hq => hmem.peek_rom hsize hq⟩

/-- Settles O49, from what every instruction keeps. -/
theorem execKeepsTheRest : Obligations.ExecKeepsTheRest := by
  intro i s t h
  have k := exec_keeps h
  exact ⟨k.prgSize, k.hostMoves, k.diag⟩

/-! ### A fault of the resolver -/

section

variable {mode : Mode} {s : State} {f : Fault}

/-- In every mode but Accumulator an operand is found through the resolver, whose fault is the answer (R130, R135). -/
theorem locate_of_resolve_error (hm : mode ≠ .accumulator) (h : resolve mode s = .error f) :
    locate mode s = .error f := by
  cases mode
  case accumulator => exact absurd rfl hm
  all_goals simp only [locate, h, bind, Except.bind]

theorem readOperand_of_resolve_error {g : Byte → State → State} (hm : mode ≠ .accumulator)
    (h : resolve mode s = .error f) : readOperand mode g s = .fault f := by
  simp only [readOperand, locate_of_resolve_error hm h, bind, Except.bind, retire, raiseFault]

theorem modifyOperand_of_resolve_error {result : Byte → State → Byte} {flags : Byte → Byte → State → State}
    (hm : mode ≠ .accumulator) (h : resolve mode s = .error f) : modifyOperand mode result flags s = .fault f := by
  simp only [modifyOperand, locate_of_resolve_error hm h, bind, Except.bind, retire, raiseFault]

theorem writeOperand_of_resolve_error {value : State → Byte} (hm : mode ≠ .accumulator)
    (h : resolve mode s = .error f) : writeOperand mode value s = .fault f := by
  simp only [writeOperand, locate_of_resolve_error hm h, bind, Except.bind, retire, raiseFault]

theorem jump_of_resolve_error (h : resolve mode s = .error f) : jump mode s = .fault f := by
  simp only [jump, h, bind, Except.bind, complete, raiseFault]

theorem jsr_of_resolve_error (h : resolve .absolute s = .error f) : execJsr s = .fault f := by
  simp only [execJsr, jumpSubroutine, h, bind, Except.bind, complete, raiseFault]

/-- The meaning of every mnemonic that locates an operand begins with the resolver (R130). -/
theorem meaningOf_of_resolve_error {n : Mnemonic} (hn : n ∈ operandMnemonics) (hm : mode ≠ .accumulator)
    (h : resolve mode s = .error f) : meaningOf n mode s = .fault f := by
  cases n <;> simp only [meaningOf]
  case adc | sbc | and | ora | eor | bit | cmp | cpx | cpy | lda | ldx | ldy =>
    exact readOperand_of_resolve_error hm h
  case asl | lsr | rol | ror | inc | dec => exact modifyOperand_of_resolve_error hm h
  case sta | stx | sty => exact writeOperand_of_resolve_error hm h
  case jmp => exact jump_of_resolve_error h
  all_goals exact absurd hn (by decide)

end

/-- The rows of the mnemonics that locate no operand: JSR is Absolute, the branches are Relative, the others Implicit
(R110). -/
theorem mode_of_not_operandMnemonic {i : Instr} (h : i.mnemonic ∉ operandMnemonics) :
    i = .jsr ∨ i.mode = .relative ∨ i.mode = .implicit := by
  revert h
  cases i <;> decide

/-- Settles O21: the meanings of the operand mnemonics and of JSR begin with the resolver, and of the rows left the
Relative ones have a resolver that never faults (R168). -/
theorem resolverFaultEndsTheInstruction : Obligations.ResolverFaultEndsTheInstruction := by
  intro i s f hmode h
  have hi : i.mode ≠ .implicit := fun hc => hmode (by simp [hc])
  have ha : i.mode ≠ .accumulator := fun hc => hmode (by simp [hc])
  by_cases hn : i.mnemonic ∈ operandMnemonics
  · rw [exec_eq]
    exact meaningOf_of_resolve_error hn ha h
  · rcases mode_of_not_operandMnemonic hn with rfl | hr | hc
    · exact jsr_of_resolve_error h
    · rw [hr] at h
      cases h
    · exact absurd hc hi

end Sys2Proof.Machine
end

section
/-! PROOFS. The statements of 10_state.md: the invariant and its reset (O54, O55), the refusal of a Halted state (O7),
which instructions write which registers and flags (O44, O50), and the state a launch leaves (O56). -/

namespace Sys2Proof.Machine

open Sys2Proof.Claims

/-! ### The invariant, and the refusal -/

/-- Settles O54: a step writes cells of RAM only, which keeps the canonical form and lists no other cell, and it never
clears SR.U. -/
theorem stepKeepsTheInvariant : Obligations.StepKeepsTheInvariant := by
  intro s t ⟨hwf, hcells, hu⟩ h
  obtain ⟨hmem, hsize, hunused⟩ := step_ramWrites h
  exact ⟨hmem.wf hwf, hsize ▸ hmem.cells hcells, hunused hu⟩

/-- Settles O55: memory lists nothing at reset, and bit 5 of 0x24 is set. -/
theorem resetMeetsTheInvariant : Obligations.ResetMeetsTheInvariant :=
  ⟨Memory.wf_nil, List.forall_mem_nil _, rfl⟩

/-- The spec's own `step()` is never refused: a fetch answers a fault or an instruction that has a meaning (R130). -/
theorem stepInstr_ne_refused (s : State) (r : Refusal) : stepInstr s ≠ .refused r := by
  rw [stepInstr]
  cases fetch s with
  | error f => exact nofun
  | ok p => exact exec_ne_refused p.1 p.2 r

/-- Settles O7: a Halted state is refused by name, and every other state runs `stepInstr`. -/
theorem onlyHaltedStatesAreRefused : Obligations.OnlyHaltedStatesAreRefused := by
  intro s r
  rw [step, State.halted]
  cases s.flag .b with
  | true => simp [eq_comm]
  | false => simp [stepInstr_ne_refused]

/-! ### What an instruction writes of the registers and flags -/

/-- What the tables of R51 and R150 let `i` change between `s` and `t`: no register but those it is named a writer of,
and no flag but those its row marks. PC, which the auto-advance moves too, has lemmas of its own below. -/
structure Frame (i : Instr) (s t : State) : Prop where
  a : writesA i = false → t.a = s.a
  x : writesX i = false → t.x = s.x
  y : writesY i = false → t.y = s.y
  sp : writesSp i = false → t.sp = s.sp
  flag : ∀ f, f ∉ flagsOf i.mnemonic → t.flag f = s.flag f

namespace Frame

section

variable {i : Instr} {s t u : State}

theorem refl (s : State) : Frame i s s := ⟨fun _ => rfl, fun _ => rfl, fun _ => rfl, fun _ => rfl, fun _ _ => rfl⟩

theorem trans (h : Frame i s t) (k : Frame i t u) : Frame i s u where
  a hw := (k.a hw).trans (h.a hw)
  x hw := (k.x hw).trans (h.x hw)
  y hw := (k.y hw).trans (h.y hw)
  sp hw := (k.sp hw).trans (h.sp hw)
  flag f hf := (k.flag f hf).trans (h.flag f hf)

/-! One rule per update of the state: what it asks of the tables. -/

theorem setA (h : Frame i s t) (hw : writesA i = true) (v : Byte) : Frame i s (t.setA v) :=
  { h with a := fun hn => Bool.noConfusion (hw.symm.trans hn) }

theorem setX (h : Frame i s t) (hw : writesX i = true) (v : Byte) : Frame i s (t.setX v) :=
  { h with x := fun hn => Bool.noConfusion (hw.symm.trans hn) }

theorem setY (h : Frame i s t) (hw : writesY i = true) (v : Byte) : Frame i s (t.setY v) :=
  { h with y := fun hn => Bool.noConfusion (hw.symm.trans hn) }

theorem setSp (h : Frame i s t) (hw : writesSp i = true) (v : Byte) : Frame i s (t.setSp v) :=
  { h with sp := fun hn => Bool.noConfusion (hw.symm.trans hn) }

theorem setPc (h : Frame i s t) (v : Word) : Frame i s (t.setPc v) := { h with }

theorem setMem (h : Frame i s t) (m : Memory) : Frame i s (t.setMem m) := { h with }

theorem note (h : Frame i s t) (d : Diagnostic) : Frame i s (t.note d) := { h with }

theorem advance (h : Frame i s t) (mode : Mode) : Frame i s (t.advance mode) := h.setPc _

/-- The rows of PLP and RTI mark all eight flags (R150). -/
theorem setSr (h : Frame i s t) (hi : i.mnemonic ∈ [.plp, .rti]) (v : Byte) : Frame i s (t.setSr v) :=
  { h with
    flag := fun f hn => by
      have hf : ∀ n ∈ [Mnemonic.plp, .rti], f ∈ flagsOf n := by cases f <;> decide
      exact absurd (hf _ hi) hn }

theorem setFlag (h : Frame i s t) {f : Flag} (hf : f ∈ flagsOf i.mnemonic) (v : Bool) : Frame i s (t.setFlag f v) :=
  { h with
    flag := fun g hg => (State.flag_setFlag_other t v fun hgf : g = f => hg (hgf ▸ hf)).trans (h.flag g hg) }

theorem setZN (h : Frame i s t) (hf : [.z, .n] ⊆ flagsOf i.mnemonic) (v : Byte) : Frame i s (setZN v t) :=
  (h.setFlag (hf (by simp)) _).setFlag (hf (by simp)) _

theorem loadA (h : Frame i s t) (hw : writesA i = true) (hf : [.z, .n] ⊆ flagsOf i.mnemonic) (v : Byte) :
    Frame i s (loadA v t) := (h.setA hw v).setZN hf v

theorem loadX (h : Frame i s t) (hw : writesX i = true) (hf : [.z, .n] ⊆ flagsOf i.mnemonic) (v : Byte) :
    Frame i s (loadX v t) := (h.setX hw v).setZN hf v

theorem loadY (h : Frame i s t) (hw : writesY i = true) (hf : [.z, .n] ⊆ flagsOf i.mnemonic) (v : Byte) :
    Frame i s (loadY v t) := (h.setY hw v).setZN hf v

theorem writeSum (h : Frame i s t) (hw : writesA i = true) (hf : [.c, .v, .z, .n] ⊆ flagsOf i.mnemonic)
    (r : AddResult) : Frame i s (writeSum r t) :=
  (((h.setA hw _).setFlag (hf (by simp)) _).setFlag (hf (by simp)) _).setZN (List.subset_of_cons_subset
    (List.subset_of_cons_subset hf)) _

theorem bitFlags (h : Frame i s t) (hf : [.z, .n, .v] ⊆ flagsOf i.mnemonic) (m : Byte) : Frame i s (bitFlags m t) :=
  ((h.setFlag (hf (by simp)) _).setFlag (hf (by simp)) _).setFlag (hf (by simp)) _

theorem compare8 (h : Frame i s t) (hf : [.c, .z, .n] ⊆ flagsOf i.mnemonic) (r m : Byte) :
    Frame i s (compare8 r m t) :=
  (h.setFlag (hf (by simp)) _).setZN (List.subset_of_cons_subset hf) _

theorem shiftFlags (h : Frame i s t) (hf : [.c, .z, .n] ⊆ flagsOf i.mnemonic) (out : Bool) (r : Byte) :
    Frame i s (shiftFlags out r t) :=
  (h.setFlag (hf (by simp)) _).setZN (List.subset_of_cons_subset hf) _

/-! One rule per kind of access and per shape of instruction. -/

theorem of_onlyLog (h : OnlyLog s t) : Frame i s t := by
  obtain ⟨d, rfl⟩ := h
  exact { refl s with }

theorem of_busWrite {addr : Word} {v : Byte} (h : busWrite addr v s = .ok t) : Frame i s t := by
  rcases busWrite_ok h with ⟨_, rfl⟩ | ⟨_, rfl⟩
  · exact (refl s).setMem _
  · exact (refl s).note _

theorem of_readOperand {mode : Mode} {f : Byte → State → State} (hf : ∀ m u, Frame i u (f m u))
    (h : readOperand mode f s = .next t) : Frame i s t := by
  obtain ⟨m, u, hu, rfl⟩ := readOperand_next h
  exact ((of_onlyLog hu).trans (hf m u)).advance mode

theorem of_modifyOperand {mode : Mode} {result : Byte → State → Byte} {flags : Byte → Byte → State → State}
    (hw : mode = .accumulator → writesA i = true) (hf : ∀ v r u, Frame i u (flags v r u))
    (h : modifyOperand mode result flags s = .next t) : Frame i s t := by
  rcases modifyOperand_next h with ⟨hm, rfl⟩ | ⟨_, ea, s1, v, u, hr, _, hb, rfl⟩
  · exact (((refl s).setA (hw hm) _).trans (hf _ _ _)).advance mode
  · have hlog : OnlyLog s (s1.afterRead ea) := (OnlyLog.of_resolve hr).trans (OnlyLog.afterRead s1 ea)
    exact (((of_onlyLog hlog).trans (of_busWrite hb)).trans (hf _ _ u)).advance mode

theorem of_writeOperand {mode : Mode} {value : State → Byte} (hm : mode ≠ .accumulator)
    (h : writeOperand mode value s = .next t) : Frame i s t := by
  obtain ⟨ea, s1, u, hr, hb, rfl⟩ := writeOperand_next hm h
  exact ((of_onlyLog (OnlyLog.of_resolve hr)).trans (of_busWrite hb)).advance mode

theorem of_implied {f : State → State} (hf : Frame i s (f s)) (h : implied f s = .next t) : Frame i s t := by
  rw [implied_eq] at h
  cases h
  exact hf.advance _

theorem of_branch {f : Flag} {v : Bool} (h : branch f v s = .next t) : Frame i s t := by
  obtain ⟨u, pc, hu, rfl⟩ := branch_next h
  exact (of_onlyLog hu).setPc pc

end

end Frame

/-- INC and DEC have no Accumulator row (R110). -/
theorem mode_ne_accumulator_of_incDec {i : Instr} (h : i.mnemonic ∈ [.inc, .dec]) : i.mode ≠ .accumulator := by
  revert h
  cases i <;> decide

/-- Every instruction keeps to its rows of R51 and R150: one case for each arm of the 56-way switch. -/
theorem exec_frame {i : Instr} {s t : State} (h : exec i s = .next t) : Frame i s t := by
  have hstore := @mode_ne_accumulator i
  have hincDec := @mode_ne_accumulator_of_incDec i
  rw [exec_eq] at h
  cases hn : i.mnemonic <;> rw [hn] at h hstore hincDec <;> simp only [meaningOf] at h
  case adc | sbc =>
    exact .of_readOperand (fun _ u => (Frame.refl u).writeSum (by simp [writesA, hn]) (by simp [flagsOf, hn]) _) h
  case and | ora | eor | lda =>
    exact .of_readOperand (fun _ u => (Frame.refl u).loadA (by simp [writesA, hn]) (by simp [flagsOf, hn]) _) h
  case ldx =>
    exact .of_readOperand (fun _ u => (Frame.refl u).loadX (by simp [writesX, hn]) (by simp [flagsOf, hn]) _) h
  case ldy =>
    exact .of_readOperand (fun _ u => (Frame.refl u).loadY (by simp [writesY, hn]) (by simp [flagsOf, hn]) _) h
  case bit =>
    exact .of_readOperand (fun m u => (Frame.refl u).bitFlags (by simp [flagsOf, hn]) m) h
  case cmp | cpx | cpy =>
    exact .of_readOperand (fun _ u => (Frame.refl u).compare8 (by simp [flagsOf, hn]) _ _) h
  case asl | lsr | rol | ror =>
    exact .of_modifyOperand (fun hm => by simp [writesA, hn, hm])
      (fun _ _ u => (Frame.refl u).shiftFlags (by simp [flagsOf, hn]) _ _) h
  case inc | dec =>
    exact .of_modifyOperand (fun hm => absurd hm (hincDec (by decide)))
      (fun _ _ u => (Frame.refl u).setZN (by simp [flagsOf, hn]) _) h
  case sta | stx | sty => exact .of_writeOperand (hstore (by decide)) h
  case inx | dex | tax | tsx =>
    exact .of_implied ((Frame.refl s).loadX (by simp [writesX, hn]) (by simp [flagsOf, hn]) _) h
  case iny | dey | tay =>
    exact .of_implied ((Frame.refl s).loadY (by simp [writesY, hn]) (by simp [flagsOf, hn]) _) h
  case txa | tya => exact .of_implied ((Frame.refl s).loadA (by simp [writesA, hn]) (by simp [flagsOf, hn]) _) h
  case txs => exact .of_implied ((Frame.refl s).setSp (by simp [writesSp, hn]) _) h
  case nop => exact .of_implied (Frame.refl s) h
  case clc | sec | cli | sei | cld | sed | clv =>
    exact .of_implied ((Frame.refl s).setFlag (by simp [flagsOf, hn]) _) h
  case bcc | bcs | beq | bne | bmi | bpl | bvc | bvs => exact .of_branch h
  case jmp =>
    obtain ⟨ea, s1, hr, rfl⟩ := jump_next h
    exact (Frame.of_onlyLog (OnlyLog.of_resolve hr)).setPc ea
  case jsr =>
    obtain ⟨ea, s1, hr, rfl⟩ := jsr_next h
    exact (((Frame.of_onlyLog (OnlyLog.of_resolve hr)).setMem _).setSp (by simp [writesSp, hn]) _).setPc ea
  case rts =>
    rw [rts_eq] at h
    cases h
    exact ((Frame.refl s).setSp (by simp [writesSp, hn]) _).setPc _
  case rti =>
    rw [rti_eq] at h
    cases h
    exact (((Frame.refl s).setSp (by simp [writesSp, hn]) _).setSr (by simp [hn]) _).setPc _
  case brk =>
    cases h
    exact (Frame.refl s).setFlag (by simp [flagsOf, hn]) _
  case pha =>
    rw [pha_eq] at h
    cases h
    exact (((Frame.refl s).setMem _).setSp (by simp [writesSp, hn]) _).advance _
  case php =>
    rw [php_eq] at h
    cases h
    exact (((Frame.refl s).setMem _).setSp (by simp [writesSp, hn]) _).advance _
  case pla =>
    rw [pla_eq] at h
    cases h
    exact (((Frame.refl s).setSp (by simp [writesSp, hn]) _).loadA (by simp [writesA, hn]) (by simp [flagsOf, hn])
      _).advance _
  case plp =>
    rw [plp_eq] at h
    cases h
    exact (((Frame.refl s).setSp (by simp [writesSp, hn]) _).setSr (by simp [hn]) _).advance _

/-! ### The program counter -/

section

variable {mode : Mode} {s t : State}

theorem OnlyLog.pc (h : OnlyLog s t) : t.pc = s.pc := by
  obtain ⟨d, rfl⟩ := h
  rfl

theorem pc_busWrite {addr : Word} {v : Byte} (h : busWrite addr v s = .ok t) : t.pc = s.pc := by
  rcases busWrite_ok h with ⟨_, rfl⟩ | ⟨_, rfl⟩ <;> rfl

/-- The auto-advance from a state whose PC is still the opcode's (R131). -/
theorem advance_pc_eq_nextPc {u : State} (h : u.pc = s.pc) : (u.advance mode).pc = nextPc s mode := by
  rw [State.advance_pc, h, nextPc]

theorem readOperand_pc {f : Byte → State → State} (h : readOperand mode f s = .next t)
    (hf : ∀ m u, (f m u).pc = u.pc) : t.pc = nextPc s mode := by
  obtain ⟨m, u, hu, rfl⟩ := readOperand_next h
  exact advance_pc_eq_nextPc ((hf m u).trans hu.pc)

theorem modifyOperand_pc {result : Byte → State → Byte} {flags : Byte → Byte → State → State}
    (h : modifyOperand mode result flags s = .next t) (hf : ∀ v r u, (flags v r u).pc = u.pc) :
    t.pc = nextPc s mode := by
  rcases modifyOperand_next h with ⟨_, rfl⟩ | ⟨_, ea, s1, v, u, hr, _, hb, rfl⟩
  · exact advance_pc_eq_nextPc (hf _ _ _)
  · have hlog : OnlyLog s (s1.afterRead ea) := (OnlyLog.of_resolve hr).trans (OnlyLog.afterRead s1 ea)
    exact advance_pc_eq_nextPc ((hf _ _ u).trans ((pc_busWrite hb).trans hlog.pc))

theorem writeOperand_pc {value : State → Byte} (hm : mode ≠ .accumulator) (h : writeOperand mode value s = .next t) :
    t.pc = nextPc s mode := by
  obtain ⟨ea, s1, u, hr, hb, rfl⟩ := writeOperand_next hm h
  exact advance_pc_eq_nextPc ((pc_busWrite hb).trans (OnlyLog.of_resolve hr).pc)

theorem implied_pc {f : State → State} (h : implied f s = .next t) (hf : (f s).pc = s.pc) :
    t.pc = nextPc s .implicit := by
  rw [implied_eq] at h
  cases h
  exact advance_pc_eq_nextPc hf

end

/-- The rows that neither locate an operand nor write PC are Implicit (R110). -/
theorem mode_eq_implicit {i : Instr} (hop : i.mnemonic ∉ operandMnemonics) (hpc : writesPc i = false) :
    i.mode = .implicit := by
  revert hop hpc
  cases i <;> decide

/-- An instruction that neither writes PC nor branches advances it by its mode's byte size (R131). -/
theorem exec_pc {i : Instr} {s t : State} (hw : writesPc i = false) (h : exec i s = .next t) :
    t.pc = nextPc s i.mode := by
  have hstore := @mode_ne_accumulator i
  have himp := fun hop => @mode_eq_implicit i hop hw
  rw [exec_eq] at h
  cases hn : i.mnemonic <;> rw [hn] at h hstore himp <;> simp only [meaningOf] at h
  case jmp | jsr | rts | rti | brk | bcc | bcs | beq | bne | bmi | bpl | bvc | bvs => simp [writesPc, hn] at hw
  case adc | sbc | and | ora | eor | bit | cmp | cpx | cpy | lda | ldx | ldy =>
    exact readOperand_pc h fun _ _ => rfl
  case asl | lsr | rol | ror | inc | dec => exact modifyOperand_pc h fun _ _ _ => rfl
  case sta | stx | sty => exact writeOperand_pc (hstore (by decide)) h
  all_goals rw [himp (by decide)]
  case pha => rw [pha_eq] at h; cases h; rfl
  case php => rw [php_eq] at h; cases h; rfl
  case pla => rw [pla_eq] at h; cases h; rfl
  case plp => rw [plp_eq] at h; cases h; rfl
  all_goals exact implied_pc h rfl

/-! ### The two rules of the whole machine -/

/-- Settles O44: the frame gives the registers and, an SR being its eight flags, SR; PC is the auto-advance. -/
theorem onlyNamedInstructionsWriteARegister : Obligations.OnlyNamedInstructionsWriteARegister := by
  intro i s t h
  have k := exec_frame h
  exact ⟨k.a, k.x, k.y, k.sp, fun hw => exec_pc hw h,
    fun hf => status_ext fun f => k.flag f (hf ▸ List.not_mem_nil)⟩

/-- The rows of R150 that mark B. -/
theorem eq_of_break_mem_flagsOf {i : Instr} (h : .b ∈ flagsOf i.mnemonic) : i = .brk ∨ i = .plp ∨ i = .rti := by
  revert h
  cases i <;> decide

/-- Settles O50: of the three instructions whose row marks B, PLP and RTI clear it (R263, R283). -/
theorem onlyBrkSetsBreak : Obligations.OnlyBrkSetsBreak := by
  intro i s t h hs ht
  by_cases hb : .b ∈ flagsOf i.mnemonic
  · rcases eq_of_break_mem_flagsOf hb with rfl | rfl | rfl
    · rfl
    · replace h : execPlp s = .next t := h
      rw [plp_eq] at h
      cases h
      simp [readFlag_pulledStatus] at ht
    · replace h : execRti s = .next t := h
      rw [rti_eq] at h
      cases h
      simp [readFlag_pulledStatus] at ht
  · rw [(exec_frame h).flag .b hb, hs] at ht
    cases ht

/-! ### The reset state of a launch -/

/-- An image has one of the two lengths, and its size is the one of that length (R11). -/
theorem prgSizeOf_ok {prg : List Byte} (h : prg.length = 0x4000 ∨ prg.length = 0x8000) :
    ∃ size, prgSizeOf prg = .ok size ∧ prg.length = size.bytes := by
  rcases h with h | h
  · exact ⟨.k16, by rw [prgSizeOf, if_pos h], h⟩
  · exact ⟨.k32, by rw [prgSizeOf, if_neg (by omega), if_pos h], h⟩

/-- At both sizes the image's byte is found by the distance into the ROM window mod the image's length (R65). -/
theorem romOffset_eq_mod (size : PrgSize) (addr : Word) :
    romOffset size addr = (addr.toNat - 0x8000) % size.bytes := by
  have := addr.isLt
  cases size with
  | k16 => rfl
  | k32 => exact (Nat.mod_eq_of_lt (show addr.toNat - 0x8000 < 0x8000 by omega)).symm

section

variable {s : State} {ramInit prg : List Byte} {q : Word}

/-- RAM reads as RAM_INIT through all its mirrors (R50, R64). -/
theorem peek_launchMemory_ram (hm : s.mem = launchMemory ramInit prg) (hq : q.toNat ≤ 0x1FFF) :
    s.peek q = some (ramInit.getD (q.toNat % 0x0800) 0) := by
  rw [peek_ram s hq, hm, read_launchMemory_ram (by rw [Config.romBase]; omega)]
  rfl

/-- ROM reads as the image, which a 16 KiB image fills twice (R65). -/
theorem peek_launchMemory_rom (hr : ramInit.length ≤ Config.romBase) (hm : s.mem = launchMemory ramInit prg)
    (hl : prg.length = s.prgSize.bytes) (hq : 0x8000 ≤ q.toNat) :
    s.peek q = some (prg.getD ((q.toNat - 0x8000) % prg.length) 0) := by
  rw [peek_rom s hq, hm, romOffset_eq_mod, ← hl]
  exact congrArg some (read_launchMemory_rom hr _)

end

/-- The PC of a state whose vector bytes are known: the little-endian word of the two (R380, R381). -/
theorem loadVector_pc_toNat {s : State} {lo hi : Byte} (hl : s.peek Config.resetVector = some lo)
    (hh : s.peek (Config.resetVector + 1) = some hi) : s.loadVector.pc.toNat = hi.toNat * 256 + lo.toNat := by
  rw [State.loadVector, State.setPc_pc, wordOf_toNat, State.vectorByte, State.vectorByte, hl, hh, Option.getD_some,
    Option.getD_some]

/-- The two vector bytes stand 4 and 3 bytes before the end of an image of either length (R14, R381). -/
theorem resetVector_offset (size : PrgSize) :
    (Config.resetVector.toNat - 0x8000) % size.bytes = size.bytes - 4 ∧
      ((Config.resetVector + 1).toNat - 0x8000) % size.bytes = size.bytes - 3 := by
  cases size <;> decide

/-- A state whose SR.B is clear is Running (R47, log 5). -/
theorem runState_running {s : State} (h : s.flag .b = false) : s.runState = .running := by
  rw [State.runState, State.halted, if_neg (by rw [h]; exact Bool.false_ne_true)]

/-- Settles O56: the launch is the reset procedure, which writes only PC after the registers are cleared, and PC and the
reads are those of the launched memory. -/
theorem launchGivesTheResetState : Obligations.LaunchGivesTheResetState := by
  intro l hst hlen
  obtain ⟨size, hsize, hl⟩ := prgSizeOf_ok hlen
  have hr : l.ramInit.toList.length ≤ Config.romBase := by
    rw [Vector.length_toList]
    decide
  obtain ⟨h4, h3⟩ := resetVector_offset size
  refine ⟨resetState size (launchMemory l.ramInit.toList l.prg) l.spReset l.hostMoves, ?_, rfl, rfl, rfl, rfl, rfl,
    runState_running (show readFlag 0x24 .b = false by decide), rfl, ?_, fun q => peek_launchMemory_ram rfl,
    fun q => peek_launchMemory_rom hr rfl hl⟩
  · simp only [launch, hsize, hst, stage, bind, Except.bind]
  · rw [hl, ← h3, ← h4, ← hl]
    exact loadVector_pc_toNat (peek_launchMemory_rom hr rfl hl (by decide))
      (peek_launchMemory_rom hr rfl hl (by decide))

end Sys2Proof.Machine
end

section
/-! PROOFS. The statements of 20_memory.md: the bus by region, the RAM mirrors and the 16-bit read (O8 to O11), and
which bytes of memory each kind of instruction may change (O46 to O48). -/

namespace Sys2Proof.Machine

open Sys2Proof.Claims

/-! ### The bus by region -/

section

variable {addr : Word}

theorem busRead_ram (s : State) (h : addr.toNat ≤ 0x1FFF) :
    busRead addr s = .ok (Memory.read s.mem (addr.toNat % 0x0800), s) := by
  simp only [busRead, region_ram _ h]

theorem busRead_reserved (s : State) (h : ¬ Readable addr) :
    busRead addr s = .error (.reservedWindow addr .read) :=
  busRead_none ((peek_eq_none s).mpr h)

theorem busRead_unmapped (s : State) (h : Unmapped addr) :
    busRead addr s = .ok (0x00, s.note (.unmappedRead addr)) := by
  simp only [busRead, region_unmapped _ h]

theorem busRead_rom (s : State) (h : 0x8000 ≤ addr.toNat) :
    busRead addr s = .ok (Memory.read s.mem (0x8000 + romOffset s.prgSize addr), s) := by
  simp only [busRead, region_rom _ h]

/-- A 32 KiB image fills the ROM window: each byte's cell is its address (R65). -/
theorem romCell_k32 (h : 0x8000 ≤ addr.toNat) : 0x8000 + romOffset .k32 addr = addr.toNat := by
  have hoff : romOffset .k32 addr = addr.toNat - 0x8000 := rfl
  omega

/-- A 16 KiB image is seen twice: the cell depends on the address's low 14 bits alone (R65). -/
theorem romCell_k16 (h : 0x8000 ≤ addr.toNat) : 0x8000 + romOffset .k16 addr = 0x8000 + addr.toNat % 0x4000 := by
  have hoff : romOffset .k16 addr = (addr.toNat - 0x8000) % 0x4000 := rfl
  omega

/-- The complement of `Readable` as the range of addresses it is (R61). -/
theorem not_readable_of_mem_window (h : 0x2000 ≤ addr.toNat ∧ addr.toNat ≤ 0x3FFF) : ¬ Readable addr := by
  unfold Readable
  omega

/-- A bus write that does not fault stores its byte in the sense of the claims: seen through all mirrors, and through no
other address (R63, R64). -/
theorem storesByte_of_busWrite {v : Byte} {s t : State} (h : busWrite addr v s = .ok t) : StoresByte s t addr v := by
  intro q
  split
  · exact peek_busWrite_same h ‹_›
  · exact peek_busWrite_other h ‹_›

end

/-- Settles O8, region by region. -/
theorem busReadByRegion : Obligations.BusReadByRegion := by
  intro s addr
  refine ⟨busRead_ram s, fun h => busRead_reserved s (not_readable_of_mem_window h), busRead_unmapped s, ?_, ?_⟩
  · rintro ⟨h, hsize⟩
    rw [busRead_rom s h, hsize, romCell_k32 h]
  · rintro ⟨h, hsize⟩
    rw [busRead_rom s h, hsize, romCell_k16 h]

/-- Settles O9, region by region. -/
theorem busWriteByRegion : Obligations.BusWriteByRegion := by
  intro s addr v
  refine ⟨fun h => ?_, fun h => busWrite_reserved v s (not_readable_of_mem_window h), busWrite_unmapped v s,
    busWrite_rom v s⟩
  have hw := busWrite_ram v s h
  exact ⟨_, hw, storesByte_of_busWrite hw, rfl⟩

/-! ### Mirrors and words -/

/-- The four addresses of RAM byte `p` do not wrap (R64). -/
theorem mirror_toNat {p : Nat} (hp : p ≤ 0x07FF) (k : Fin 4) :
    (BitVec.ofNat 16 (p + 0x0800 * k)).toNat = p + 0x0800 * k := by
  rw [BitVec.toNat_ofNat]
  omega

/-- Any two of the four addresses of a RAM byte name the same byte (R64). -/
theorem sameRamByte_mirrors {p : Nat} (hp : p ≤ 0x07FF) (k j : Fin 4) :
    SameRamByte (BitVec.ofNat 16 (p + 0x0800 * k)) (BitVec.ofNat 16 (p + 0x0800 * j)) := by
  unfold SameRamByte
  rw [mirror_toNat hp, mirror_toNat hp]
  omega

/-- Settles O10: the two addresses name one RAM byte, and a read of RAM logs nothing. -/
theorem ramMirrorsAgree : Obligations.RamMirrorsAgree := by
  intro s k j p v hp
  obtain ⟨hk, hj, hkj⟩ := sameRamByte_mirrors hp k j
  have hw := busWrite_ram v s hk
  refine ⟨_, hw, ?_⟩
  rw [busRead_some (peek_busWrite_same hw ⟨hk, hj, hkj⟩), State.afterRead_eq]
  exact fun hu => absurd hu.1 (by omega)

section

variable {addr : Word} {s : State}

/-- The low byte is read first, so its fault is the answer whatever the high byte's address (R66). -/
theorem busRead16_of_not_readable_low (h : ¬ Readable addr) :
    busRead16 addr s = .error (.reservedWindow addr .read) := by
  simp only [busRead16, busRead_reserved s h, bind, Except.bind]

theorem busRead16_of_not_readable_high (hl : Readable addr) (hh : ¬ Readable (addr + 1)) :
    busRead16 addr s = .error (.reservedWindow (addr + 1) .read) := by
  have hp : s.peek addr ≠ none := fun hn => (peek_eq_none s).mp hn hl
  obtain ⟨lo, hlo⟩ := Option.ne_none_iff_exists'.mp hp
  simp only [busRead16, busRead_some hlo, busRead_reserved _ hh, bind, Except.bind]

end

/-- Settles O11: the two byte reads, the first of them to fault giving the fault. -/
theorem wordReadIsLowByteFirst : Obligations.WordReadIsLowByteFirst :=
  fun _ _ => ⟨fun _ _ => busRead16_some, busRead16_of_not_readable_low, busRead16_of_not_readable_high⟩

/-! ### What each shape of instruction leaves unchanged in memory -/

@[simp] theorem State.peek_advance (s : State) (mode : Mode) (q : Word) : (s.advance mode).peek q = s.peek q :=
  State.peek_congr rfl rfl q

@[simp] theorem State.peek_setPc (s : State) (v : Word) (q : Word) : (s.setPc v).peek q = s.peek q :=
  State.peek_congr rfl rfl q

@[simp] theorem State.peek_setSp (s : State) (v : Byte) (q : Word) : (s.setSp v).peek q = s.peek q :=
  State.peek_congr rfl rfl q

section

variable {mode : Mode} {s t : State} {q : Word}

theorem peek_readOperand {f : Byte → State → State} (h : readOperand mode f s = .next t)
    (hf : ∀ m u, (f m u).peek q = u.peek q) : t.peek q = s.peek q := by
  obtain ⟨m, u, hu, rfl⟩ := readOperand_next h
  rw [State.peek_advance, hf, hu.peek]

theorem peek_implied {f : State → State} (h : implied f s = .next t) (hf : (f s).peek q = s.peek q) :
    t.peek q = s.peek q := by
  rw [implied_eq] at h
  cases h
  rw [State.peek_advance, hf]

theorem peek_branch {f : Flag} {v : Bool} (h : branch f v s = .next t) : t.peek q = s.peek q := by
  obtain ⟨u, pc, hu, rfl⟩ := branch_next h
  rw [State.peek_setPc, hu.peek]

theorem peek_jump (h : jump mode s = .next t) : t.peek q = s.peek q := by
  obtain ⟨ea, s1, hr, rfl⟩ := jump_next h
  rw [State.peek_setPc, (OnlyLog.of_resolve hr).peek]

/-- A read-modify-write of A touches no memory (R134). -/
theorem peek_modifyOperand_accumulator {result : Byte → State → Byte} {flags : Byte → Byte → State → State}
    (h : modifyOperand .accumulator result flags s = .next t) (hf : ∀ v r u, (flags v r u).peek q = u.peek q) :
    t.peek q = s.peek q := by
  rw [modifyOperand_accumulator] at h
  cases h
  rw [State.peek_advance, hf]
  exact State.peek_congr rfl rfl q

/-- An address that resolves belongs to a memory mode (R135, R344). -/
theorem mode_ne_accumulator_of_resolve {p : Word × State} (h : resolve mode s = .ok p) : mode ≠ .accumulator := by
  rintro rfl
  cases h

/-- A read-modify-write of memory changes the byte at its effective address only (R79). -/
theorem peek_modifyOperand_other {result : Byte → State → Byte} {flags : Byte → Byte → State → State} {s1 : State}
    {ea : Word} (hr : resolve mode s = .ok (ea, s1)) (h : modifyOperand mode result flags s = .next t)
    (hf : ∀ v r u, (flags v r u).peek q = u.peek q) (hq : ¬ SameRamByte ea q) : t.peek q = s.peek q := by
  rcases modifyOperand_next h with ⟨hm, -⟩ | ⟨-, ea', s1', v, u, hr', -, hw, rfl⟩
  · exact absurd hm (mode_ne_accumulator_of_resolve hr)
  · cases hr.symm.trans hr'
    rw [State.peek_advance, hf, peek_busWrite_other hw hq, State.afterRead_peek, (OnlyLog.of_resolve hr).peek]

/-- A store changes the byte at its effective address only (R79). -/
theorem peek_writeOperand_other {value : State → Byte} {s1 : State} {ea : Word} (hr : resolve mode s = .ok (ea, s1))
    (h : writeOperand mode value s = .next t) (hq : ¬ SameRamByte ea q) : t.peek q = s.peek q := by
  obtain ⟨ea', s1', u, hr', hw, rfl⟩ := writeOperand_next (mode_ne_accumulator_of_resolve hr) h
  cases hr.symm.trans hr'
  rw [State.peek_advance, peek_busWrite_other hw hq, (OnlyLog.of_resolve hr).peek]

/-- An instruction that pushes one byte changes the stack byte at SP only (R144). -/
theorem peek_retire_push_other {v : Byte} (h : retire mode (push v s) = .next t)
    (hq : ¬ SameRamByte (stackAddr s.sp) q) : t.peek q = s.peek q := by
  obtain ⟨u, hu, rfl⟩ := retire_next h
  rw [push_eq] at hu
  cases hu
  rw [State.peek_advance, State.peek_setSp, peek_setMem_stack, if_neg hq]

/-- JSR's two pushes change the two stack bytes from SP down only (R261). -/
theorem peek_jsr_other (h : jumpSubroutine s = .next t) (hhi : ¬ SameRamByte (stackAddr s.sp) q)
    (hlo : ¬ SameRamByte (stackAddr (s.sp - 1)) q) : t.peek q = s.peek q := by
  obtain ⟨ea, s1, hr, rfl⟩ := jsr_next h
  obtain ⟨d, rfl⟩ := OnlyLog.of_resolve hr
  rw [State.peek_setPc, peek_pushWord, if_neg hlo, if_neg hhi]
  exact State.peek_congr rfl rfl q

end

/-! ### The three frames -/

section

variable {i : Instr}

/-- Every row of these mnemonics is a storing form (R79). -/
theorem mem_storingForms (h : i.mnemonic ∈ [.sta, .stx, .sty, .inc, .dec]) : i ∈ storingForms.map Prod.fst := by
  revert h
  cases i <;> decide

/-- The shifts' one form that stores nothing works on A (R79). -/
theorem mode_eq_accumulator_of_shift (h : i.mnemonic ∈ [.asl, .lsr, .rol, .ror])
    (hs : i ∉ storingForms.map Prod.fst) : i.mode = .accumulator := by
  revert h hs
  cases i <;> decide

theorem mem_pushingInstrs (h : i.mnemonic ∈ [.pha, .php, .jsr]) : i ∈ pushingInstrs := by
  revert h
  cases i <;> decide

end

/-- Settles O46: one case for each shape of instruction that writes no memory; the rows of the other mnemonics are
storing or pushing ones. -/
theorem nonStoringFormsKeepMemory : Obligations.NonStoringFormsKeepMemory := by
  intro i s t hs hp h q
  have hstoring := fun hn => hs (mem_storingForms (i := i) hn)
  have hpushing := fun hn => hp (mem_pushingInstrs (i := i) hn)
  have hshift := fun hn => mode_eq_accumulator_of_shift (i := i) hn hs
  rw [exec_eq] at h
  cases hn : i.mnemonic <;> rw [hn] at h hstoring hpushing hshift <;> simp only [meaningOf] at h
  case sta | stx | sty | inc | dec => exact absurd (by decide) hstoring
  case pha | php | jsr => exact absurd (by decide) hpushing
  case asl | lsr | rol | ror =>
    rw [hshift (by decide)] at h
    exact peek_modifyOperand_accumulator h fun _ _ _ => State.peek_congr rfl rfl q
  case adc | sbc | and | ora | eor | bit | cmp | cpx | cpy | lda | ldx | ldy =>
    exact peek_readOperand h fun _ _ => State.peek_congr rfl rfl q
  case bcc | bcs | beq | bne | bmi | bpl | bvc | bvs => exact peek_branch h
  case jmp => exact peek_jump h
  case rts => rw [rts_eq] at h; cases h; exact State.peek_congr rfl rfl q
  case rti => rw [rti_eq] at h; cases h; exact State.peek_congr rfl rfl q
  case brk => cases h; exact State.peek_congr rfl rfl q
  case pla => rw [pla_eq] at h; cases h; exact State.peek_congr rfl rfl q
  case plp => rw [plp_eq] at h; cases h; exact State.peek_congr rfl rfl q
  all_goals exact peek_implied h (State.peek_congr rfl rfl q)

/-- The storing forms name their row's addressing mode and are rows of the stores, the shifts, INC and DEC (R79). -/
theorem storingForms_rows :
    ∀ f ∈ storingForms, f.1.mode = f.2 ∧
      (f.1.mnemonic ∈ [.sta, .stx, .sty] ∨ f.1.mnemonic ∈ [.asl, .lsr, .rol, .ror, .inc, .dec]) := by
  decide

/-- Settles O47: a storing form is a store or a read-modify-write, each with one bus write, at the effective address. -/
theorem storingFormsWriteOnlyTheirByte : Obligations.StoringFormsWriteOnlyTheirByte := by
  intro ⟨i, mode⟩ hf s s1 t ea h hr q hq
  obtain ⟨hm, hn⟩ := storingForms_rows _ hf
  rw [exec_eq, hm] at h
  cases hi : i.mnemonic <;> simp only [hi, meaningOf] at h hn
  case sta | stx | sty => exact peek_writeOperand_other hr h hq
  case asl | lsr | rol | ror | inc | dec =>
    exact peek_modifyOperand_other hr h (fun _ _ _ => State.peek_congr rfl rfl q) hq
  all_goals exact absurd hn (by decide)

/-- Settles O48: each push writes the stack byte at its SP. -/
theorem pushesWriteOnlyTheStackSlots : Obligations.PushesWriteOnlyTheStackSlots := by
  intro i hi s t h q hsp hjsr
  rcases (by simpa [pushingInstrs] using hi : i = .pha ∨ i = .php ∨ i = .jsr) with rfl | rfl | rfl
  · exact peek_retire_push_other (show execPha s = .next t from h) hsp
  · exact peek_retire_push_other (show execPhp s = .next t from h) hsp
  · exact peek_jsr_other (show execJsr s = .next t from h) hsp fun hlo => hjsr ⟨rfl, hlo⟩

end Sys2Proof.Machine
end

section
/-! PROOFS. The statements of 30_encoding.md: what `decodeBytes` answers behind an opcode byte that decodes, from it that
decoding and encoding are inverse (O2, O3), and two facts read off the tables (O1, O4). -/

namespace Sys2Proof

/-- An instruction is well formed exactly when its operand is as long as its row asks (R104). -/
theorem wellFormed_iff {c : Code} : WellFormed c = true ↔ c.operand.length = c.instr.operandSize := beq_iff_eq

/-- Behind an opcode byte that decodes, the row's number of operand bytes is split off, if so many stand there. -/
theorem decodeBytes_cons {b : Byte} {i : Instr} (h : decode b = .ok i) (l : List Byte) :
    decodeBytes (b :: l) = if l.length < i.operandSize then .error (.truncated i)
      else .ok (⟨i, l.take i.operandSize⟩, l.drop i.operandSize) := by
  rw [decodeBytes, h]

/-- A byte string that reads as an instruction begins with an opcode byte that decodes to its row. -/
theorem decode_head_of_decodeBytes {bytes rest : List Byte} {c : Code} (h : decodeBytes bytes = .ok (c, rest)) :
    ∃ b l i, bytes = b :: l ∧ decode b = .ok i := by
  cases bytes with
  | nil => cases h
  | cons b l =>
    cases hd : decode b with
    | ok i => exact ⟨b, l, i, rfl, hd⟩
    | error e =>
      rw [decodeBytes, hd] at h
      cases h

/-- Settles O2: the opcode byte decodes to its row, and the row's number of operand bytes is that of the operand, so the
split behind it is between the operand and what follows. -/
theorem decodeOfEncodeIsIdentity : Obligations.DecodeOfEncodeIsIdentity := by
  intro c rest hwf
  have hlen := wellFormed_iff.mp hwf
  have hsplit := decodeBytes_cons (decode_opcode c.instr) (c.operand ++ rest)
  rw [← hlen, List.take_left, List.drop_left, if_neg (by simp)] at hsplit
  exact hsplit

/-- Settles O3: the opcode byte is that of the row it decodes to, and the operand and the rest are the two parts of the
bytes behind it, split where the row says. -/
theorem decodedBytesAreTheEncoding : Obligations.DecodedBytesAreTheEncoding := by
  intro bytes rest c h
  obtain ⟨b, l, i, rfl, hd⟩ := decode_head_of_decodeBytes h
  rw [decodeBytes_cons hd] at h
  split at h
  case isTrue => cases h
  case isFalse hlen =>
    cases h
    have hwf : (l.take i.operandSize).length = i.operandSize := List.length_take_of_le (Nat.le_of_not_lt hlen)
    exact ⟨wellFormed_iff.mpr hwf, by rw [encode, opcode_of_decode hd, List.cons_append, List.take_append_drop]⟩

/-- Settles O1: the decoder computes each of these. -/
theorem sampleWordsDecode : Obligations.SampleWordsDecode := by
  unfold Obligations.SampleWordsDecode
  decide

/-- The size of a mode is 1 without operand byte, 2 with one operand byte and 3 with two (R104). -/
theorem Mode.byteSize_eq (mode : Mode) :
    mode.byteSize =
      if mode ∈ [.implicit, .accumulator] then 1
      else if mode ∈ [.immediate, .zeroPage, .zeroPageX, .zeroPageY, .relative, .indexedIndirect, .indirectIndexed] then 2
      else 3 := by
  cases mode <;> rfl

/-- Settles O4: the table gives each row the size of its mode, and the sizes of the modes are these. -/
theorem lengthFollowsTheMode : Obligations.LengthFollowsTheMode :=
  fun i => ⟨(Laws.Encoding.all i).2, i.mode.byteSize_eq⟩

end Sys2Proof
end

section
/-! PROOFS. The statements of 40_engine.md: the stack (O13, O14), what a step runs (O6), which flags an instruction
writes (O45), and that SR.D changes no sum (O53). -/

namespace Sys2Proof.Machine

open Sys2Proof.Claims

/-! ### One push, one pull, one step -/

/-- Settles O13: push writes the stack byte at SP alone, and pull reads the one above it. -/
theorem pushAndPullNeverFault : Obligations.PushAndPullNeverFault := fun s =>
  ⟨fun v => ⟨_, push_eq v s, fun q => (State.peek_setSp _ _ q).trans (peek_setMem_stack s.sp v s q), rfl⟩,
    ⟨_, peek_stackAddr s (s.sp + 1), pull_eq s⟩⟩

/-- Settles O6, by what a step of a Running state is when its opcode byte decodes. -/
theorem stepRunsTheDecodedInstr : Obligations.StepRunsTheDecodedInstr := fun _ _ _ => step_of_decode

/-! ### Many pushes, many pulls -/

/-- A push stores its byte where SP pointed. -/
theorem stackByte_push_same (s : State) (v sp : Byte) :
    ((s.setMem (Memory.write s.mem (0x0100 + s.sp.toNat) v)).setSp sp).stackByte s.sp = v :=
  Memory.read_write_same _ _ _

/-- A push leaves every other stack byte as it was. -/
theorem stackByte_push_other (s : State) (v sp : Byte) {p : Byte} (h : p ≠ s.sp) :
    ((s.setMem (Memory.write s.mem (0x0100 + s.sp.toNat) v)).setSp sp).stackByte p = s.stackByte p :=
  Memory.read_write_other _ _ fun hc => h (BitVec.eq_of_toNat_eq (Nat.add_left_cancel hc))

/-- The last of `n + 1` pulls is one more pull after the first `n`. -/
theorem pullAll_succ {n : Nat} {s t : State} {l : List Byte} (h : pullAll n s = .ok (l, t)) :
    pullAll (n + 1) s = .ok (l ++ [t.stackByte (t.sp + 1)], t.setSp (t.sp + 1)) := by
  induction n generalizing s l with
  | zero =>
    cases h
    simp only [pullAll, pull_eq, bind, Except.bind, List.nil_append]
  | succ n ih =>
    simp only [pullAll, pull_eq, bind, Except.bind] at h
    rw [pullAll, pull_eq]
    split at h
    · cases h
    · next p hp =>
      cases h
      simp only [bind, Except.bind, ih hp, List.cons_append]

/-- The generalisation of R145 the induction needs: after the pulls nothing but memory differs, and a stack byte whose
distance below SP is at least the number of pushes, which they did not reach, is as it was. -/
theorem pushAll_pullAll (l : List Byte) (s : State) (h : l.length ≤ 256) :
    ∃ t m, pushAll l s = .ok t ∧ pullAll l.length t = .ok (l.reverse, s.setMem m) ∧
      ∀ p : Byte, l.length ≤ (s.sp - p).toNat → (s.setMem m).stackByte p = s.stackByte p := by
  induction l generalizing s with
  | nil => exact ⟨s, s.mem, rfl, rfl, fun _ _ => rfl⟩
  | cons v l ih =>
    rw [List.length_cons] at h
    obtain ⟨t, m, hpush, hpull, hkept⟩ :=
      ih ((s.setMem (Memory.write s.mem (0x0100 + s.sp.toNat) v)).setSp (s.sp - 1)) (by omega)
    rw [State.setSp_sp] at hkept
    have htop : (s.setMem m).stackByte s.sp = v :=
      (hkept s.sp (by bv_omega)).trans (stackByte_push_same s v _)
    refine ⟨t, m, ?_, ?_, fun p hp => ?_⟩
    · simpa only [pushAll, push_eq, bind, Except.bind] using hpush
    · have hsp : s.sp - 1 + 1 = s.sp := BitVec.sub_add_cancel _ _
      rw [List.length_cons, pullAll_succ hpull, List.reverse_cons, State.setMem_sp, State.setSp_sp, hsp, ← htop]
      rfl
    · rw [List.length_cons] at hp
      exact (hkept p (by bv_omega)).trans (stackByte_push_other s v _ (by rintro rfl; bv_omega))

/-- Settles O14: after the pulls only memory differs, so SP is as it was. -/
theorem stackIsLastInFirstOut : Obligations.StackIsLastInFirstOut := by
  intro s l h
  obtain ⟨t, m, hpush, hpull, -⟩ := pushAll_pullAll l s h
  exact ⟨t, _, hpush, hpull, rfl⟩

/-! ### Flags written with a constant -/

section

variable {s t : State} {f : Flag} {b : Bool}

/-- An instruction that sets or clears a flag leaves it so (R284 to R290). -/
theorem flag_implied_setFlag (h : implied (fun u => u.setFlag f b) s = .next t) : t.flag f = b := by
  rw [implied_eq] at h
  cases h
  rw [flag_advance, State.flag_setFlag_same]

/-- A flag the flag part of a read-modify-write gives one value for every operand has that value after. -/
theorem flag_modifyOperand {mode : Mode} {result : Byte → State → Byte} {flags : Byte → Byte → State → State}
    (h : modifyOperand mode result flags s = .next t) (hf : ∀ v u w, (flags v (result v u) w).flag f = b) :
    t.flag f = b := by
  rcases modifyOperand_next h with ⟨-, rfl⟩ | ⟨-, ea, s1, v, u, -, -, -, rfl⟩
  all_goals rw [flag_advance, hf]

end

/-- The top bit of a byte shifted right is 0 (R143, R211). -/
theorem lsr8_getLsbD_seven (v : Byte) : (lsr8 v).getLsbD 7 = false := by
  rw [lsr8, BitVec.getLsbD_ushiftRight]
  exact BitVec.getLsbD_of_ge v _ (by decide)

/-- A pulled status byte has the two constants R150 gives PLP and RTI. -/
theorem readFlag_pulledStatus_constants (p : Byte) :
    ∀ c ∈ [(Flag.u, true), (.b, false)], readFlag (pulledStatus p) c.1 = c.2 := by
  simp [readFlag_pulledStatus]

/-- Every flag R150 gives as a constant is written with it: one case for each row that gives one. -/
theorem exec_constantFlags {i : Instr} {s t : State} (h : exec i s = .next t) :
    ∀ c ∈ constantFlags i.mnemonic, t.flag c.1 = c.2 := by
  rw [exec_eq] at h
  cases hn : i.mnemonic <;> rw [hn] at h <;> simp only [meaningOf] at h <;> simp only [constantFlags]
  case lsr =>
    refine List.forall_mem_singleton.mpr (flag_modifyOperand h fun v _ _ => ?_)
    rw [flag_shiftFlags, if_pos rfl, lsr8_getLsbD_seven]
  case plp =>
    rw [plp_eq] at h
    cases h
    exact readFlag_pulledStatus_constants _
  case rti =>
    rw [rti_eq] at h
    cases h
    exact readFlag_pulledStatus_constants _
  case brk =>
    cases h
    exact List.forall_mem_singleton.mpr (State.flag_setFlag_same s .b true)
  case clc | sec | cli | sei | cld | sed | clv => exact List.forall_mem_singleton.mpr (flag_implied_setFlag h)
  all_goals exact List.forall_mem_nil _

/-- Settles O45, from the frame of every instruction and the constants of R150. -/
theorem flagsAreWrittenAsTabled : Obligations.FlagsAreWrittenAsTabled := fun _ _ _ h =>
  ⟨(exec_frame h).flag, exec_constantFlags h⟩

/-! ### Reads depend on no flag -/

section

variable {s t : State} (f : Flag) (b : Bool)

@[simp] theorem State.peek_setFlag (s : State) (q : Word) : (s.setFlag f b).peek q = s.peek q :=
  State.peek_congr rfl rfl q

@[simp] theorem State.zeroPageByte_setFlag (s : State) (z : Byte) : (s.setFlag f b).zeroPageByte z = s.zeroPageByte z :=
  rfl

theorem State.afterRead_setFlag (s : State) (addr : Word) :
    (s.setFlag f b).afterRead addr = (s.afterRead addr).setFlag f b := by
  unfold State.afterRead
  split <;> rfl

theorem busRead_setFlag {addr : Word} {v : Byte} (h : busRead addr s = .ok (v, t)) :
    busRead addr (s.setFlag f b) = .ok (v, t.setFlag f b) := by
  obtain ⟨hv, rfl⟩ := busRead_ok h
  rw [busRead_some ((State.peek_setFlag f b s addr).trans hv), State.afterRead_setFlag]

theorem busRead16_setFlag {addr w : Word} (h : busRead16 addr s = .ok (w, t)) :
    busRead16 addr (s.setFlag f b) = .ok (w, t.setFlag f b) := by
  obtain ⟨lo, hi, hl, hh, rfl, rfl⟩ := busRead16_ok h
  rw [busRead16_some ((State.peek_setFlag f b s _).trans hl) ((State.peek_setFlag f b s _).trans hh),
    State.afterRead_setFlag, State.afterRead_setFlag]

/-- The effective address depends on no flag (R160). -/
theorem resolve_setFlag {mode : Mode} {ea : Word} (h : resolve mode s = .ok (ea, t)) :
    resolve mode (s.setFlag f b) = .ok (ea, t.setFlag f b) := by
  cases mode <;> simp only [resolve] at h
  case implicit | accumulator => cases h
  case immediate | relative => cases h; rfl
  case absolute => exact busRead16_setFlag f b h
  case zeroPage | zeroPageX | zeroPageY =>
    obtain ⟨⟨m, s1⟩, h1, h2⟩ := bind_ok h
    cases h2
    simp only [resolve, State.setFlag_pc, busRead_setFlag f b h1, bind, Except.bind, State.setFlag_x, State.setFlag_y]
  case absoluteX | absoluteY =>
    obtain ⟨⟨base, s1⟩, h1, h2⟩ := bind_ok h
    cases h2
    simp only [resolve, State.setFlag_pc, busRead16_setFlag f b h1, bind, Except.bind, State.setFlag_x,
      State.setFlag_y]
  case indirect =>
    obtain ⟨⟨ptr, s1⟩, h1, h⟩ := bind_ok h
    obtain ⟨⟨lo, s2⟩, h2, h⟩ := bind_ok h
    obtain ⟨⟨hi, s3⟩, h3, h⟩ := bind_ok h
    cases h
    simp only [resolve, State.setFlag_pc, busRead16_setFlag f b h1, busRead_setFlag f b h2, busRead_setFlag f b h3,
      bind, Except.bind]
  case indexedIndirect | indirectIndexed =>
    obtain ⟨⟨z, s1⟩, h1, h2⟩ := bind_ok h
    rw [readZeroPagePointer_eq] at h2
    cases h2
    simp only [resolve, State.setFlag_pc, busRead_setFlag f b h1, bind, Except.bind, readZeroPagePointer_eq,
      State.zeroPageByte_setFlag, State.setFlag_x, State.setFlag_y]

theorem locate_setFlag {mode : Mode} {op : Operand} (h : locate mode s = .ok (op, t)) :
    locate mode (s.setFlag f b) = .ok (op, t.setFlag f b) := by
  rcases locate_ok h with ⟨rfl, rfl, rfl⟩ | ⟨-, ea, rfl, hr⟩
  · rfl
  · exact locate_of_resolve (resolve_setFlag f b hr)

theorem load_setFlag {op : Operand} {v : Byte} (h : load op s = .ok (v, t)) :
    load op (s.setFlag f b) = .ok (v, t.setFlag f b) := by
  cases op with
  | accumulator => cases h; rfl
  | memory ea => exact busRead_setFlag f b h

/-- An instruction that reads its operand commutes with a flag that what it does with the operand commutes with. -/
theorem readOperand_setFlag {mode : Mode} {g : Byte → State → State}
    (hg : ∀ m u, g m (u.setFlag f b) = (g m u).setFlag f b) (h : readOperand mode g s = .next t) :
    readOperand mode g (s.setFlag f b) = .next (t.setFlag f b) := by
  obtain ⟨u, hu, rfl⟩ := retire_next (show retire mode _ = _ from h)
  obtain ⟨⟨op, s1⟩, h1, h⟩ := bind_ok hu
  obtain ⟨⟨m, s2⟩, h2, h⟩ := bind_ok h
  cases h
  simp only [readOperand, locate_setFlag f b h1, load_setFlag f b h2, bind, Except.bind, retire, hg]
  rfl

end

/-! ### SR.D and the sums -/

/-- Writes of two different flags commute (R18). -/
theorem writeFlag_comm (sr : Byte) {f g : Flag} (h : f ≠ g) (v w : Bool) :
    writeFlag (writeFlag sr f v) g w = writeFlag (writeFlag sr g w) f v := by
  refine status_ext fun k => ?_
  simp only [readFlag_writeFlag]
  split
  · next hk => rw [if_neg (hk ▸ h.symm)]
  · rfl

theorem State.setFlag_comm (s : State) {f g : Flag} (h : f ≠ g) (v w : Bool) :
    (s.setFlag f v).setFlag g w = (s.setFlag g w).setFlag f v :=
  congrArg s.setSr (writeFlag_comm s.sr h v w)

/-- Writing a sum writes C, V, Z and N and so commutes with a write of D (R190). -/
theorem writeSum_setDecimal (r : AddResult) (s : State) (d : Bool) :
    writeSum r (s.setFlag .d d) = (writeSum r s).setFlag .d d := by
  have ha : (s.setFlag .d d).setA r.sum = (s.setA r.sum).setFlag .d d := rfl
  simp only [writeSum, setZN, ha]
  rw [State.setFlag_comm _ (show Flag.d ≠ .c by decide), State.setFlag_comm _ (show Flag.d ≠ .v by decide),
    State.setFlag_comm _ (show Flag.d ≠ .z by decide), State.setFlag_comm _ (show Flag.d ≠ .n by decide)]

section

variable {mode : Mode} {s t : State} (d : Bool)

/-- The carry an adder takes in is not D's to change. -/
theorem carry_setDecimal (s : State) : (s.setFlag .d d).flag .c = s.flag .c := State.flag_setFlag_other s d (by decide)

theorem adc_setDecimal (h : adc mode s = .next t) : adc mode (s.setFlag .d d) = .next (t.setFlag .d d) :=
  readOperand_setFlag .d d (fun m u => by rw [writeSum_setDecimal, carry_setDecimal, State.setFlag_a]) h

theorem sbc_setDecimal (h : sbc mode s = .next t) : sbc mode (s.setFlag .d d) = .next (t.setFlag .d d) :=
  readOperand_setFlag .d d (fun m u => by rw [writeSum_setDecimal, carry_setDecimal, State.setFlag_a]) h

end

/-- The 16 forms are rows of ADC and SBC (R110). -/
theorem mnemonic_of_mem_sumForms : ∀ f ∈ adcForms ++ sbcForms, f.1.mnemonic = .adc ∨ f.1.mnemonic = .sbc := by
  decide

/-- Settles O53: finding and reading the operand depend on no flag, and the sum and its flags not on D. -/
theorem decimalFlagChangesNoSum : Obligations.DecimalFlagChangesNoSum := by
  intro f hf s t d h
  rw [exec_eq] at h ⊢
  rcases mnemonic_of_mem_sumForms f hf with hn | hn <;> rw [hn] at h ⊢
  · exact adc_setDecimal d h
  · exact sbc_setDecimal d h

end Sys2Proof.Machine
end

section
/-! PROOFS. The statements of 41_addressing.md: which address each mode resolves to, which reads the resolver makes and
which of them faults (O15 to O19), and that it only reads (O20). -/

namespace Sys2Proof.Machine

open Sys2Proof.Claims

/-! ### The modes that make no read, and what no mode changes -/

/-- Settles O15: neither arm of the resolver reads the bus. -/
theorem immediateAndRelativeAddressTheNextByte : Obligations.ImmediateAndRelativeAddressTheNextByte :=
  fun _ => ⟨rfl, rfl⟩

/-- Settles O20, mode by mode in the resolver's inversion. -/
theorem resolverOnlyReads : Obligations.ResolverOnlyReads := fun _ _ _ _ => OnlyLog.of_resolve

/-! ### Sums of bytes and words, and the reads made in order -/

/-- A byte added inside the zero page wraps mod 256 (R166, R167). -/
theorem zext_add_toNat (b r : Byte) : (zext (b + r)).toNat = (b.toNat + r.toNat) % 256 := by
  rw [zext_toNat, BitVec.toNat_add]

/-- A byte added to a word wraps mod 2^16 (R170, R171). -/
theorem wordOf_add_zext_toNat (hi lo r : Byte) :
    (wordOf hi lo + zext r).toNat = (hi.toNat * 256 + lo.toNat + r.toNat) % 65536 := by
  rw [BitVec.toNat_add, wordOf_toNat, zext_toNat]

/-- The second operand byte is the one after the first, also where PC wraps. -/
theorem add_two_eq (p : Word) : p + 2 = p + 1 + 1 := (BitVec.add_assoc p 1 1).symm

/-- Of reads made in order, the first faults, or it is made and the others follow. -/
theorem firstUnreadable_cons {a q : Word} {l : List Word} (h : FirstUnreadable (a :: l) q) :
    (¬ Readable a ∧ q = a) ∨ (Readable a ∧ FirstUnreadable l q) := by
  rw [FirstUnreadable, List.find?_cons] at h
  split at h
  · exact .inl ⟨of_decide_eq_true ‹_›, (Option.some.inj h).symm⟩
  · exact .inr ⟨not_not.mp (of_decide_eq_false ‹_›), h⟩

theorem firstUnreadable_pair {a b q : Word} (h : FirstUnreadable [a, b] q) :
    (¬ Readable a ∧ q = a) ∨ (Readable a ∧ ¬ Readable b ∧ q = b) := by
  rcases firstUnreadable_cons h with h | ⟨ha, h⟩
  · exact .inl h
  · rcases firstUnreadable_cons h with h | ⟨-, h⟩
    · exact .inr ⟨ha, h⟩
    · cases h

section

variable {s : State} {mode : Mode} {q : Word}

theorem exists_peek_of_readable {a : Word} (s : State) (h : Readable a) : ∃ v, s.peek a = some v :=
  Option.ne_none_iff_exists'.mp fun hn => (peek_eq_none s).mp hn h

/-- The 16-bit read ends in the fault of the first of its two reads to fault (R66). -/
theorem busRead16_of_firstUnreadable {addr : Word} (h : FirstUnreadable [addr, addr + 1] q) :
    busRead16 addr s = .error (.reservedWindow q .read) := by
  rcases firstUnreadable_pair h with ⟨h1, rfl⟩ | ⟨h1, h2, rfl⟩
  · exact busRead16_of_not_readable_low h1
  · exact busRead16_of_not_readable_high h1 h2

/-- A mode with one operand byte to read begins with that read (R165 to R167, R173, R174). -/
theorem resolve_of_operandByte_unreadable
    (hm : mode ∈ [.zeroPage, .zeroPageX, .zeroPageY] ++ [.indexedIndirect, .indirectIndexed])
    (h : ¬ Readable (s.pc + 1)) : resolve mode s = .error (.reservedWindow (s.pc + 1) .read) := by
  cases mode <;> simp only [resolve]
  case zeroPage | zeroPageX | zeroPageY | indexedIndirect | indirectIndexed =>
    simp only [busRead_reserved s h, bind, Except.bind]
  all_goals exact absurd hm (by decide)

/-- A mode with two operand bytes begins with the read of that word (R169 to R172). -/
theorem resolve_of_operandWord_unreadable (hm : mode ∈ [.absolute, .absoluteX, .absoluteY] ++ [.indirect])
    (h : FirstUnreadable [s.pc + 1, s.pc + 2] q) : resolve mode s = .error (.reservedWindow q .read) := by
  rw [add_two_eq] at h
  cases mode <;> simp only [resolve]
  case absolute => exact busRead16_of_firstUnreadable h
  case absoluteX | absoluteY | indirect => simp only [busRead16_of_firstUnreadable h, bind, Except.bind]
  all_goals exact absurd hm (by decide)

end

/-! ### Zero page and absolute -/

/-- The rows of the mode ZeroPageY (R110). -/
theorem mode_eq_zeroPageY_iff (i : Instr) : i.mode = .zeroPageY ↔ i = .ldxZeroPageY ∨ i = .stxZeroPageY := by
  cases i <;> decide

/-- Settles O16: the sum is of bytes, and the zero-page address is its extension. -/
theorem zeroPageModesWrapInThePage : Obligations.ZeroPageModesWrapInThePage := by
  refine ⟨mode_eq_zeroPageY_iff, fun s => ⟨fun b h => ⟨?_, ?_, ?_⟩, fun h mode hm => ?_⟩⟩
  · exact ⟨_, resolve_zeroPage h, zext_toNat b⟩
  · exact ⟨_, resolve_zeroPageX h, zext_add_toNat b s.x⟩
  · exact ⟨_, resolve_zeroPageY h, zext_add_toNat b s.y⟩
  · exact resolve_of_operandByte_unreadable (List.mem_append_left _ hm) h

/-- Settles O17: the sum is of words, the base being the operand's two bytes. -/
theorem absoluteModesAddTheIndex : Obligations.AbsoluteModesAddTheIndex := by
  refine fun s => ⟨fun lo hi hl hh => ?_, fun q h mode hm => ?_⟩
  · rw [add_two_eq] at hh ⊢
    exact ⟨⟨_, resolve_absolute hl hh, wordOf_toNat hi lo⟩,
      ⟨_, resolve_absoluteX hl hh, wordOf_add_zext_toNat hi lo s.x⟩,
      ⟨_, resolve_absoluteY hl hh, wordOf_add_zext_toNat hi lo s.y⟩⟩
  · exact resolve_of_operandWord_unreadable (List.mem_append_left _ hm) h

/-! ### Indirect -/

/-- The row of the mode Indirect (R110, R172). -/
theorem mode_eq_indirect_iff (i : Instr) : i.mode = .indirect ↔ i = .jmpIndirect := by
  cases i <;> decide

/-- Where the target's high byte is read, said of the pointer's low byte as the operand gives it (R172). -/
theorem indirectHighAddr_wordOf (ph pl : Byte) :
    indirectHighAddr (wordOf ph pl) = if pl = 0xFF then wordOf ph pl &&& 0xFF00 else wordOf ph pl + 1 := by
  rw [indirectHighAddr, lowByte_wordOf]

section

variable {s : State} {pl ph : Byte} {q : Word}

/-- With the pointer read, Indirect ends in the fault of the first of the target's two reads to fault (R172). -/
theorem resolve_indirect_of_target_unreadable (h1 : s.peek (s.pc + 1) = some pl) (h2 : s.peek (s.pc + 1 + 1) = some ph)
    (h : FirstUnreadable [wordOf ph pl, indirectHighAddr (wordOf ph pl)] q) :
    resolve .indirect s = .error (.reservedWindow q .read) := by
  simp only [resolve, busRead16_some h1 h2, bind, Except.bind]
  rw [← indirectHighAddr]
  rcases firstUnreadable_pair h with ⟨hlo, rfl⟩ | ⟨hlo, hhi, rfl⟩
  · simp only [busRead_reserved _ hlo]
  · obtain ⟨lo, hp⟩ := exists_peek_of_readable ((s.afterRead (s.pc + 1)).afterRead (s.pc + 1 + 1)) hlo
    simp only [busRead_some hp, busRead_reserved _ hhi]

end

/-- Settles O18: the four reads in order, the second address of the target following the pointer's low byte. -/
theorem indirectHasThePageWrapBug : Obligations.IndirectHasThePageWrapBug := by
  refine ⟨mode_eq_indirect_iff, fun s => ⟨fun q h => ?_, fun pl ph h1 h2 => ?_⟩⟩
  · exact resolve_of_operandWord_unreadable (by decide) h
  · rw [add_two_eq] at h2 ⊢
    intro ptr second
    have hsecond : indirectHighAddr ptr = second := indirectHighAddr_wordOf ph pl
    rw [← hsecond]
    exact ⟨fun _ _ h3 h4 => resolve_indirect h1 h2 h3 h4, fun _ h => resolve_indirect_of_target_unreadable h1 h2 h⟩

/-! ### Pointers in the zero page -/

theorem zeroPageByte_of_peek {s : State} {z v : Byte} (h : s.peek (zext z) = some v) : s.zeroPageByte z = v :=
  Option.some.inj ((peek_zext s z).symm.trans h)

/-- Settles O19: a pointer's bytes are bytes of the zero page, so after the operand byte no read faults or is logged. -/
theorem zeroPagePointersStayInThePage : Obligations.ZeroPagePointersStayInThePage := by
  refine fun s => ⟨fun b lo hi h => ⟨fun hl hh => ?_, fun hl hh => ?_⟩, fun h mode hm => ?_⟩
  · rw [resolve_indexedIndirect h, zeroPageByte_of_peek hl, zeroPageByte_of_peek hh, wordOf]
  · rw [resolve_indirectIndexed h, zeroPageByte_of_peek hl, zeroPageByte_of_peek hh, wordOf]
  · exact resolve_of_operandByte_unreadable (List.mem_append_right _ hm) h

end Sys2Proof.Machine
end

section
/-! PROOFS. The statements of 42_arith_logic.md: the sums (O23, O24), the logic operations (O25) and BIT (O26). Each is
what its family does with the operand byte, put into the shape that all instructions reading an operand share. -/

namespace Sys2Proof.Machine

open Sys2Proof.Claims

/-! ### The shape of an instruction that reads its operand -/

/-- What is done with an operand byte leaves the flags `fl` and, but for the flags, the state `upd`; it keeps PC and
the log, and depends on no entry of the log. -/
structure OperandEffect (g upd : Byte → State → State) (fl : Byte → State → List (Flag × Bool)) : Prop where
  flags : ∀ m s d, FlagsWritten s (g m { s with diag := d }) (fl m s)
  rest : ∀ m s d, g m { s with diag := d } =
    { upd m s with sr := (g m { s with diag := d }).sr, pc := s.pc, diag := d }

section

variable {mode : Mode} {g upd : Byte → State → State} {fl : Byte → State → List (Flag × Bool)}
  {bytes : List Byte} {forms : List (Instr × Mode)}

/-- An operand in the reserved window is resolved, and then the read of it faults (R342). -/
theorem readOperand_reserved {s s1 : State} {ea : Word} (hr : resolve mode s = .ok (ea, s1))
    (h : ¬ Readable ea) : readOperand mode g s = .fault (.reservedWindow ea .read) := by
  simp only [readOperand, locate_of_resolve hr, load, busRead_reserved s1 h, bind, Except.bind, retire, raiseFault]

/-- An instruction whose meaning is to read its operand and then have an effect `g` has that effect (R131, R134). -/
theorem OperandEffect.readsOperand {i : Instr} (hg : OperandEffect g upd fl)
    (hi : ∀ s, exec i s = readOperand mode g s) : ReadsOperand i mode upd fl := by
  intro s s1 ea hr
  refine ⟨fun m hm => ⟨_, (hi s).trans (readOperand_eq hr hm), ?_⟩, fun h => (hi s).trans (readOperand_reserved hr h)⟩
  obtain ⟨d, hd⟩ : OnlyLog s (s1.afterRead ea) := (OnlyLog.of_resolve hr).trans (OnlyLog.afterRead s1 ea)
  rw [hd]
  exact ⟨hg.flags m s _, congrArg (State.advance · mode) (hg.rest m s _)⟩

/-- That the listed bytes encode the listed forms is a finite check of the decoder and the table (R109, R110). -/
theorem encodes_iff : Encodes bytes forms ↔
    bytes.map decode = forms.map (fun f => .ok f.1) ∧ ∀ f ∈ forms, f.1.mode = f.2 := Iff.rfl

/-- A mnemonic's forms are its rows, each in its own mode, so they all have the effect its meaning has (R133). -/
theorem OperandEffect.readsOperand_forms {n : Mnemonic} (hg : OperandEffect g upd fl) (he : Encodes bytes forms)
    (hn : ∀ f ∈ forms, f.1.mnemonic = n) (hm : ∀ mode s, meaningOf n mode s = readOperand mode g s) :
    ∀ f ∈ forms, ReadsOperand f.1 f.2 upd fl := by
  intro f hf
  refine hg.readsOperand fun s => ?_
  rw [exec_eq, hn f hf, he.2 f hf, hm]

end

/-! ### Flags as the statements list them -/

/-- The statements' N is the byte's bit 7 (R140). -/
theorem znFlags_eq (v : Byte) : znFlags v = [(.z, v == 0), (.n, v.getLsbD 7)] := by
  have hn : v.getLsbD 7 = decide (0x80 ≤ v.toNat) := (BitVec.msb_eq_getLsbD_last v).symm.trans (BitVec.msb_eq_decide v)
  rw [hn, znFlags, beq_eq_decide]

theorem flagsWritten_setZN (v : Byte) (s : State) : FlagsWritten s (setZN v s) (znFlags v) := by
  intro f
  rw [flag_setZN, znFlags_eq]
  cases f <;> rfl

theorem flagsWritten_writeSum (r : AddResult) (s : State) :
    FlagsWritten s (writeSum r s) ((.c, r.carry) :: (.v, r.overflow) :: znFlags r.sum) := by
  intro f
  rw [flag_writeSum, znFlags_eq]
  cases f <;> rfl

theorem flagsWritten_bitFlags (m : Byte) (s : State) :
    FlagsWritten s (bitFlags m s) [(.z, decide (s.a &&& m = 0)), (.n, m.getLsbD 7), (.v, m.getLsbD 6)] := by
  intro f
  rw [flag_bitFlags, beq_eq_decide]
  cases f <;> rfl

/-- The adder's overflow is the source's formula over its sum (R141). -/
theorem add8_overflow (a m : Byte) (c : Bool) :
    (add8 a m c).overflow = decide (((m ^^^ (add8 a m c).sum) &&& ((add8 a m c).sum ^^^ a) &&& 0x80) ≠ 0) := by
  rw [decide_not, ← beq_eq_decide]
  rfl

/-! ### ADC and SBC -/

/-- The effect of ADC, and of SBC with `k` the complement: the sum of A, `k m` and the carry, with its flags
(R190, R191). -/
theorem operandEffect_sum (k : Byte → Byte) :
    OperandEffect (fun m s => writeSum (add8 s.a (k m) (s.flag .c)) s)
      (fun m s => { s with a := s.a + k m + BitVec.ofNat 8 (s.flag .c).toNat })
      (fun m s =>
        let r := s.a + k m + BitVec.ofNat 8 (s.flag .c).toNat
        (.c, decide (s.a.toNat + (k m).toNat + (s.flag .c).toNat > 255)) ::
          (.v, decide (((k m ^^^ r) &&& (r ^^^ s.a) &&& 0x80) ≠ 0)) :: znFlags r) where
  flags m s d := by
    simp only [← add8_carry, ← add8_sum, ← add8_overflow]
    exact flagsWritten_writeSum _ _
  rest m s d := by
    simp only [← add8_sum]
    rfl

/-- Settles O23: the forms are ADC's rows, and the adder's outputs are the sum and its flags. -/
theorem adcAddsWithCarry : Obligations.AdcAddsWithCarry := by
  have he : Encodes [0x69, 0x65, 0x75, 0x6D, 0x7D, 0x79, 0x61, 0x71] adcForms := encodes_iff.mpr (by decide)
  exact ⟨he, (operandEffect_sum fun m => m).readsOperand_forms (n := .adc) he (by decide) fun _ _ => rfl⟩

/-- Settles O24: the forms are SBC's rows, and SBC is the adder on the complemented operand. -/
theorem sbcAddsTheComplementWithCarry : Obligations.SbcAddsTheComplementWithCarry := by
  have he : Encodes [0xE9, 0xE5, 0xF5, 0xED, 0xFD, 0xF9, 0xE1, 0xF1] sbcForms := encodes_iff.mpr (by decide)
  exact ⟨he, (operandEffect_sum fun m => ~~~m).readsOperand_forms (n := .sbc) he (by decide) fun _ _ => rfl⟩

/-! ### AND, ORA, EOR and BIT -/

/-- The effect of AND, ORA and EOR: `op A m` to A, and its ZN (R192, R193, R194). -/
theorem operandEffect_logic (op : Byte → Byte → Byte) :
    OperandEffect (fun m s => loadA (op s.a m) s) (fun m s => { s with a := op s.a m })
      (fun m s => znFlags (op s.a m)) where
  flags m s d := flagsWritten_setZN (op s.a m) { s with diag := d }
  rest _ _ _ := rfl

/-- Settles O25: the forms are the three mnemonics' rows, whose meanings differ in the operation alone. -/
theorem logicCombinesIntoA : Obligations.LogicCombinesIntoA := by
  have hand : Encodes [0x29, 0x25, 0x35, 0x2D, 0x3D, 0x39, 0x21, 0x31] andForms := encodes_iff.mpr (by decide)
  have hora : Encodes [0x09, 0x05, 0x15, 0x0D, 0x1D, 0x19, 0x01, 0x11] oraForms := encodes_iff.mpr (by decide)
  have heor : Encodes [0x49, 0x45, 0x55, 0x4D, 0x5D, 0x59, 0x41, 0x51] eorForms := encodes_iff.mpr (by decide)
  exact ⟨hand, hora, heor,
    (operandEffect_logic (· &&& ·)).readsOperand_forms (n := .and) hand (by decide) fun _ _ => rfl,
    (operandEffect_logic (· ||| ·)).readsOperand_forms (n := .ora) hora (by decide) fun _ _ => rfl,
    (operandEffect_logic (· ^^^ ·)).readsOperand_forms (n := .eor) heor (by decide) fun _ _ => rfl⟩

/-- The effect of BIT: its three flags, and no register written (R195). -/
theorem operandEffect_bit :
    OperandEffect bitFlags (fun _ s => s)
      (fun m s => [(.z, decide (s.a &&& m = 0)), (.n, m.getLsbD 7), (.v, m.getLsbD 6)]) where
  flags m s d := flagsWritten_bitFlags m { s with diag := d }
  rest _ _ _ := rfl

/-- Settles O26: the forms are BIT's rows, and BIT writes flags only. -/
theorem bitTestsTheOperand : Obligations.BitTestsTheOperand := by
  have he : Encodes [0x24, 0x2C] bitForms := encodes_iff.mpr (by decide)
  exact ⟨he, operandEffect_bit.readsOperand_forms (n := .bit) he (by decide) fun _ _ => rfl⟩

end Sys2Proof.Machine
end

section
/-! PROOFS. The statement of 43_shift.md: the shifts and rotates (O27). Each is what its family does with the byte it
reads and writes back, put into the shape that all read-modify-write instructions share. -/

namespace Sys2Proof.Machine

open Sys2Proof.Claims

/-! ### The shape of a read-modify-write -/

/-- What a read-modify-write does once `r v c` is stored, `v` being the old byte and `c` the carry before: it writes the
flags `fl v c` and nothing else. -/
structure ModifyEffect (r : Byte → Bool → Byte) (flags : Byte → Byte → State → State)
    (fl : Byte → Bool → List (Flag × Bool)) : Prop where
  written : ∀ v s, FlagsWritten s (flags v (r v (s.flag .c)) s) (fl v (s.flag .c))
  rest : ∀ v w s, flags v w s = { s with sr := (flags v w s).sr }

/-- A bus write that does not fault changes memory and the log alone (R63). -/
theorem busWrite_rest {addr : Word} {v : Byte} {s t : State} (h : busWrite addr v s = .ok t) :
    ∃ m d, t = { s with mem := m, diag := d } := by
  rcases busWrite_ok h with ⟨-, rfl⟩ | ⟨-, rfl⟩
  · exact ⟨_, s.diag, rfl⟩
  · exact ⟨s.mem, _, rfl⟩

section

variable {mode : Mode} {result : Byte → State → Byte} {flags : Byte → Byte → State → State} {s s1 : State} {ea : Word}

/-- The operand in the reserved window faults at the read, before any write (R134, R342). -/
theorem modifyOperand_reserved (hr : resolve mode s = .ok (ea, s1)) (h : ¬ Readable ea) :
    modifyOperand mode result flags s = .fault (.reservedWindow ea .read) := by
  simp only [modifyOperand, locate_of_resolve hr, load, busRead_reserved s1 h, bind, Except.bind, retire, raiseFault]

/-- The operand in ROM is read, and the write of the result to it faults (R63, R134). -/
theorem modifyOperand_rom {v : Byte} (hr : resolve mode s = .ok (ea, s1)) (hv : s.peek ea = some v)
    (h : 0x8000 ≤ ea.toNat) :
    modifyOperand mode result flags s = .fault (.romWrite ea (result v (s1.afterRead ea))) := by
  have hv' : s1.peek ea = some v := ((OnlyLog.of_resolve hr).peek ea).trans hv
  simp only [modifyOperand, locate_of_resolve hr, load, busRead_some hv', store, busWrite_rom _ _ h, bind, Except.bind,
    retire, raiseFault]

end

namespace ModifyEffect

section

variable {mode : Mode} {r : Byte → Bool → Byte} {flags : Byte → Byte → State → State}
  {fl : Byte → Bool → List (Flag × Bool)} {i : Instr}

/-- Where the write succeeds, the byte is stored, and the next state keeps all but memory, the flags, PC and the log. -/
theorem next (he : ModifyEffect r flags fl) {s s1 s2 u : State} {ea : Word} {v : Byte}
    (hr : resolve mode s = .ok (ea, s1)) (hv : s.peek ea = some v) (hread : s1.afterRead ea = s2)
    (hw : busWrite ea (r v (s.flag .c)) s2 = .ok u) :
    ∃ t, modifyOperand mode (fun v s => r v (s.flag .c)) flags s = .next t ∧
      FlagsWritten s t (fl v (s.flag .c)) ∧ StoresByte s t ea (r v (s.flag .c)) ∧
      t = { s with mem := u.mem, sr := t.sr, pc := nextPc s mode, diag := u.diag } := by
  subst hread
  have hlog : OnlyLog s (s1.afterRead ea) := (OnlyLog.of_resolve hr).trans (OnlyLog.afterRead s1 ea)
  have hc : (s1.afterRead ea).flag .c = s.flag .c := hlog.flag .c
  have hnext := modifyOperand_memory (flags := flags) (result := fun v s => r v (s.flag .c)) hr hv (hc.symm ▸ hw)
  rw [hc] at hnext
  obtain ⟨d, hd⟩ := hlog
  rw [hd] at hw
  have hstored := storesByte_of_busWrite hw
  obtain ⟨m, e, rfl⟩ := busWrite_rest hw
  refine ⟨_, hnext, he.written v { s with mem := m, diag := e }, fun q => ?_,
    congrArg (State.advance · mode) (he.rest v _ _)⟩
  rw [he.rest]
  exact hstored q

/-- An instruction whose meaning is a read-modify-write does, in each region of memory, what the region's read and write
do with the result (R61, R134). -/
theorem modifiesMemory (he : ModifyEffect r flags fl)
    (hi : ∀ s, exec i s = modifyOperand mode (fun v s => r v (s.flag .c)) flags s) : ModifiesMemory i mode r fl := by
  intro s s1 ea hr
  rw [hi]
  refine ⟨fun v hv h => ?ram, fun h => ?unmapped, fun v hv h => ?rom, modifyOperand_reserved hr⟩
  case ram =>
    have hread : s1.afterRead ea = s1 := State.afterRead_eq fun hu => absurd hu.1 (by omega)
    obtain ⟨t, ht, hf, hs, hrest⟩ := he.next hr hv hread (busWrite_ram _ s1 h)
    exact ⟨t, ht, hf, hs, by rw [hrest]; rfl⟩
  case unmapped =>
    have hread : s1.afterRead ea = s1.note (.unmappedRead ea) := if_pos h
    obtain ⟨t, ht, hf, -, hrest⟩ := he.next hr (peek_unmapped s h) hread (busWrite_unmapped _ _ h)
    obtain ⟨d, rfl⟩ := OnlyLog.of_resolve hr
    exact ⟨t, ht, hf, hrest⟩
  case rom =>
    rw [modifyOperand_rom hr hv h, State.afterRead_flag, (OnlyLog.of_resolve hr).flag]

/-- A mnemonic's memory forms are its rows, each in its own mode, so they all have the effect its meaning has (R133). -/
theorem modifiesMemory_forms (he : ModifyEffect r flags fl) {n : Mnemonic} {forms : List (Instr × Mode)}
    (hn : ∀ f ∈ forms, f.1.mnemonic = n ∧ f.1.mode = f.2)
    (hm : ∀ mode s, meaningOf n mode s = modifyOperand mode (fun v s => r v (s.flag .c)) flags s) :
    ∀ f ∈ forms, ModifiesMemory f.1 f.2 r fl := by
  intro f hf
  obtain ⟨hfn, hfm⟩ := hn f hf
  refine he.modifiesMemory fun s => ?_
  rw [exec_eq, hfn, hfm, hm]

/-- The Accumulator form has the same effect on A, with no access to memory (R134). -/
theorem changesA (he : ModifyEffect r flags fl)
    (hi : ∀ s, exec i s = modifyOperand .accumulator (fun v s => r v (s.flag .c)) flags s) :
    ChangesRegisters i (fun s => { s with a := r s.a (s.flag .c) }) (fun s => fl s.a (s.flag .c)) := fun s =>
  ⟨_, (hi s).trans (modifyOperand_accumulator _ _ s), he.written s.a (s.setA (r s.a (s.flag .c))),
    congrArg (State.advance · .accumulator) (he.rest s.a _ _)⟩

end

end ModifyEffect

/-! ### The four operations as arithmetic -/

/-- ASL doubles (R143). -/
theorem asl8_eq (v : Byte) : asl8 v = BitVec.ofNat 8 (2 * v.toNat) := by
  apply BitVec.eq_of_toNat_eq
  rw [asl8, BitVec.toNat_shiftLeft, BitVec.toNat_ofNat, Nat.shiftLeft_eq, Nat.mul_comm, pow_one]

/-- LSR halves (R143). -/
theorem lsr8_eq (v : Byte) : lsr8 v = BitVec.ofNat 8 (v.toNat / 2) := by
  have := v.isLt
  apply BitVec.eq_of_toNat_eq
  rw [lsr8, BitVec.toNat_ushiftRight, BitVec.toNat_ofNat, Nat.shiftRight_eq_div_pow]
  omega

/-- The bit 0 a left shift leaves free takes the carry, so the or is a sum (R143). -/
theorem rol8_eq (v : Byte) (c : Bool) : rol8 v c = BitVec.ofNat 8 (2 * v.toNat + c.toNat) := by
  have hdisj : v <<< 1 &&& carryBit c = 0#8 := by
    ext k hk
    cases c <;> cases k <;> simp [carryBit]
  rw [rol8, ← BitVec.add_eq_or_of_and_eq_zero _ _ hdisj, ← asl8, asl8_eq, carryBit, BitVec.ofNat_add]

/-- The bit 7 a right shift leaves free takes the carry, so the or is a sum (R143). -/
theorem ror8_eq (v : Byte) (c : Bool) : ror8 v c = BitVec.ofNat 8 (v.toNat / 2 + 128 * c.toNat) := by
  have hcarry : carryBit c <<< 7 = BitVec.ofNat 8 (128 * c.toNat) := by cases c <;> rfl
  have hdisj : v >>> 1 &&& carryBit c <<< 7 = 0#8 := by
    ext k hk
    by_cases h7 : k = 7
    · simp [h7]
    · have : k < 7 := by omega
      simp [this]
  rw [ror8, ← BitVec.add_eq_or_of_and_eq_zero _ _ hdisj, hcarry, ← lsr8, lsr8_eq, BitVec.ofNat_add]

/-! ### ASL, LSR, ROL and ROR -/

theorem flagsWritten_shiftFlags (out : Bool) (r : Byte) (s : State) :
    FlagsWritten s (shiftFlags out r s) ((.c, out) :: znFlags r) := by
  intro f
  rw [flag_shiftFlags, znFlags_eq]
  cases f <;> rfl

/-- The effect of a shift: C is bit `k` of the old byte, ZN of the result (R210 to R213). -/
theorem modifyEffect_shift (r : Byte → Bool → Byte) (k : Nat) :
    ModifyEffect r (fun v w => shiftFlags (v.getLsbD k) w) (fun v c => (.c, v.getLsbD k) :: znFlags (r v c)) where
  written _ s := flagsWritten_shiftFlags _ _ s
  rest _ _ _ := rfl

section

variable (mode : Mode) (s : State)

theorem shiftLeft_eq :
    shiftLeft mode s = modifyOperand mode (fun v _ => BitVec.ofNat 8 (2 * v.toNat))
      (fun v r => shiftFlags (v.getLsbD 7) r) s := by
  simp only [shiftLeft, asl8_eq]

theorem shiftRight_eq :
    shiftRight mode s = modifyOperand mode (fun v _ => BitVec.ofNat 8 (v.toNat / 2))
      (fun v r => shiftFlags (v.getLsbD 0) r) s := by
  simp only [shiftRight, lsr8_eq]

theorem rotateLeft_eq :
    rotateLeft mode s = modifyOperand mode (fun v s => BitVec.ofNat 8 (2 * v.toNat + (s.flag .c).toNat))
      (fun v r => shiftFlags (v.getLsbD 7) r) s := by
  simp only [rotateLeft, rol8_eq]

theorem rotateRight_eq :
    rotateRight mode s = modifyOperand mode (fun v s => BitVec.ofNat 8 (v.toNat / 2 + 128 * (s.flag .c).toNat))
      (fun v r => shiftFlags (v.getLsbD 0) r) s := by
  simp only [rotateRight, ror8_eq]

end

/-- Settles O27: the forms are the four mnemonics' rows, whose meanings differ in the result and in the bit that goes to
C. -/
theorem shiftsMoveOneBitThroughCarry : Obligations.ShiftsMoveOneBitThroughCarry := by
  have asl := modifyEffect_shift (fun v _ => BitVec.ofNat 8 (2 * v.toNat)) 7
  have lsr := modifyEffect_shift (fun v _ => BitVec.ofNat 8 (v.toNat / 2)) 0
  have rol := modifyEffect_shift (fun v c => BitVec.ofNat 8 (2 * v.toNat + c.toNat)) 7
  have ror := modifyEffect_shift (fun v c => BitVec.ofNat 8 (v.toNat / 2 + 128 * c.toNat)) 0
  exact ⟨encodes_iff.mpr (by decide), encodes_iff.mpr (by decide), encodes_iff.mpr (by decide),
    encodes_iff.mpr (by decide),
    asl.changesA (shiftLeft_eq .accumulator), lsr.changesA (shiftRight_eq .accumulator),
    rol.changesA (rotateLeft_eq .accumulator), ror.changesA (rotateRight_eq .accumulator),
    asl.modifiesMemory_forms (n := .asl) (by decide) shiftLeft_eq,
    lsr.modifiesMemory_forms (n := .lsr) (by decide) shiftRight_eq,
    rol.modifiesMemory_forms (n := .rol) (by decide) rotateLeft_eq,
    ror.modifiesMemory_forms (n := .ror) (by decide) rotateRight_eq⟩

end Sys2Proof.Machine
end

section
/-! PROOFS. The statements of 44_compare_incdec.md: the compares (O28), INC and DEC (O29), and the steps of X and Y
(O30). The first two take the shapes above; the third needs the shape of an Implicit instruction. -/

namespace Sys2Proof.Machine

open Sys2Proof.Claims

/-! ### CMP, CPX and CPY -/

/-- The flags of a comparison, as the statements list them (R147). -/
theorem flagsWritten_compare8 (r m : Byte) (s : State) :
    FlagsWritten s (compare8 r m s)
      [(.c, decide (m.toNat ≤ r.toNat)), (.z, decide (r = m)), (.n, (r - m).getLsbD 7)] := by
  intro f
  rw [flag_compare8]
  cases f <;> rfl

/-- The effect of a compare with a register `r`, a part of the state outside the log: its three flags, and no register
written (R230, R231, R232). -/
theorem operandEffect_compare (r : State → Byte) (hr : ∀ s d, r { s with diag := d } = r s) :
    OperandEffect (fun m s => compare8 (r s) m s) (fun _ s => s)
      (fun m s => [(.c, decide (m.toNat ≤ (r s).toNat)), (.z, decide (r s = m)), (.n, (r s - m).getLsbD 7)]) where
  flags m s d := by
    simp only [hr]
    exact flagsWritten_compare8 (r s) m { s with diag := d }
  rest _ _ _ := rfl

/-- Settles O28: the forms are the three mnemonics' rows, whose meanings differ in the register alone. -/
theorem comparesWriteFlagsOnly : Obligations.ComparesWriteFlagsOnly := by
  have hcmp : Encodes [0xC9, 0xC5, 0xD5, 0xCD, 0xDD, 0xD9, 0xC1, 0xD1] cmpForms := encodes_iff.mpr (by decide)
  have hcpx : Encodes [0xE0, 0xE4, 0xEC] cpxForms := encodes_iff.mpr (by decide)
  have hcpy : Encodes [0xC0, 0xC4, 0xCC] cpyForms := encodes_iff.mpr (by decide)
  exact ⟨hcmp, hcpx, hcpy,
    (operandEffect_compare State.a fun _ _ => rfl).readsOperand_forms (n := .cmp) hcmp (by decide) fun _ _ => rfl,
    (operandEffect_compare State.x fun _ _ => rfl).readsOperand_forms (n := .cpx) hcpx (by decide) fun _ _ => rfl,
    (operandEffect_compare State.y fun _ _ => rfl).readsOperand_forms (n := .cpy) hcpy (by decide) fun _ _ => rfl⟩

/-! ### INC and DEC -/

/-- The effect of INC and DEC: `k v` is stored for the old byte `v`, and the flags are its ZN (R233, R234). -/
theorem modifyEffect_setZN (k : Byte → Byte) :
    ModifyEffect (fun v _ => k v) (fun _ w => setZN w) (fun v _ => znFlags (k v)) where
  written v s := flagsWritten_setZN (k v) s
  rest _ _ _ := rfl

/-- Settles O29: the forms are the two mnemonics' rows, whose meanings differ in the result alone. -/
theorem incAndDecChangeMemoryByOne : Obligations.IncAndDecChangeMemoryByOne :=
  ⟨encodes_iff.mpr (by decide), encodes_iff.mpr (by decide),
    (modifyEffect_setZN (· + 1)).modifiesMemory_forms (n := .inc) (by decide) fun _ _ => rfl,
    (modifyEffect_setZN (· - 1)).modifiesMemory_forms (n := .dec) (by decide) fun _ _ => rfl⟩

/-! ### INX, INY, DEX and DEY -/

/-- An Implicit instruction that makes no data access does what its effect does, and then PC is advanced by one byte
(R131). -/
theorem changesRegisters_implied {i : Instr} {f upd : State → State} {fl : State → List (Flag × Bool)}
    (hi : ∀ s, exec i s = implied f s) (hflags : ∀ s, FlagsWritten s (f s) (fl s))
    (hrest : ∀ s, f s = { upd s with sr := (f s).sr, pc := s.pc }) : ChangesRegisters i upd fl := fun s =>
  ⟨_, (hi s).trans (implied_eq f s), hflags s, congrArg (State.advance · .implicit) (hrest s)⟩

/-- An Implicit instruction that loads X with `v` writes X and the ZN of `v` (R140). -/
theorem changesRegisters_loadX {i : Instr} {v : State → Byte}
    (hi : ∀ s, exec i s = implied (fun s => loadX (v s) s) s) :
    ChangesRegisters i (fun s => { s with x := v s }) (fun s => znFlags (v s)) :=
  changesRegisters_implied hi (fun s => flagsWritten_setZN (v s) (s.setX (v s))) fun _ => rfl

/-- An Implicit instruction that loads Y with `v` writes Y and the ZN of `v` (R140). -/
theorem changesRegisters_loadY {i : Instr} {v : State → Byte}
    (hi : ∀ s, exec i s = implied (fun s => loadY (v s) s) s) :
    ChangesRegisters i (fun s => { s with y := v s }) (fun s => znFlags (v s)) :=
  changesRegisters_implied hi (fun s => flagsWritten_setZN (v s) (s.setY (v s))) fun _ => rfl

/-- Settles O30: each of the four loads its register with `inc8` or `dec8` of it. -/
theorem indexRegistersStepByOne : Obligations.IndexRegistersStepByOne :=
  ⟨encodes_iff.mpr (by decide),
    changesRegisters_loadX (v := fun s => s.x + 1) fun _ => rfl,
    changesRegisters_loadY (v := fun s => s.y + 1) fun _ => rfl,
    changesRegisters_loadX (v := fun s => s.x - 1) fun _ => rfl,
    changesRegisters_loadY (v := fun s => s.y - 1) fun _ => rfl⟩

end Sys2Proof.Machine
end

section
/-! PROOFS. The statements of 45_control.md: the branches (O31), JMP (O32), JSR and its inverse RTS (O33, O34, O36), RTI
(O35), BRK and NOP (O37). -/

namespace Sys2Proof.Machine

open Sys2Proof.Claims

/-! ### The branches -/

/-- Each branch instruction is `branch` on the flag and the value of its row (R251 to R258). -/
theorem exec_of_mem_branchForms {b : Instr × Flag × Bool} (hb : b ∈ branchForms) (s : State) :
    exec b.1 s = branch b.2.1 b.2.2 s := by
  fin_cases hb <;> rfl

/-- Settles O31: the three cases of `branch`, by the tested flag and by whether the displacement can be read. -/
theorem branchesAddTheDisplacementThenAdvance : Obligations.BranchesAddTheDisplacementThenAdvance := by
  refine ⟨encodes_iff.mpr (by decide), fun b hb s => ?_⟩
  rw [exec_of_mem_branchForms hb]
  exact ⟨branch_not_taken, fun _ hf hd => branch_taken hf hd, fun hf hr => branch_fault hf ((peek_eq_none s).mpr hr)⟩

/-! ### JMP -/

/-- JMP changes PC alone; the log is as the resolver's reads leave it (R259, R260). -/
theorem jump_eq_of_resolve {mode : Mode} {s s1 : State} {ea : Word} (h : resolve mode s = .ok (ea, s1)) :
    jump mode s = .next { s with pc := ea, diag := s1.diag } := by
  rw [jump_eq h]
  obtain ⟨d, rfl⟩ := OnlyLog.of_resolve h
  rfl

/-- The two rows of JMP are `jump` in the row's mode (R133). -/
theorem exec_of_mem_jmpForms {f : Instr × Mode}
    (hf : f ∈ [(Instr.jmpAbsolute, Mode.absolute), (.jmpIndirect, .indirect)]) (s : State) :
    exec f.1 s = jump f.2 s := by
  fin_cases hf <;> rfl

/-- Settles O32: JMP goes where the resolver says and faults where it faults, in each of its two modes. -/
theorem jumpSetsPcToTheTarget : Obligations.JumpSetsPcToTheTarget := by
  refine ⟨encodes_iff.mpr (by decide), fun s => ⟨fun f hf => ?_, fun lo hi hl hh => ?_⟩⟩
  · have hm : f.2 ∈ [.absolute, .absoluteX, .absoluteY] ++ [.indirect] := by
      fin_cases hf <;> decide
    rw [exec_of_mem_jmpForms hf]
    exact ⟨fun _ _ h => jump_eq_of_resolve h,
      fun _ h => jump_of_resolve_error (resolve_of_operandWord_unreadable hm h)⟩
  · obtain ⟨htarget, hfault⟩ := (indirectHasThePageWrapBug.2 s).2 lo hi hl hh
    rw [add_two_eq] at hh
    exact ⟨⟨_, jump_eq (resolve_absolute hl hh), rfl⟩, fun tl th h1 h2 => ⟨_, jump_eq (htarget tl th h1 h2), rfl⟩,
      fun q h => jump_of_resolve_error (hfault q h)⟩

/-! ### JSR -/

/-- Settles O33: `jsr_eq` at the operand word; the resolver only reads, so the stack it pushes on is the one before. -/
theorem jsrPushesTheReturnAddressLessOne : Obligations.JsrPushesTheReturnAddressLessOne := by
  refine ⟨encodes_iff.mpr (by decide), fun s => ⟨fun lo hi hl hh => ?_, fun q h => ?_⟩⟩
  · have hr : resolve .absolute s = .ok (wordOf hi lo, (s.afterRead (s.pc + 1)).afterRead (s.pc + 2)) := by
      rw [add_two_eq] at hh ⊢
      exact resolve_absolute hl hh
    refine ⟨_, jsr_eq hr, ?_, fun q => ?_⟩
    · obtain ⟨d, hd⟩ := OnlyLog.of_resolve hr
      rw [hd]
      rfl
    · rw [State.peek_setPc, peek_pushWord]
      simp only [State.afterRead_sp, State.afterRead_peek]
      rfl
  · exact jsr_of_resolve_error (resolve_of_operandWord_unreadable (by decide) h)

/-! ### The stack bytes that RTS and RTI read -/

/-- The stack byte a stack-pointer value designates is what the statements read there (R34). -/
theorem stackByte_of_peek {s : State} {sp v : Byte} (h : s.peek (0x0100 + zext sp) = some v) : s.stackByte sp = v :=
  Option.some.inj ((peek_stackAddr s sp).symm.trans h)

/-- Settles O34: `rts_eq`, the two bytes pulled being the stack bytes above SP. -/
theorem rtsReturnsPastThePulledAddress : Obligations.RtsReturnsPastThePulledAddress := by
  refine ⟨encodes_iff.mpr (by decide), fun s lo hi hl hh => ?_⟩
  rw [← stackByte_of_peek hl, ← stackByte_of_peek hh]
  exact rts_eq s

/-- Settles O35: `rti_eq`, the three bytes pulled being the stack bytes above SP. -/
theorem rtiRestoresStatusThenPc : Obligations.RtiRestoresStatusThenPc := by
  refine ⟨encodes_iff.mpr (by decide), fun s p lo hi hp hl hh => ?_⟩
  rw [← stackByte_of_peek hp, ← stackByte_of_peek hl, ← stackByte_of_peek hh]
  exact rti_eq s

/-! ### JSR and then RTS -/

/-- The low byte of a pushed word is written last, one below SP (R261). -/
theorem stackByte_pushWord_low (s : State) (w : Word) : (s.pushWord w).stackByte (s.sp - 1) = lowByte w :=
  stackByte_push_same ((s.setMem (Memory.write s.mem (0x0100 + s.sp.toNat) (highByte w))).setSp (s.sp - 1)) _ _

/-- The high byte of a pushed word is written at SP, and the low byte goes elsewhere, also where SP wraps (R261). -/
theorem stackByte_pushWord_high (s : State) (w : Word) : (s.pushWord w).stackByte s.sp = highByte w := by
  have hne : s.sp ≠ s.sp - 1 := by bv_omega
  exact (stackByte_push_other ((s.setMem (Memory.write s.mem (0x0100 + s.sp.toNat) (highByte w))).setSp (s.sp - 1))
    (lowByte w) (s.sp - 2) hne).trans (stackByte_push_same s (highByte w) (s.sp - 1))

/-- RTS after a pushed word: PC is the word plus one, and SP is as before the push, wherever PC was (R146, R262). -/
theorem rts_pushWord (s : State) (w ea : Word) :
    execRts ((s.pushWord w).setPc ea) = .next (((s.pushWord w).setSp s.sp).setPc (w + 1)) := by
  have hlow : ((s.pushWord w).setPc ea).sp + 1 = s.sp - 1 := show s.sp - 2 + 1 = s.sp - 1 by bv_omega
  have hhigh : ((s.pushWord w).setPc ea).sp + 2 = s.sp := BitVec.sub_add_cancel s.sp 2
  have hbyte (sp : Byte) : ((s.pushWord w).setPc ea).stackByte sp = (s.pushWord w).stackByte sp := rfl
  rw [rts_eq, hlow, hhigh, hbyte, hbyte, stackByte_pushWord_low, stackByte_pushWord_high, wordOf_highByte_lowByte]
  rfl

/-- Settles O36: RTS pulls the word JSR pushed, the JSR's address plus two. -/
theorem rtsUndoesJsr : Obligations.RtsUndoesJsr := by
  intro s t h
  obtain ⟨ea, s1, hr, rfl⟩ := jsr_next h
  obtain ⟨d, rfl⟩ := OnlyLog.of_resolve hr
  exact ⟨_, rts_pushWord _ (s.pc + 2) ea, BitVec.add_assoc s.pc 2 1, rfl⟩

/-! ### BRK and NOP -/

/-- One flag written is that flag and no other, as the statements list it (R18). -/
theorem flagsWritten_setFlag (s : State) (f : Flag) (v : Bool) : FlagsWritten s (s.setFlag f v) [(f, v)] := by
  intro g
  rw [State.flag_setFlag]
  by_cases h : g = f
  · simp [h]
  · simp [List.lookup, beq_false_of_ne h, h]

/-- A state whose SR.B is set is Halted (R47, log 5). -/
theorem runState_halted {s : State} (h : s.flag .b = true) : s.runState = .halted := if_pos h

/-- Settles O37: BRK writes SR.B alone, which is what Halted means, and NOP's effect is the advance. -/
theorem brkHaltsAndNopAdvances : Obligations.BrkHaltsAndNopAdvances := by
  refine ⟨encodes_iff.mpr (by decide), fun s => ⟨?_, nop_eq s⟩⟩
  have hb : (s.setFlag .b true).flag .b = true := State.flag_setFlag_same s .b true
  exact ⟨_, brk_eq s, flagsWritten_setFlag s .b true, rfl, runState_halted hb,
    (onlyHaltedStatesAreRefused _ _).mpr ⟨hb, rfl⟩⟩

end Sys2Proof.Machine
end

section
/-! PROOFS. The statements of 46_stack_flags_transfer.md: the pushes (O38), the pulls (O39), the flag instructions (O40)
and the transfers (O41). The last two take the shape of an Implicit instruction that makes no data access. -/

namespace Sys2Proof.Machine

open Sys2Proof.Claims

/-! ### PHA and PHP -/

/-- A push and the auto-advance, for any byte: what O13 says of the push, with PC one further (R131, R144). -/
theorem retire_push_storesByte (v : Byte) (s : State) :
    ∃ t, retire .implicit (push v s) = .next t ∧ StoresByte s t (0x0100 + zext s.sp) v ∧
      t = { s with mem := t.mem, sp := s.sp - 1, pc := s.pc + 1 } := by
  obtain ⟨t, hpush, hstores, hrest⟩ := (pushAndPullNeverFault s).1 v
  refine ⟨t.advance .implicit, ?_, fun q => (State.peek_advance t .implicit q).trans (hstores q),
    congrArg (State.advance · .implicit) hrest⟩
  rw [hpush]
  rfl

/-- Settles O38: both are a push and the auto-advance, and differ in the byte alone. -/
theorem pushInstructionsStoreOneByte : Obligations.PushInstructionsStoreOneByte :=
  ⟨encodes_iff.mpr (by decide), fun s =>
    ⟨retire_push_storesByte s.a s, retire_push_storesByte (pushedStatus s.sr) s⟩⟩

/-! ### PLA and PLP -/

/-- Settles O39: `pla_eq` and `plp_eq`, the byte pulled being the stack byte above SP. -/
theorem pullInstructionsLoadOneByte : Obligations.PullInstructionsLoadOneByte := by
  refine ⟨encodes_iff.mpr (by decide), fun s v hv => ?_⟩
  rw [← stackByte_of_peek hv]
  exact ⟨⟨_, pla_eq s, flagsWritten_setZN _ ((s.setSp (s.sp + 1)).setA _), rfl⟩, plp_eq s⟩

/-! ### CLC, SEC, CLI, SEI, CLD, SED and CLV -/

/-- An Implicit instruction that writes one flag changes that flag, and no register (R18). -/
theorem changesRegisters_setFlag {i : Instr} {f : Flag} {v : Bool}
    (hi : ∀ s, exec i s = implied (fun s => s.setFlag f v) s) :
    ChangesRegisters i (fun s => s) (fun _ => [(f, v)]) :=
  changesRegisters_implied hi (fun s => flagsWritten_setFlag s f v) fun _ => rfl

/-- Settles O40: the meaning of each of the seven is `setFlag` with the flag and the value its row lists. -/
theorem flagInstructionsWriteOneFlag : Obligations.FlagInstructionsWriteOneFlag := by
  refine ⟨encodes_iff.mpr (by decide), fun p hp => changesRegisters_setFlag fun s => ?_⟩
  fin_cases hp <;> rfl

/-! ### TAX, TAY, TXA, TYA, TSX and TXS -/

/-- An Implicit instruction that loads A with `v` writes A and the ZN of `v` (R140). -/
theorem changesRegisters_loadA {i : Instr} {v : State → Byte}
    (hi : ∀ s, exec i s = implied (fun s => loadA (v s) s) s) :
    ChangesRegisters i (fun s => { s with a := v s }) (fun s => znFlags (v s)) :=
  changesRegisters_implied hi (fun s => flagsWritten_setZN (v s) (s.setA (v s))) fun _ => rfl

/-- TXS writes SP, and no flag (R296). -/
theorem changesRegisters_txs : ChangesRegisters .txs (fun s => { s with sp := s.x }) (fun _ => []) :=
  changesRegisters_implied (f := fun s => s.setSp s.x) (fun _ => rfl) (fun _ _ => rfl) fun _ => rfl

/-- Settles O41: five of the six load their destination with the source and its ZN, and TXS writes SP alone. -/
theorem transfersCopyOneRegister : Obligations.TransfersCopyOneRegister :=
  ⟨encodes_iff.mpr (by decide),
    changesRegisters_loadX (v := State.a) fun _ => rfl,
    changesRegisters_loadY (v := State.a) fun _ => rfl,
    changesRegisters_loadA (v := State.x) fun _ => rfl,
    changesRegisters_loadA (v := State.y) fun _ => rfl,
    changesRegisters_loadX (v := State.sp) fun _ => rfl,
    changesRegisters_txs⟩

end Sys2Proof.Machine
end

section
/-! PROOFS. The statements of 47_load_store.md: the loads (O42), which take the shape of an instruction that reads its
operand, and the stores (O43), whose shape is one bus write at the effective address. -/

namespace Sys2Proof.Machine

open Sys2Proof.Claims

/-! ### LDA, LDX and LDY -/

/-- The effect of a load: `put` writes the operand byte into its register, reading no log and writing no flag, and the
flags are the byte's ZN (R310, R311, R312). -/
theorem operandEffect_load (put : Byte → State → State)
    (hput : ∀ m s d, put m { s with diag := d } = { put m s with sr := s.sr, pc := s.pc, diag := d }) :
    OperandEffect (fun m s => setZN m (put m s)) put (fun m _ => znFlags m) where
  flags m s d := by
    rw [hput]
    exact flagsWritten_setZN m { put m s with sr := s.sr, pc := s.pc, diag := d }
  rest m s d := by
    rw [hput]
    rfl

/-- Settles O42: the forms are the three mnemonics' rows, whose meanings differ in the register alone. -/
theorem loadsSetTheRegister : Obligations.LoadsSetTheRegister := by
  have hlda : Encodes [0xA9, 0xA5, 0xB5, 0xAD, 0xBD, 0xB9, 0xA1, 0xB1] ldaForms := encodes_iff.mpr (by decide)
  have hldx : Encodes [0xA2, 0xA6, 0xB6, 0xAE, 0xBE] ldxForms := encodes_iff.mpr (by decide)
  have hldy : Encodes [0xA0, 0xA4, 0xB4, 0xAC, 0xBC] ldyForms := encodes_iff.mpr (by decide)
  exact ⟨hlda, hldx, hldy,
    (operandEffect_load (fun m s => { s with a := m }) fun _ _ _ => rfl).readsOperand_forms (n := .lda) hlda (by decide)
      fun _ _ => rfl,
    (operandEffect_load (fun m s => { s with x := m }) fun _ _ _ => rfl).readsOperand_forms (n := .ldx) hldx (by decide)
      fun _ _ => rfl,
    (operandEffect_load (fun m s => { s with y := m }) fun _ _ _ => rfl).readsOperand_forms (n := .ldy) hldy (by decide)
      fun _ _ => rfl⟩

/-! ### STA, STX and STY -/

section

variable {mode : Mode} {value : State → Byte}

/-- A store whose address resolves faults as its write does; nothing is read there (R134). -/
theorem writeOperand_of_busWrite_error {s s1 : State} {ea : Word} {f : Fault} (hr : resolve mode s = .ok (ea, s1))
    (hw : busWrite ea (value s1) s1 = .error f) : writeOperand mode value s = .fault f := by
  simp only [writeOperand, locate_of_resolve hr, store, hw, bind, Except.bind, retire, raiseFault]

/-- An instruction whose meaning is to store `value`, a part of the state outside the log, does in each region of memory
what a write does there (R61, R134). -/
theorem storesRegister_of_writeOperand {i : Instr} (hv : ∀ s d, value { s with diag := d } = value s)
    (hi : ∀ s, exec i s = writeOperand mode value s) : StoresRegister i mode value := by
  intro s s1 ea hr
  obtain ⟨d, rfl⟩ := OnlyLog.of_resolve hr
  rw [hi, ← hv s (d ++ s.diag)]
  refine ⟨fun h => ?ram, fun h => ?unmapped, fun h => ?reserved, fun h => ?rom⟩
  case ram =>
    have hw := busWrite_ram (value { s with diag := d ++ s.diag }) { s with diag := d ++ s.diag } h
    have hstored := storesByte_of_busWrite hw
    exact ⟨_, writeOperand_eq hr hw, fun q => hstored q, rfl⟩
  case unmapped => exact writeOperand_eq hr (busWrite_unmapped _ _ h)
  case reserved => exact writeOperand_of_busWrite_error hr (busWrite_reserved _ _ h)
  case rom => exact writeOperand_of_busWrite_error hr (busWrite_rom _ _ h)

/-- A mnemonic's forms are its rows, each in its own mode, so they all store what its meaning stores (R133). -/
theorem storesRegister_forms {n : Mnemonic} {bytes : List Byte} {forms : List (Instr × Mode)}
    (hv : ∀ s d, value { s with diag := d } = value s) (he : Encodes bytes forms)
    (hn : ∀ f ∈ forms, f.1.mnemonic = n) (hm : ∀ mode s, meaningOf n mode s = writeOperand mode value s) :
    ∀ f ∈ forms, StoresRegister f.1 f.2 value := by
  intro f hf
  refine storesRegister_of_writeOperand hv fun s => ?_
  rw [exec_eq, hn f hf, he.2 f hf, hm]

end

/-- Settles O43: the forms are the three mnemonics' rows, whose meanings differ in the register alone. -/
theorem storesWriteTheRegister : Obligations.StoresWriteTheRegister := by
  have hsta : Encodes [0x85, 0x95, 0x8D, 0x9D, 0x99, 0x81, 0x91] staForms := encodes_iff.mpr (by decide)
  have hstx : Encodes [0x86, 0x96, 0x8E] stxForms := encodes_iff.mpr (by decide)
  have hsty : Encodes [0x84, 0x94, 0x8C] styForms := encodes_iff.mpr (by decide)
  exact ⟨hsta, hstx, hsty,
    storesRegister_forms (n := .sta) (fun _ _ => rfl) hsta (by decide) fun _ _ => rfl,
    storesRegister_forms (n := .stx) (fun _ _ => rfl) hstx (by decide) fun _ _ => rfl,
    storesRegister_forms (n := .sty) (fun _ _ => rfl) hsty (by decide) fun _ _ => rfl⟩

end Sys2Proof.Machine
end

section
/-! PROOFS. The statements of 60_exceptions.md: the faults of a step (O5, O22) and of an instruction (O51, O52), the
launch refusals (O58), the callback (O59) and the run loop (O60). -/

namespace Sys2Proof.Machine

open Sys2Proof.Claims

/-! ### The faults of a step -/

/-- R112's list is exactly what the opcode map leaves out, byte by byte (R109). -/
theorem mem_illegalBytes_iff (b : Byte) : b ∈ illegalBytes ↔ decode b = .error (.illegalOpcode b) := by
  revert b
  decide

section

variable {s : State}

/-- A state that is not refused a step is not Halted (R47). -/
theorem halted_eq_false_of_step (h : step s ≠ .refused .halted) : s.halted = false :=
  Bool.eq_false_iff.mpr fun hb => h ((onlyHaltedStatesAreRefused s .halted).mpr ⟨hb, rfl⟩)

/-- A fault of the fetch, which follows the callback, ends a Running state's step (R130, R362). -/
theorem step_of_fetch_error {f : Fault} (hs : s.halted = false) (hf : fetch (callback s) = .error f) :
    step s = .fault f := by
  rw [step, hs, if_neg Bool.false_ne_true, stepInstr, hf]
  rfl

theorem step_of_illegalByte {b : Byte} (hs : s.halted = false) (hb : (callback s).peek s.pc = some b)
    (hill : b ∈ illegalBytes) : step s = .fault (.illegalOpcode b s.pc) := by
  refine step_of_fetch_error hs ?_
  rw [← callback_pc] at hb ⊢
  rw [fetch_eq hb, (mem_illegalBytes_iff b).mp hill]

theorem step_of_unreadable_pc (hs : s.halted = false) (h : ¬ Readable s.pc) :
    step s = .fault (.reservedWindow s.pc .read) := by
  refine step_of_fetch_error hs ?_
  rw [← callback_pc] at h ⊢
  exact fetch_none ((peek_eq_none _).mpr h)

/-- Every fault a step can raise: an illegal opcode byte at PC, a read or a write of the reserved window, or a write to
ROM (R347). -/
theorem step_fault {f : Fault} (h : step s = .fault f) :
    (∃ b ∈ illegalBytes, (callback s).peek s.pc = some b ∧ f = .illegalOpcode b s.pc) ∨
      (∃ q k, f = .reservedWindow q k) ∨ ∃ q v, 0x8000 ≤ q.toNat ∧ f = .romWrite q v := by
  have hs : s.halted = false := halted_eq_false_of_step (by rw [h]; exact nofun)
  cases hb : (callback s).peek s.pc with
  | none =>
    cases h.symm.trans (step_of_unreadable_pc hs ((peek_eq_none _).mp hb))
    exact .inr (.inl ⟨_, _, rfl⟩)
  | some b =>
    cases hd : decode b with
    | ok i => exact .inr (exec_fault ((step_of_decode hs hb hd).symm.trans h))
    | error e =>
      have hill : b ∈ illegalBytes := (mem_illegalBytes_iff b).mpr (decode_error hd ▸ hd)
      cases h.symm.trans (step_of_illegalByte hs hb hill)
      exact .inl ⟨b, hill, rfl, rfl⟩

end

/-- Settles O5: the fetch faults as told, and of the faults of a step only that of an illegal byte is IllegalOpcode. -/
theorem fetchFaults : Obligations.FetchFaults := by
  refine fun s hs => ⟨fun b hb => ⟨step_of_illegalByte hs hb, fun h => ?_⟩, step_of_unreadable_pc hs⟩
  rcases step_fault h with ⟨b', hill, -, hf⟩ | ⟨q, k, hf⟩ | ⟨q, v, -, hf⟩ <;> cases hf
  exact hill

/-- Settles O22: ResolverMisuse is none of the faults of a step. -/
theorem resolverMisuseIsUnreachable : Obligations.ResolverMisuseIsUnreachable := by
  refine fun s => ⟨fun mode hm => ?_, fun mode h => ?_⟩
  · fin_cases hm <;> rfl
  · rcases step_fault h with ⟨b, -, -, hf⟩ | ⟨q, k, hf⟩ | ⟨q, v, -, hf⟩ <;> cases hf

/-! ### The faults of an instruction -/

section

variable {i : Instr}

/-- The Accumulator rows are the shifts' and rotates' (R110). -/
theorem mnemonic_of_accumulator (h : i.mode = .accumulator) : i.mnemonic ∈ [.asl, .lsr, .rol, .ror] := by
  revert h
  cases i <;> decide

/-- JSR and the branches have no Implicit row (R110). -/
theorem mode_ne_implicit_of_jsr_or_branch (h : i.mnemonic ∈ [.jsr, .bcc, .bcs, .beq, .bne, .bmi, .bpl, .bvc, .bvs]) :
    i.mode ≠ .implicit := by
  revert h
  cases i <;> decide

/-- The Relative rows are the branches' (R110). -/
theorem mem_branchForms_of_relative (h : i.mode = .relative) : ∃ b ∈ branchForms, b.1 = i := by
  revert h
  cases i <;> decide

/-- An Accumulator instruction accesses no memory (R134). -/
theorem exec_next_of_accumulator (s : State) (h : i.mode = .accumulator) : ∃ t, exec i s = .next t := by
  have hn := mnemonic_of_accumulator h
  rw [exec_eq, h]
  cases hi : i.mnemonic <;> rw [hi] at hn
  case asl | lsr | rol | ror => exact ⟨_, rfl⟩
  all_goals exact absurd hn (by decide)

/-- An Implicit instruction accesses the stack alone, where no access faults (R145). -/
theorem exec_next_of_implicit (s : State) (h : i.mode = .implicit) : ∃ t, exec i s = .next t := by
  have hop := fun hn => mode_ne_implicit (i := i) hn h
  have hjump := fun hn => mode_ne_implicit_of_jsr_or_branch (i := i) hn h
  rw [exec_eq]
  cases hi : i.mnemonic <;> rw [hi] at hop hjump <;> simp only [meaningOf]
  case adc | sbc | and | ora | eor | bit | asl | lsr | rol | ror | cmp | cpx | cpy | inc | dec | jmp | lda | ldx | ldy
      | sta | stx | sty =>
    exact absurd (by decide) hop
  case jsr | bcc | bcs | beq | bne | bmi | bpl | bvc | bvs => exact absurd (by decide) hjump
  case pha => exact ⟨_, pha_eq s⟩
  case php => exact ⟨_, php_eq s⟩
  case pla => exact ⟨_, pla_eq s⟩
  case plp => exact ⟨_, plp_eq s⟩
  case rts => exact ⟨_, rts_eq s⟩
  case rti => exact ⟨_, rti_eq s⟩
  case brk => exact ⟨_, brk_eq s⟩
  all_goals exact ⟨_, implied_eq _ s⟩

end

/-- Settles O52, mode by mode. -/
theorem implicitInstructionsNeverFault : Obligations.ImplicitInstructionsNeverFault := by
  intro i s hm
  rcases (by simpa using hm : i.mode = .implicit ∨ i.mode = .accumulator) with h | h
  · exact exec_next_of_implicit s h
  · exact exec_next_of_accumulator s h

/-- A form that stores nothing writes the stack at most, and so faults on a read only (R79, R342, R343). -/
theorem exec_fault_of_not_storing {i : Instr} {s : State} {f : Fault} (hs : i ∉ storingForms.map Prod.fst)
    (h : exec i s = .fault f) : ∃ q, f = .reservedWindow q .read := by
  have hmode : ¬ i.mode ∈ [.implicit, .accumulator] := fun hm => by
    obtain ⟨t, ht⟩ := implicitInstructionsNeverFault i s hm
    cases h.symm.trans ht
  have hi : i.mode ≠ .implicit := fun hc => hmode (by simp [hc])
  have ha : i.mode ≠ .accumulator := fun hc => hmode (by simp [hc])
  by_cases hop : i.mnemonic ∈ operandMnemonics
  · have hstoring := fun hn => hs (mem_storingForms (i := i) hn)
    have hshift := fun hn => ha (mode_eq_accumulator_of_shift (i := i) hn hs)
    rw [exec_eq] at h
    cases hn : i.mnemonic <;> rw [hn] at h hop hstoring hshift <;> simp only [meaningOf] at h
    case sta | stx | sty | inc | dec => exact absurd (by decide) hstoring
    case asl | lsr | rol | ror => exact absurd (by decide) hshift
    case adc | sbc | and | ora | eor | bit | cmp | cpx | cpy | lda | ldx | ldy =>
      exact (readOperand_fault h).resolve_left fun hc => hi hc.1
    case jmp => exact (jump_fault h).resolve_left fun hc => hc.1.elim hi ha
    all_goals exact absurd hop (by decide)
  · rcases mode_of_not_operandMnemonic hop with rfl | hr | hc
    · exact jsr_fault h
    · obtain ⟨b, hb, rfl⟩ := mem_branchForms_of_relative hr
      exact branch_error ((exec_of_mem_branchForms hb s).symm.trans h)
    · exact absurd hc hi

/-- Settles O51: a form that stores nothing faults on a read, and every RomWrite is of an address of ROM. -/
theorem onlyStoringFormsFaultOnRom : Obligations.OnlyStoringFormsFaultOnRom := by
  intro i s addr v h
  constructor
  · by_contra hs
    obtain ⟨q, hq⟩ := exec_fault_of_not_storing hs h
    cases hq
  · rcases exec_fault h with ⟨q, k, hf⟩ | ⟨q, v', hq, hf⟩ <;> cases hf
    exact hq

/-! ### The launch refusals -/

/-- Memory after a list of `LoadRam`s that all lie in RAM, in order (R68, R383). -/
def stagedMemory (loads : List Staging) (m : Memory) : Memory :=
  loads.foldl (fun m st => Memory.writeBytes m st.offset st.bytes) m

/-- The `LoadRam`s that lie in RAM are made, and what follows them goes on from there (R68). -/
theorem stageAll_append {loads : List Staging} (rest : List Staging) (s : State)
    (h : ∀ st ∈ loads, st.offset + st.bytes.length ≤ 0x0800) :
    stageAll (loads ++ rest) s = stageAll rest (s.setMem (stagedMemory loads s.mem)) := by
  induction loads generalizing s with
  | nil => rfl
  | cons st loads ih =>
    obtain ⟨hst, hloads⟩ := List.forall_mem_cons.mp h
    have hload : loadRam st s = .ok (s.setMem (Memory.writeBytes s.mem st.offset st.bytes)) :=
      if_neg (Nat.not_lt.mpr hst)
    simp only [List.cons_append, stageAll, hload, bind, Except.bind]
    exact ih _ hloads

/-- A `LoadRam` that would pass the end of RAM ends the staging, whatever follows (R68, D29). -/
theorem stageAll_of_pastEnd {st : Staging} (rest : List Staging) (s : State)
    (h : st.offset + st.bytes.length > 0x0800) :
    stageAll (st :: rest) s = .error (.loadRamPastEnd st.offset st.bytes.length) := by
  have hload : loadRam st s = .error (.loadRamPastEnd st.offset st.bytes.length) := if_pos h
  simp only [stageAll, hload, bind, Except.bind]

/-- Settles O58: the image's size is found before any load, and the loads before the bad one are all made. -/
theorem launchRefusesBadImagesAndLoads : Obligations.LaunchRefusesBadImagesAndLoads := by
  refine ⟨fun l h16 h32 => ?_, fun l p before after st hlen hp hloads hbefore hst => ?_⟩
  · simp only [launch, prgSizeOf, if_neg h16, if_neg h32, bind, Except.bind]
  · obtain ⟨size, hsize, -⟩ := prgSizeOf_ok hlen
    simp only [launch, hsize, hp, stage, hloads, stageAll_append _ _ hbefore, stageAll_of_pastEnd _ _ hst, bind,
      Except.bind]

/-! ### The callback -/

/-- What an address reads as after the host writes or leaves a byte of RAM, through any mirror (R64, R361). -/
theorem peek_hostWrite {addr : Word} (ha : addr.toNat < 0x0800) (v : Option Byte) (s : State) (q : Word) :
    (hostWrite addr.toNat v s).peek q = if SameRamByte addr q then v.or (s.peek q) else s.peek q := by
  cases v with
  | none => simp [hostWrite]
  | some b =>
    have hsame : (q.toNat ≤ 0x1FFF ∧ q.toNat % 0x0800 = addr.toNat) ↔ SameRamByte addr q := by
      unfold SameRamByte
      omega
    rw [hostWrite, peek_setMem_ram ha]
    exact if_congr hsame rfl rfl

/-- Settles O59: two bytes of RAM are written or left, and they are not the same byte. -/
theorem callbackWritesOnlyTheHostCells : Obligations.CallbackWritesOnlyTheHostCells := by
  refine ⟨fun s h => by rw [callback, h], fun s mv rest h => ⟨?_, fun q => ?_⟩⟩
  · have hcallback := callback_with s
    rwa [h] at hcallback
  · have hcallback : callback s = hostWrite (0x00FF : Word).toNat mv.direction
        (hostWrite (0x00FE : Word).toNat mv.random (s.setHostMoves rest)) := by rw [callback, h]; rfl
    have hne : SameRamByte 0x00FE q → ¬ SameRamByte 0x00FF q := by
      rintro ⟨-, -, hfe⟩ ⟨-, -, hff⟩
      exact absurd (hfe.trans hff.symm) (by decide)
    have hs : (s.setHostMoves rest).peek q = s.peek q := State.peek_congr rfl rfl q
    rw [hcallback, peek_hostWrite (by decide), peek_hostWrite (by decide), hs]
    by_cases hfe : SameRamByte 0x00FE q
    · rw [if_neg (hne hfe), if_pos hfe, if_pos hfe]
    · rw [if_neg hfe, if_neg hfe]

/-! ### The run loop -/

/-- A Halted state ends the loop whatever the fuel (R363, D18). -/
theorem runLoop_of_halted {s : State} (n : Nat) (h : s.halted = true) : runLoop n s = .halted s := by
  cases n <;> rw [runLoop, if_pos h]

/-- Settles O60: a state whose step is no refusal is not Halted, so the loop takes that step. -/
theorem runLoopStopsAtBreakAndFault : Obligations.RunLoopStopsAtBreakAndFault := by
  refine fun n s => ⟨runLoop_of_halted n, fun t ht => ?_, fun f hf => ?_⟩
  · have hs : s.halted = false := halted_eq_false_of_step (by rw [ht]; exact nofun)
    rw [runLoop, hs, if_neg Bool.false_ne_true, ht]
  · have hs : s.halted = false := halted_eq_false_of_step (by rw [hf]; exact nofun)
    rw [runLoop, hs, if_neg Bool.false_ne_true, hf]

end Sys2Proof.Machine
end

section
/-! PROOFS. The statement of 70_reset_and_hazards.md: a staged launch (O57). -/

namespace Sys2Proof.Machine

/-- A `LoadRam` that lies in RAM writes cells of RAM only (R68). -/
theorem RamWrites.writeBytes (m : Memory) {c : Nat} {l : List Byte} (h : c + l.length ≤ 0x0800) :
    RamWrites m (Memory.writeBytes m c l) := by
  induction l generalizing m c with
  | nil => exact .refl m
  | cons v l ih =>
    rw [List.length_cons] at h
    exact (RamWrites.one m (by omega) v).trans (ih _ (by omega))

theorem RamWrites.stagedMemory {loads : List Staging} (m : Memory)
    (h : ∀ st ∈ loads, st.offset + st.bytes.length ≤ 0x0800) : RamWrites m (stagedMemory loads m) := by
  induction loads generalizing m with
  | nil => exact .refl m
  | cons st loads ih =>
    obtain ⟨hst, hloads⟩ := List.forall_mem_cons.mp h
    exact (RamWrites.writeBytes m hst).trans (ih _ hloads)

/-- A launch stages its program in the state the same launch without staging gives (R383). -/
theorem launch_eq_stage {l : Launch} {r : State} (h : launch { l with staged := none } = .ok r) :
    launch l = stage l.staged r := by
  simp only [launch] at h ⊢
  cases hsize : prgSizeOf l.prg with
  | error e =>
    rw [hsize] at h
    cases h
  | ok size =>
    rw [hsize] at h
    cases h
    rfl

/-- Staging changes memory, by the loads, and PC, to ENTRY (R383, D26). -/
theorem stage_of_fits {p : StagedProgram} (s : State)
    (h : ∀ st ∈ p.loads, st.offset + st.bytes.length ≤ 0x0800) :
    stage (some p) s = .ok ((s.setMem (stagedMemory p.loads s.mem)).setPc p.entry) := by
  have hall := stageAll_append [] s h
  rw [List.append_nil] at hall
  simp only [stage, hall, stageAll, bind, Except.bind]

/-- Settles O57: the loads write cells of RAM only, and one of them reads back as its bytes. -/
theorem stagedLaunchLoadsRamAndEnters : Obligations.StagedLaunchLoadsRamAndEnters := by
  intro l p r hp hr hfits
  have hlaunch : launch l = .ok ((r.setMem (stagedMemory p.loads r.mem)).setPc p.entry) := by
    rw [launch_eq_stage hr, hp, stage_of_fits r hfits]
  have hram : RamWrites r.mem ((r.setMem (stagedMemory p.loads r.mem)).setPc p.entry).mem :=
    RamWrites.stagedMemory r.mem hfits
  refine ⟨_, hlaunch, rfl, fun q hq => hram.peek_rom rfl hq, fun st hst k _ => ?_⟩
  rw [hst]
  exact Memory.read_writeBytes st.bytes r.mem st.offset k

end Sys2Proof.Machine
end
